-- ==== Sys2Proof/Word.lean ====
section
/-! DEFINITION. The plain data of the hardware: bytes, 64-bit operands, 32-bit command words, and the
16-byte block seen as four columns of four bytes (spec/00_scope.md R6, spec/40_aes_functions.md R127). -/

namespace Sys2Proof

/-- A byte, 0 to 255 (R6). -/
abbrev Byte := BitVec 8

/-- The value of an operand register (R20). -/
abbrev Word64 := BitVec 64

/-- The value of `CMD` (R24, R90). -/
abbrev CommandWord := BitVec 32

/-- Four bytes: a column of the AES state, row 0 first (R127), and a word of the key expansion (R136). -/
structure Col where
  r0 : Byte
  r1 : Byte
  r2 : Byte
  r3 : Byte
  deriving DecidableEq, Repr

/-- A block of exactly 16 bytes: byte `r + 4*c` is row `r` of column `c` (R6, R127). -/
structure Block where
  c0 : Col
  c1 : Col
  c2 : Col
  c3 : Col
  deriving DecidableEq, Repr

/-- A sequence of exactly 8 bytes: the CTR nonce, and `be64` of an index (R8, R35). -/
structure Block8 where
  h0 : Col
  h1 : Col
  deriving DecidableEq, Repr

def Col.zero : Col := ⟨0, 0, 0, 0⟩

def Block.zero : Block := ⟨Col.zero, Col.zero, Col.zero, Col.zero⟩

def Block8.zero : Block8 := ⟨Col.zero, Col.zero⟩

end Sys2Proof
end

