-- ==== Sys2Proof/Config.lean ====
section
/-! DEFINITION. What an implementation fixes: the sizes of spec/00_scope.md R5, and the two values the
spec leaves open that the state after reset has to name (log entries 2 and 3). The spec leaves no
result of a command open, so there is no free value here. -/

namespace Sys2Proof

/-- The largest `MEM_BYTES` the spec allows (R5, 92 D12). -/
def Config.maxMemBytes : Nat := 2 ^ 64

/-- `MEM_BYTES` in `State.reset`. The parameter is OPEN (R5); 4096 is the value of the spec's vectors.
DESIGN CHOICE (log entry 2), unsafe for a claim about `State.reset` alone: claims quantify over
`State.memBytes`. -/
def Config.resetMemBytes : Nat := 4096

/-- What a byte of buffer memory that is not listed reads as. The spec says each byte holds an
arbitrary value after reset (R41). DESIGN CHOICE (log entry 3), unsafe for a claim about
`State.reset` alone: a state can list any content. -/
def Config.unwrittenByte : Byte := 0x00

/-- The key sizes in bytes (R5, R253). -/
def Config.keySizes : List Nat := [16, 24, 32]

/-- The block size in bytes (R5). -/
def Config.blockBytes : Nat := 16

/-- The size of the CTR nonce in bytes (R5). -/
def Config.nonceBytes : Nat := 8

/-- How many round keys a schedule holds room for (R30). -/
def Config.roundKeySlots : Nat := 15

end Sys2Proof
end

