-- ==== Sys2Proof/Syntax.lean ====
section
/-! DEFINITION. The 22 commands, one constructor per row of spec/opcode_table.json
(spec/30_encoding.md R94). A command word names no register: the operands stand in the operand
registers (R92). -/

namespace Sys2Proof

/-- A legal command. `ksz` is the key size in bytes that `KSZ` spells (R92); `sel` is the slot mask of
`ZEROIZE` (R93). -/
inductive Instr where
  | aesInit (ksz : Nat)
  | aesEncrypt
  | aesDecrypt
  | xorBuf
  | cbcInit
  | cbcInitWithKey (ksz : Nat)
  | cbcEncrypt
  | cbcDecrypt
  | cbcEncryptWithKey (ksz : Nat)
  | cbcDecryptWithKey (ksz : Nat)
  | ctrInit
  | ctrInitWithKey (ksz : Nat)
  | ctrSetStreamIndex
  | ctrXor
  | ctrOutput
  | ctrXorWithKey (ksz : Nat)
  | ofbInit
  | ofbInitWithKey (ksz : Nat)
  | ofbXor
  | ofbOutput
  | ofbXorWithKey (ksz : Nat)
  | zeroize (sel : BitVec 4)
  deriving DecidableEq, Repr

end Sys2Proof
end

