-- ==== Sys2Proof/WellFormed.lean ====
section
/-! DEFINITION. When a command has an encoding: `KSZ` is an unsigned immediate of 8 bits
(spec/30_encoding.md R91, R92). Every `sel` is legal in `ZEROIZE` (R93). A `ksz` of 16, 24 or 32 is no
condition here: the other values are legal encodings that fail at execution (R92). -/

namespace Sys2Proof

/-- The key size a keyed command carries; none for the fourteen commands that are not keyed (R94). -/
def Instr.ksz? : Instr → Option Nat
  | .aesInit ksz => some ksz
  | .aesEncrypt => none
  | .aesDecrypt => none
  | .xorBuf => none
  | .cbcInit => none
  | .cbcInitWithKey ksz => some ksz
  | .cbcEncrypt => none
  | .cbcDecrypt => none
  | .cbcEncryptWithKey ksz => some ksz
  | .cbcDecryptWithKey ksz => some ksz
  | .ctrInit => none
  | .ctrInitWithKey ksz => some ksz
  | .ctrSetStreamIndex => none
  | .ctrXor => none
  | .ctrOutput => none
  | .ctrXorWithKey ksz => some ksz
  | .ofbInit => none
  | .ofbInitWithKey ksz => some ksz
  | .ofbXor => none
  | .ofbOutput => none
  | .ofbXorWithKey ksz => some ksz
  | .zeroize _ => none

/-- A command fits format `C`: a key size is at most 255 (R91, R92). -/
def Instr.wellFormed (i : Instr) : Bool :=
  match i.ksz? with
  | some ksz => decide (ksz ≤ 255)
  | none => true

end Sys2Proof
end

