-- ==== Sys2Proof/Decode.lean ====
section
/-! DEFINITION. Decoding and encoding of command words (spec/30_encoding.md R91 to R96). A command word
is a number written to `CMD`; it never stands in memory, so there is no byte order here (R63, R75). -/

namespace Sys2Proof

/-- Why a word is no legal command (R95, R96, R252). All four execute alike, as `IllegalCommand`. -/
inductive DecodeError where
  /-- `RSV` is not zero. -/
  | reservedBits
  /-- `OP` is not in the table of R94. -/
  | unknownOpcode
  /-- `KSZ` is not zero in a command that is not keyed. -/
  | strayKeySize
  /-- `SEL` is not zero in a command other than `ZEROIZE`. -/
  | straySelect
  deriving DecidableEq, Repr

/-- `CMD.OP` = `w[7:0]` (R91). -/
def fieldOp (w : CommandWord) : BitVec 8 := w.extractLsb' 0 8

/-- `CMD.KSZ` = `w[15:8]` (R91). -/
def fieldKsz (w : CommandWord) : BitVec 8 := w.extractLsb' 8 8

/-- `CMD.SEL` = `w[19:16]` (R91). -/
def fieldSel (w : CommandWord) : BitVec 4 := w.extractLsb' 16 4

/-- `CMD.RSV` = `w[31:20]` (R91). -/
def fieldRsv (w : CommandWord) : BitVec 12 := w.extractLsb' 20 12

/-- The command an opcode selects, with the fields it may use (R94). -/
def instrOfOpcode (op : Nat) (ksz : Nat) (sel : BitVec 4) : Option Instr :=
  match op with
  | 0x01 => some (.aesInit ksz)
  | 0x02 => some .aesEncrypt
  | 0x03 => some .aesDecrypt
  | 0x04 => some .xorBuf
  | 0x10 => some .cbcInit
  | 0x11 => some (.cbcInitWithKey ksz)
  | 0x12 => some .cbcEncrypt
  | 0x13 => some .cbcDecrypt
  | 0x14 => some (.cbcEncryptWithKey ksz)
  | 0x15 => some (.cbcDecryptWithKey ksz)
  | 0x20 => some .ctrInit
  | 0x21 => some (.ctrInitWithKey ksz)
  | 0x22 => some .ctrSetStreamIndex
  | 0x23 => some .ctrXor
  | 0x24 => some .ctrOutput
  | 0x25 => some (.ctrXorWithKey ksz)
  | 0x30 => some .ofbInit
  | 0x31 => some (.ofbInitWithKey ksz)
  | 0x32 => some .ofbXor
  | 0x33 => some .ofbOutput
  | 0x34 => some (.ofbXorWithKey ksz)
  | 0x7F => some (.zeroize sel)
  | _ => none

/-- The eight keyed commands (R94). -/
def Instr.isKeyed (i : Instr) : Bool := i.ksz?.isSome

/-- The opcode of each command (R94). -/
def Instr.opcode : Instr → Nat
  | .aesInit _ => 0x01
  | .aesEncrypt => 0x02
  | .aesDecrypt => 0x03
  | .xorBuf => 0x04
  | .cbcInit => 0x10
  | .cbcInitWithKey _ => 0x11
  | .cbcEncrypt => 0x12
  | .cbcDecrypt => 0x13
  | .cbcEncryptWithKey _ => 0x14
  | .cbcDecryptWithKey _ => 0x15
  | .ctrInit => 0x20
  | .ctrInitWithKey _ => 0x21
  | .ctrSetStreamIndex => 0x22
  | .ctrXor => 0x23
  | .ctrOutput => 0x24
  | .ctrXorWithKey _ => 0x25
  | .ofbInit => 0x30
  | .ofbInitWithKey _ => 0x31
  | .ofbXor => 0x32
  | .ofbOutput => 0x33
  | .ofbXorWithKey _ => 0x34
  | .zeroize _ => 0x7F

/-- The slot mask a command carries (R93): zero in all commands but `ZEROIZE`. -/
def Instr.selField : Instr → BitVec 4
  | .zeroize sel => sel
  | .aesInit _ | .aesEncrypt | .aesDecrypt | .xorBuf => 0
  | .cbcInit | .cbcInitWithKey _ | .cbcEncrypt | .cbcDecrypt => 0
  | .cbcEncryptWithKey _ | .cbcDecryptWithKey _ => 0
  | .ctrInit | .ctrInitWithKey _ | .ctrSetStreamIndex | .ctrXor | .ctrOutput => 0
  | .ctrXorWithKey _ => 0
  | .ofbInit | .ofbInitWithKey _ | .ofbXor | .ofbOutput | .ofbXorWithKey _ => 0

/-- The one command whose `SEL` may be other than zero: `op = 0x7F` (R93, R95). -/
def Instr.usesSel (i : Instr) : Bool := i.opcode == 0x7F

/-- Decoding a command word: total, every word is one legal command or refused by name (R95). -/
def decode (w : CommandWord) : Except DecodeError Instr :=
  if fieldRsv w ≠ 0 then .error .reservedBits
  else
    match instrOfOpcode (fieldOp w).toNat (fieldKsz w).toNat (fieldSel w) with
    | none => .error .unknownOpcode
    | some i =>
      if !i.isKeyed && fieldKsz w != 0 then .error .strayKeySize
      else if !i.usesSel && fieldSel w != 0 then .error .straySelect
      else .ok i

/-- The command word `op + 256*k + 65536*s` (R91). -/
def encode (i : Instr) : CommandWord :=
  BitVec.ofNat 32 (i.opcode + 256 * i.ksz?.getD 0 + 65536 * i.selField.toNat)

/-- A row of spec/opcode_table.json: a word selects it when `w AND mask == pattern` (R95). -/
structure OpcodeRow where
  pattern : CommandWord
  mask : CommandWord
  deriving DecidableEq, Repr

/-- The masks of R95: everything but `KSZ`, everything but `SEL`, everything. -/
def keyedMask : CommandWord := 0xFFFF00FF

def zeroizeMask : CommandWord := 0xFFF0FFFF

def plainMask : CommandWord := 0xFFFFFFFF

/-- The 22 rows of the opcode table (R94, R95). -/
def opcodeRows : List OpcodeRow :=
  [⟨0x01, keyedMask⟩, ⟨0x02, plainMask⟩, ⟨0x03, plainMask⟩, ⟨0x04, plainMask⟩] ++
  [⟨0x10, plainMask⟩, ⟨0x11, keyedMask⟩, ⟨0x12, plainMask⟩, ⟨0x13, plainMask⟩,
   ⟨0x14, keyedMask⟩, ⟨0x15, keyedMask⟩] ++
  [⟨0x20, plainMask⟩, ⟨0x21, keyedMask⟩, ⟨0x22, plainMask⟩, ⟨0x23, plainMask⟩,
   ⟨0x24, plainMask⟩, ⟨0x25, keyedMask⟩] ++
  [⟨0x30, plainMask⟩, ⟨0x31, keyedMask⟩, ⟨0x32, plainMask⟩, ⟨0x33, plainMask⟩,
   ⟨0x34, keyedMask⟩] ++
  [⟨0x7F, zeroizeMask⟩]

/-- A word selects a row (R95). -/
def OpcodeRow.selects (r : OpcodeRow) (w : CommandWord) : Bool := (w &&& r.mask) == r.pattern

/-- What the decoder reads from an instruction of `nbits` bits whose bits are `w`, numbered as the
opcode table numbers them: the command word itself, bits above `nbits` zero. -/
def decodeTableWord (nbits w : Nat) : Option Instr :=
  (decode (BitVec.ofNat 32 (w % 2 ^ nbits))).toOption

end Sys2Proof
end

