-- ==== Sys2Proof/Machine/State.lean ====
section
/-! DEFINITION. The state of the machine as plain data (spec/10_state.md R20 to R42,
spec/20_memory.md R60), the host agent's pending steps (spec/45_system.md R245 to R248), the reasons a
step can stop, and the state after reset (R41). -/

namespace Sys2Proof.Machine

/-- The buffer memory: (address, byte) pairs, addresses strictly rising, no byte equal to what an
unlisted address reads as (log entry 3). -/
abbrev Memory := List Host.Cell

/-- The seven operand registers `x0` to `x6` under their aliases (R20, R21). -/
structure OperandRegs where
  /-- `x0` = `SRC`: address of the input. -/
  src : Word64
  /-- `x1` = `SRC2`: address of operand `b` of `XOR_BUF`. -/
  src2 : Word64
  /-- `x2` = `DST`: address of the output. -/
  dst : Word64
  /-- `x3` = `LEN`: number of bytes to transform. -/
  len : Word64
  /-- `x4` = `KEYA`: address of the key. -/
  keya : Word64
  /-- `x5` = `IVA`: address of the IV. -/
  iva : Word64
  /-- `x6` = `IDX`: CTR stream index to seek to. -/
  idx : Word64
  deriving DecidableEq, Repr

/-- The values of `STATUS.RESULT`; the codes 7 to 15 never occur (R25, R250). -/
inductive ResultCode where
  | ok
  | invalidKeySize
  | sizeNotBlockAligned
  | noContext
  | illegalCommand
  | accessFault
  | overlapFault
  deriving DecidableEq, Repr

/-- A cipher context: round count and the two schedules of 15 round keys (R30). -/
structure CipherCtx where
  /-- `NR`: 10, 12 or 14; 0 when zeroed. -/
  nr : Nat
  /-- `EK[0..14]`, encryption order. -/
  ek : Vector Block 15
  /-- `DK[0..14]`, decryption order (R137). -/
  dk : Vector Block 15
  deriving DecidableEq, Repr

/-- The AES slot (R30). -/
structure AesSlot where
  valid : Bool
  ctx : CipherCtx
  deriving DecidableEq, Repr

/-- The CBC slot: its own copy of a context and the previous ciphertext block (R33, R34). -/
structure CbcSlot where
  valid : Bool
  ctx : CipherCtx
  prev : Block
  deriving DecidableEq, Repr

/-- The CTR slot: context, nonce, stream byte index, and the cached keystream block with the index of
its counter block (R33, R35). -/
structure CtrSlot where
  valid : Bool
  ctx : CipherCtx
  iv : Block8
  sidx : Word64
  bidx : Word64
  ks : Block
  deriving DecidableEq, Repr

/-- The OFB slot: context, current keystream block, number of its bytes already used, 0 to 16 (R33,
R37). -/
structure OfbSlot where
  valid : Bool
  ctx : CipherCtx
  ks : Block
  off : Fin 17
  deriving DecidableEq, Repr

/-- A step of the host agent between commands (R245 to R248; reset: R280). -/
inductive HostStep where
  /-- `RegWrite(n, v)`; `n = 0x00` runs a command. -/
  | regWrite (n : Nat) (v : Word64)
  /-- `RegRead(n)`. -/
  | regRead (n : Nat)
  /-- `HostMemWrite(a, bytes)`. -/
  | memWrite (a : Word64) (bytes : List Byte)
  /-- `HostMemRead(a, n)`. -/
  | memRead (a n : Word64)
  /-- Reset, asserted between commands. -/
  | reset
  deriving DecidableEq, Repr

/-- What the host's last read returned (R246, R247); a field of the model, not of the hardware
(log entry 6). -/
inductive HostReply where
  | none
  | value (v : Word64)
  | bytes (bs : List Byte)
  deriving DecidableEq, Repr

/-- The state. `regs`, `cmd`, `result`, the four slots and `mem` are the hardware's (R12); `memBytes`
is its configuration (R5, R12); `script` and `reply` are the host agent's. -/
structure State where
  regs : OperandRegs
  /-- `CMD` (R24). -/
  cmd : CommandWord
  /-- `STATUS.RESULT` (R25, R27). -/
  result : ResultCode
  aes : AesSlot
  cbc : CbcSlot
  ctr : CtrSlot
  ofb : OfbSlot
  /-- The buffer memory (R60). -/
  mem : Memory
  /-- `MEM_BYTES`, the open parameter (R5): no step changes it (log entry 2). -/
  memBytes : Nat
  /-- The host's pending steps, oldest first (log entry 1). -/
  script : List HostStep
  /-- What the host's last read returned (log entry 6). -/
  reply : HostReply
  deriving DecidableEq, Repr

/-- The machine has no fault: every error of the spec is a result code, and no state is without a step
(spec/60_exceptions.md R262; log entry 9). -/
inductive Fault where
  deriving DecidableEq, Repr

/-- Why a step has no meaning. -/
inductive Refusal where
  /-- Raised by an arm of `exec` for a command that has no meaning yet; no arm raises it. Safe. -/
  | notModelled (mnemonic : String)
  /-- Raised by the host steps `HostMemWrite` and `HostMemRead` on a range that is not admitted: the
  spec gives the host no such step (spec/45_system.md R247; 93 U12; log entry 4). No command raises it.
  Safe. -/
  | hostRangeNotAdmitted
  deriving DecidableEq, Repr

/-- A zeroed context: `NR = 0`, every byte of `EK` and `DK` zero (R41). -/
def CipherCtx.zeroed : CipherCtx :=
  ⟨0, Vector.replicate 15 Block.zero, Vector.replicate 15 Block.zero⟩

/-- The zeroed slots (R41, R42): valid flag 0 and every other field zero. -/
def AesSlot.zeroed : AesSlot := ⟨false, CipherCtx.zeroed⟩

def CbcSlot.zeroed : CbcSlot := ⟨false, CipherCtx.zeroed, Block.zero⟩

def CtrSlot.zeroed : CtrSlot := ⟨false, CipherCtx.zeroed, Block8.zero, 0, 0, Block.zero⟩

def OfbSlot.zeroed : OfbSlot := ⟨false, CipherCtx.zeroed, Block.zero, 0⟩

/-- The machine right after reset (R41, R280): operand registers, `CMD` and `STATUS` 0, every slot
zeroed. The spec leaves the buffer memory arbitrary and `MEM_BYTES` open: nothing is listed (log entry
3) and `MEM_BYTES` is `Config.resetMemBytes` (log entry 2). The host has issued nothing (log entry
1). -/
def State.reset : State where
  regs := ⟨0, 0, 0, 0, 0, 0, 0⟩
  cmd := 0
  result := .ok
  aes := AesSlot.zeroed
  cbc := CbcSlot.zeroed
  ctr := CtrSlot.zeroed
  ofb := OfbSlot.zeroed
  mem := []
  memBytes := Config.resetMemBytes
  script := []
  reply := .none

end Sys2Proof.Machine
end

