-- ==== Sys2Proof/Machine/Bytes.lean ====
section
/-! DEFINITION. Byte sequences and blocks: exclusive-or, the order of bytes in a block
(spec/40_aes_functions.md R127), `be64` (spec/00_scope.md R8) and the cutting of a buffer into blocks. -/

namespace Sys2Proof

/-- Exclusive-or of two columns, byte by byte (R8). -/
def Col.xor (a b : Col) : Col :=
  ⟨a.r0 ^^^ b.r0, a.r1 ^^^ b.r1, a.r2 ^^^ b.r2, a.r3 ^^^ b.r3⟩

/-- Exclusive-or of two blocks, byte by byte (R8). -/
def Block.xor (a b : Block) : Block :=
  ⟨a.c0.xor b.c0, a.c1.xor b.c1, a.c2.xor b.c2, a.c3.xor b.c3⟩

/-- Exclusive-or of two byte sequences of equal length (R8). -/
def xorBytes (a b : List Byte) : List Byte := List.zipWith (· ^^^ ·) a b

/-- The four bytes of a column, row 0 first (R127). -/
def Col.toList (c : Col) : List Byte := [c.r0, c.r1, c.r2, c.r3]

/-- The first four bytes of a sequence as a column (R127). -/
def Col.ofList (l : List Byte) : Col := ⟨l.getD 0 0, l.getD 1 0, l.getD 2 0, l.getD 3 0⟩

/-- The 16 bytes `b[0]` to `b[15]` of a block, column by column (R127). -/
def Block.toList (b : Block) : List Byte :=
  b.c0.toList ++ b.c1.toList ++ b.c2.toList ++ b.c3.toList

/-- The first 16 bytes of a sequence as a block (R127). -/
def Block.ofList (l : List Byte) : Block :=
  ⟨Col.ofList l, Col.ofList (l.drop 4), Col.ofList (l.drop 8), Col.ofList (l.drop 12)⟩

/-- Byte `b[i]` of a block, `i` in 0 to 15 (R7). -/
def Block.byte (b : Block) (i : Nat) : Byte := b.toList.getD i 0

/-- The 8 bytes of a half block. -/
def Block8.toList (h : Block8) : List Byte := h.h0.toList ++ h.h1.toList

/-- The first 8 bytes of a sequence. -/
def Block8.ofList (l : List Byte) : Block8 := ⟨Col.ofList l, Col.ofList (l.drop 4)⟩

/-- Byte `i` of `be64(v)`: `(v div 2^(8*(7-i))) mod 256` (R8). -/
def be64Byte (v : Word64) (i : Nat) : Byte := BitVec.ofNat 8 (v.toNat / 2 ^ (8 * (7 - i)))

/-- `be64(v)`: the 8 bytes of `v`, most significant first (R8). -/
def be64 (v : Word64) : Block8 :=
  ⟨⟨be64Byte v 0, be64Byte v 1, be64Byte v 2, be64Byte v 3⟩,
   ⟨be64Byte v 4, be64Byte v 5, be64Byte v 6, be64Byte v 7⟩⟩

/-- `a ‖ b` of two 8-byte sequences (R8). -/
def Block8.append (a b : Block8) : Block := ⟨a.h0, a.h1, b.h0, b.h1⟩

/-- The first `k` blocks of a sequence, in order. -/
def blocksOf : Nat → List Byte → List Block
  | 0, _ => []
  | k + 1, l => Block.ofList l :: blocksOf k (l.drop 16)

/-- The bytes of a list of blocks, in order. -/
def bytesOfBlocks : List Block → List Byte
  | [] => []
  | b :: bs => b.toList ++ bytesOfBlocks bs

end Sys2Proof
end

