-- ==== Sys2Proof/Machine/Rounds.lean ====
section
/-! DEFINITION. The round functions of the cipher (spec/40_aes_functions.md R127 to R134). -/

namespace Sys2Proof.Machine

/-- A byte function applied to the four bytes of a column. -/
def mapCol (f : Byte → Byte) (c : Col) : Col := ⟨f c.r0, f c.r1, f c.r2, f c.r3⟩

/-- A byte function applied to the 16 bytes of a block. -/
def mapBlock (f : Byte → Byte) (s : Block) : Block :=
  ⟨mapCol f s.c0, mapCol f s.c1, mapCol f s.c2, mapCol f s.c3⟩

/-- A column function applied to the four columns of a block. -/
def mapCols (f : Col → Col) (s : Block) : Block := ⟨f s.c0, f s.c1, f s.c2, f s.c3⟩

/-- `SubBytes` (R128). -/
def subBytes (s : Block) : Block := mapBlock sbox s

/-- `InvSubBytes` (R129). -/
def invSubBytes (s : Block) : Block := mapBlock invSbox s

/-- `ShiftRows`: row `r` of column `c` comes from column `(c + r) mod 4` (R130). -/
def shiftRows (s : Block) : Block :=
  ⟨⟨s.c0.r0, s.c1.r1, s.c2.r2, s.c3.r3⟩,
   ⟨s.c1.r0, s.c2.r1, s.c3.r2, s.c0.r3⟩,
   ⟨s.c2.r0, s.c3.r1, s.c0.r2, s.c1.r3⟩,
   ⟨s.c3.r0, s.c0.r1, s.c1.r2, s.c2.r3⟩⟩

/-- `InvShiftRows`: row `r` of column `c` comes from column `(c - r) mod 4` (R131). -/
def invShiftRows (s : Block) : Block :=
  ⟨⟨s.c0.r0, s.c3.r1, s.c2.r2, s.c1.r3⟩,
   ⟨s.c1.r0, s.c0.r1, s.c3.r2, s.c2.r3⟩,
   ⟨s.c2.r0, s.c1.r1, s.c0.r2, s.c3.r3⟩,
   ⟨s.c3.r0, s.c2.r1, s.c1.r2, s.c0.r3⟩⟩

/-- One column of `MixColumns` (R132). -/
def mixColumn (a : Col) : Col :=
  ⟨gmul a.r0 2 ^^^ gmul a.r1 3 ^^^ a.r2 ^^^ a.r3,
   a.r0 ^^^ gmul a.r1 2 ^^^ gmul a.r2 3 ^^^ a.r3,
   a.r0 ^^^ a.r1 ^^^ gmul a.r2 2 ^^^ gmul a.r3 3,
   gmul a.r0 3 ^^^ a.r1 ^^^ a.r2 ^^^ gmul a.r3 2⟩

/-- One column of `InvMixColumns` (R133). -/
def invMixColumn (a : Col) : Col :=
  ⟨gmul a.r0 14 ^^^ gmul a.r1 11 ^^^ gmul a.r2 13 ^^^ gmul a.r3 9,
   gmul a.r0 9 ^^^ gmul a.r1 14 ^^^ gmul a.r2 11 ^^^ gmul a.r3 13,
   gmul a.r0 13 ^^^ gmul a.r1 9 ^^^ gmul a.r2 14 ^^^ gmul a.r3 11,
   gmul a.r0 11 ^^^ gmul a.r1 13 ^^^ gmul a.r2 9 ^^^ gmul a.r3 14⟩

/-- `MixColumns` (R132). -/
def mixColumns (s : Block) : Block := mapCols mixColumn s

/-- `InvMixColumns` (R133). -/
def invMixColumns (s : Block) : Block := mapCols invMixColumn s

/-- `AddRoundKey` (R134). -/
def addRoundKey (s k : Block) : Block := s.xor k

end Sys2Proof.Machine
end

