-- ==== Sys2Proof/Machine/KeySchedule.lean ====
section
/-! DEFINITION. Key expansion, the decryption schedule and the cipher context made from a key
(spec/40_aes_functions.md R135 to R137, R143). -/

namespace Sys2Proof.Machine

/-- `RotWord` (R136). -/
def rotWord (t : Col) : Col := ⟨t.r1, t.r2, t.r3, t.r0⟩

/-- `SubWord` (R136). -/
def subWord (t : Col) : Col := mapCol sbox t

/-- The word that is combined with `w[i-Nk]` to make `w[i]`, from `t = w[i-1]` (R136). -/
def scheduleWord (nk i : Nat) (t : Col) : Col :=
  if i % nk = 0 then
    (subWord (rotWord t)).xor ⟨rcon (i / nk), 0, 0, 0⟩
  else if nk = 8 ∧ i % nk = 4 then subWord t
  else t

/-- `count` more words from word `i` on; `ws` holds `w[i-1]`, `w[i-2]`, ..., `w[0]` (R136). -/
def expandWords (nk : Nat) : (count i : Nat) → (ws : List Col) → List Col
  | 0, _, ws => ws
  | k + 1, i, ws =>
    expandWords nk k (i + 1)
      (((ws.getD (nk - 1) Col.zero).xor (scheduleWord nk i (ws.getD 0 Col.zero))) :: ws)

/-- The first `k` words of a key, last first: `w[k-1]`, ..., `w[0]` (R136). -/
def keyWords (key : List Byte) : Nat → List Col
  | 0 => []
  | k + 1 => Col.ofList (key.drop (4 * k)) :: keyWords key k

/-- `Nk` (R136). -/
def keyNk (key : List Byte) : Nat := key.length / 4

/-- `Nr = Nk + 6` (R136). -/
def keyNr (key : List Byte) : Nat := keyNk key + 6

/-- The words `w[0]` to `w[4*(Nr+1)-1]` (R136). -/
def scheduleWords (key : List Byte) : List Col :=
  (expandWords (keyNk key) (4 * (keyNr key + 1) - keyNk key) (keyNk key)
    (keyWords key (keyNk key))).reverse

/-- Four words at a time are a round key (R136). -/
def roundKeys : List Col → List Block
  | a :: b :: c :: d :: ws => ⟨a, b, c, d⟩ :: roundKeys ws
  | _ => []

/-- `EK[0..Nr]` of a key (R136). -/
def keyExpansion (key : List Byte) : List Block := roundKeys (scheduleWords key)

/-- `DK[r]` from `EK[0..Nr]` for `r <= Nr` (R137). -/
def decryptionKey (nr : Nat) (ek : List Block) (r : Nat) : Block :=
  if r = 0 ∨ r = nr then ek.getD (nr - r) Block.zero
  else invMixColumns (ek.getD (nr - r) Block.zero)

/-- A schedule of 15 slots whose entries above `Nr` are zero (R30, R143). -/
def padSchedule (nr : Nat) (key : Nat → Block) : Vector Block 15 :=
  Vector.ofFn fun r => if r.val ≤ nr then key r.val else Block.zero

/-- `Expand(k)`: the context of a key of 16, 24 or 32 bytes (R143). -/
def expand (key : List Byte) : CipherCtx :=
  let ek := keyExpansion key
  { nr := keyNr key
    ek := padSchedule (keyNr key) fun r => ek.getD r Block.zero
    dk := padSchedule (keyNr key) (decryptionKey (keyNr key) ek) }

end Sys2Proof.Machine
end

