-- ==== Sys2Proof/Machine/Cipher.lean ====
section
/-! DEFINITION. The cipher and its inverse (spec/40_aes_functions.md R138 to R142). -/

namespace Sys2Proof.Machine

/-- Round key `r` of a schedule. -/
def roundKey (ks : Vector Block 15) (r : Nat) : Block := ks.getD r Block.zero

/-- One inner round of `Cipher` (R138). -/
def cipherRound (s k : Block) : Block := addRoundKey (mixColumns (shiftRows (subBytes s))) k

/-- One inner round of `InvCipher` (R139). -/
def invCipherRound (s k : Block) : Block :=
  addRoundKey (invMixColumns (invShiftRows (invSubBytes s))) k

/-- `count` inner rounds with the round keys `r`, `r + 1`, ... (R138, R139). -/
def innerRounds (round : Block → Block → Block) (ks : Vector Block 15) :
    (count r : Nat) → Block → Block
  | 0, _, s => s
  | k + 1, r, s => innerRounds round ks k (r + 1) (round s (roundKey ks r))

/-- `Cipher(Nr, EK, b)` (R138). -/
def cipher (nr : Nat) (ek : Vector Block 15) (b : Block) : Block :=
  let s := innerRounds cipherRound ek (nr - 1) 1 (addRoundKey b (roundKey ek 0))
  addRoundKey (shiftRows (subBytes s)) (roundKey ek nr)

/-- `InvCipher(Nr, DK, b)` (R139). -/
def invCipher (nr : Nat) (dk : Vector Block 15) (b : Block) : Block :=
  let s := innerRounds invCipherRound dk (nr - 1) 1 (addRoundKey b (roundKey dk 0))
  addRoundKey (invShiftRows (invSubBytes s)) (roundKey dk nr)

/-- `E(ctx, b)` (R141). -/
def aesE (ctx : CipherCtx) (b : Block) : Block := cipher ctx.nr ctx.ek b

/-- `D(ctx, b)` (R142). -/
def aesD (ctx : CipherCtx) (b : Block) : Block := invCipher ctx.nr ctx.dk b

end Sys2Proof.Machine
end

