-- ==== Sys2Proof/Machine/Flags.lean ====
section
/-! DEFINITION. The result codes, the valid flags and `STATUS`, which is a view of them
(spec/10_state.md R25 to R27, spec/60_exceptions.md R250). -/

namespace Sys2Proof.Machine

/-- The code of a result in `STATUS.RESULT` (R25, R250). -/
def ResultCode.code : ResultCode → Nat
  | .ok => 0
  | .invalidKeySize => 1
  | .sizeNotBlockAligned => 2
  | .noContext => 3
  | .illegalCommand => 4
  | .accessFault => 5
  | .overlapFault => 6

/-- A flag as a number. -/
def flagBit (b : Bool) : Nat := if b then 1 else 0

/-- The value a read of `STATUS` returns (R25). -/
def statusWord (s : State) : BitVec 32 :=
  BitVec.ofNat 32 (s.result.code + 16 * flagBit s.aes.valid + 32 * flagBit s.cbc.valid
    + 64 * flagBit s.ctr.valid + 128 * flagBit s.ofb.valid)

end Sys2Proof.Machine
end

