-- ==== Sys2Proof/Machine/Ops.lean ====
section
/-! DEFINITION. The named operations on the state: buffer memory (spec/20_memory.md R60 to R70), one
update per field, how a command fails (spec/60_exceptions.md R251, R258) and how it completes, and
reset (spec/70_reset_and_hazards.md R280). An error is a result, not a trap: nothing is saved, no
vector is taken, and there is no return from it (R258, R259). -/

namespace Sys2Proof.Machine

/-- The byte at an address (R60, R70). -/
def Memory.read : Memory → Nat → Byte
  | [], _ => Config.unwrittenByte
  | (k, v) :: m, a => if k = a then v else Memory.read m a

/-- The memory without the address `a` listed. -/
def Memory.erase (m : Memory) (a : Nat) : Memory := m.filter fun c => c.1 != a

/-- The memory with the byte `v` listed at `a`, in its place by address. -/
def Memory.insert : Memory → Nat → Byte → Memory
  | [], a, v => [(a, v)]
  | (k, w) :: m, a, v =>
    if k < a then (k, w) :: Memory.insert m a v
    else if k = a then (a, v) :: m
    else (a, v) :: (k, w) :: m

/-- Put one byte (R70). Writing what an unlisted address reads as takes the address off the list, so
that equal contents are equal lists. -/
def Memory.write (m : Memory) (a : Nat) (v : Byte) : Memory :=
  if v = Config.unwrittenByte then Memory.erase m a else Memory.insert m a v

/-- The canonical form: addresses strictly rising, and no byte listed that an unlisted address would
read as. -/
abbrev Memory.wf (m : Memory) : Prop :=
  m.Pairwise (fun c d => c.1 < d.1) ∧ ∀ c ∈ m, c.2 ≠ Config.unwrittenByte

/-- `MemRead(a, n)`: the bytes at `a`, ..., `a+n-1` (R9, R62). -/
def Memory.readBytes (m : Memory) : (a n : Nat) → List Byte
  | _, 0 => []
  | a, n + 1 => Memory.read m a :: Memory.readBytes m (a + 1) n

/-- `MemWrite(a, n, v)`: the bytes of `v` to `a`, `a+1`, ... (R9, R62). -/
def Memory.writeBytes (m : Memory) : Nat → List Byte → Memory
  | _, [] => m
  | a, b :: bs => Memory.writeBytes (Memory.write m a b) (a + 1) bs

/-- One update per field of the state. -/
def State.setRegs (s : State) (r : OperandRegs) : State := { s with regs := r }

def State.setCmd (s : State) (w : CommandWord) : State := { s with cmd := w }

def State.setResult (s : State) (r : ResultCode) : State := { s with result := r }

def State.setAes (s : State) (a : AesSlot) : State := { s with aes := a }

def State.setCbc (s : State) (c : CbcSlot) : State := { s with cbc := c }

def State.setCtr (s : State) (c : CtrSlot) : State := { s with ctr := c }

def State.setOfb (s : State) (o : OfbSlot) : State := { s with ofb := o }

def State.setMem (s : State) (m : Memory) : State := { s with mem := m }

def State.setScript (s : State) (h : List HostStep) : State := { s with script := h }

def State.setReply (s : State) (r : HostReply) : State := { s with reply := r }

/-- `MemRead(a, n)` of the buffer memory (R9). -/
def State.memRead (s : State) (a n : Nat) : List Byte := Memory.readBytes s.mem a n

/-- `MemWrite(a, n, v)` of the buffer memory (R9). -/
def State.memWrite (s : State) (a : Nat) (bs : List Byte) : State :=
  s.setMem (Memory.writeBytes s.mem a bs)

/-- `raise <Error>`: the command ends with `STATUS.RESULT` set to the error's code and no other change
(R9, R258). This is all that "taking an exception" is on this hardware. -/
def raise (e : ResultCode) (s : State) : State := s.setResult e

/-- A command that does not raise ends with `STATUS.RESULT <- 0` (R27, 41_aes_commands.md). -/
def complete (s : State) : State := s.setResult .ok

/-- A check of a command: whether it passes, and the error when it does not. -/
structure Check where
  passes : Bool
  error : ResultCode
  deriving DecidableEq, Repr

/-- The first check that fails, in the order given; later checks are not evaluated (R251). -/
def firstFailure : List Check → Option ResultCode
  | [] => none
  | c :: cs => if c.passes then firstFailure cs else some c.error

/-- A command: all its checks first, in the order of R251; the operation only when all pass
(R67, R251, R258). Every command answers a next state (R262). -/
def runCommand (checks : List Check) (operation : State → State) (s : State) :
    Host.Outcome State Fault Refusal :=
  match firstFailure checks with
  | some e => .next (raise e s)
  | none => .next (complete (operation s))

/-- Reset puts every piece of state but the buffer memory into its reset value (R280, R41); the
parameter `MEM_BYTES` and what is the host's own stay (log entry 10). -/
def State.applyReset (s : State) : State :=
  { State.reset with mem := s.mem, memBytes := s.memBytes, script := s.script, reply := s.reply }

end Sys2Proof.Machine
end

