-- ==== Sys2Proof/Machine/Operands.lean ====
section
/-! DEFINITION. The operands of commands: operand registers by number (spec/10_state.md R21,
spec/20_memory.md R60), memory ranges, admission and overlap (spec/20_memory.md R65, R66, R68), and
the checks of spec/60_exceptions.md R251 built from them. -/

namespace Sys2Proof.Machine

/-- The operand registers by alias (R21). -/
inductive Reg where
  | src | src2 | dst | len | keya | iva | idx
  deriving DecidableEq, Repr

/-- Reading an operand register (R9). -/
def OperandRegs.get (x : OperandRegs) : Reg → Word64
  | .src => x.src
  | .src2 => x.src2
  | .dst => x.dst
  | .len => x.len
  | .keya => x.keya
  | .iva => x.iva
  | .idx => x.idx

/-- Writing an operand register (R9). -/
def OperandRegs.set (x : OperandRegs) (r : Reg) (v : Word64) : OperandRegs :=
  match r with
  | .src => { x with src := v }
  | .src2 => { x with src2 := v }
  | .dst => { x with dst := v }
  | .len => { x with len := v }
  | .keya => { x with keya := v }
  | .iva => { x with iva := v }
  | .idx => { x with idx := v }

/-- The register numbers of `x0` to `x6`: 0x10 to 0x16 (R21). -/
def Reg.ofNumber? : Nat → Option Reg
  | 0x10 => some .src
  | 0x11 => some .src2
  | 0x12 => some .dst
  | 0x13 => some .len
  | 0x14 => some .keya
  | 0x15 => some .iva
  | 0x16 => some .idx
  | _ => none

/-- A memory range `[addr, size)`: `size` bytes from `addr` on (R65). -/
structure Range where
  addr : Nat
  size : Nat
  deriving DecidableEq, Repr

/-- The values of the operand registers as natural numbers (R6, R20). -/
def State.srcAddr (s : State) : Nat := s.regs.src.toNat

def State.src2Addr (s : State) : Nat := s.regs.src2.toNat

def State.dstAddr (s : State) : Nat := s.regs.dst.toNat

def State.dataLen (s : State) : Nat := s.regs.len.toNat

def State.keyAddr (s : State) : Nat := s.regs.keya.toNat

def State.ivAddr (s : State) : Nat := s.regs.iva.toNat

/-- The ranges of R65. -/
def keyRange (s : State) (ksz : Nat) : Range := ⟨s.keyAddr, ksz⟩

def ivRange (s : State) (n : Nat) : Range := ⟨s.ivAddr, n⟩

def srcRange (s : State) (n : Nat) : Range := ⟨s.srcAddr, n⟩

def src2Range (s : State) (n : Nat) : Range := ⟨s.src2Addr, n⟩

def dstRange (s : State) (n : Nat) : Range := ⟨s.dstAddr, n⟩

/-- The bytes the key, the IV and the buffers hold (R65). -/
def State.keyBytes (s : State) (ksz : Nat) : List Byte := s.memRead s.keyAddr ksz

def State.ivBlock (s : State) : Block := Block.ofList (s.memRead s.ivAddr Config.blockBytes)

def State.nonce (s : State) : Block8 := Block8.ofList (s.memRead s.ivAddr Config.nonceBytes)

def State.srcBlock (s : State) : Block := Block.ofList (s.memRead s.srcAddr Config.blockBytes)

def State.srcData (s : State) : List Byte := s.memRead s.srcAddr s.dataLen

def State.src2Data (s : State) : List Byte := s.memRead s.src2Addr s.dataLen

/-- A range is admitted when `a + n <= MEM_BYTES` in natural numbers (R66). -/
def admitted (s : State) (r : Range) : Bool := decide (r.addr + r.size ≤ s.memBytes)

/-- An input range and an output range of one length overlap partially (R68). -/
def overlapsPartially (src dst n : Nat) : Bool :=
  decide (src ≠ dst ∧ src < dst + n ∧ dst < src + n)

/-- Check 2 of R251: `CMD.KSZ` is 16, 24 or 32 (R253). -/
def keySizeCheck (ksz : Nat) : Check := ⟨Config.keySizes.contains ksz, .invalidKeySize⟩

/-- Check 3 of R251: the needed slot's valid flag is 1 (R254). -/
def contextCheck (valid : Bool) : Check := ⟨valid, .noContext⟩

/-- Check 4 of R251: `x[LEN] mod 16 = 0` (R255). -/
def alignCheck (s : State) : Check :=
  ⟨decide (s.dataLen % Config.blockBytes = 0), .sizeNotBlockAligned⟩

/-- Check 5 of R251: every range of the command is admitted (R256). -/
def accessCheck (s : State) (rs : List Range) : Check := ⟨rs.all (admitted s), .accessFault⟩

/-- Check 6 of R251: the pair (`src`, `dst`) does not overlap partially (R257). -/
def overlapCheck (src dst n : Nat) : Check := ⟨!overlapsPartially src dst n, .overlapFault⟩

end Sys2Proof.Machine
end

