-- ==== Sys2Proof/Machine/AesCommands.lean ====
section
/-! DEFINITION. The commands of the AES core (spec/41_aes_commands.md R160 to R163). -/

namespace Sys2Proof.Machine

/-- `AES_INIT` (R160). -/
def execAesInit (ksz : Nat) (s : State) : Host.Outcome State Fault Refusal :=
  runCommand [keySizeCheck ksz, accessCheck s [keyRange s ksz]]
    (fun s => s.setAes ⟨true, expand (s.keyBytes ksz)⟩) s

/-- The checks of the two block commands (R161, R162). -/
def blockChecks (s : State) : List Check :=
  [contextCheck s.aes.valid,
   accessCheck s [srcRange s Config.blockBytes, dstRange s Config.blockBytes],
   overlapCheck s.srcAddr s.dstAddr Config.blockBytes]

/-- `AES_ENCRYPT` (R161). -/
def execAesEncrypt (s : State) : Host.Outcome State Fault Refusal :=
  runCommand (blockChecks s) (fun s => s.memWrite s.dstAddr (aesE s.aes.ctx s.srcBlock).toList) s

/-- `AES_DECRYPT` (R162). -/
def execAesDecrypt (s : State) : Host.Outcome State Fault Refusal :=
  runCommand (blockChecks s) (fun s => s.memWrite s.dstAddr (aesD s.aes.ctx s.srcBlock).toList) s

/-- `XOR_BUF` (R163): the two inputs may overlap each other in any way (R68). -/
def execXorBuf (s : State) : Host.Outcome State Fault Refusal :=
  runCommand
    [accessCheck s [srcRange s s.dataLen, src2Range s s.dataLen, dstRange s s.dataLen],
     overlapCheck s.srcAddr s.dstAddr s.dataLen,
     overlapCheck s.src2Addr s.dstAddr s.dataLen]
    (fun s => s.memWrite s.dstAddr (xorBytes s.srcData s.src2Data)) s

end Sys2Proof.Machine
end

