-- ==== Sys2Proof/Machine/CbcCommands.lean ====
section
/-! DEFINITION. The CBC mode controller: its two functions and six commands (spec/42_cbc.md R180 to
R187). -/

namespace Sys2Proof.Machine

/-- `CbcEncrypt` on blocks: each output block is the next chaining value (R186). -/
def cbcEncryptBlocks (ctx : CipherCtx) : Block → List Block → List Block × Block
  | prev, [] => ([], prev)
  | prev, p :: ps =>
    let c := aesE ctx (prev.xor p)
    let r := cbcEncryptBlocks ctx c ps
    (c :: r.1, r.2)

/-- `CbcDecrypt` on blocks: the next chaining value is the ciphertext block read (R187). -/
def cbcDecryptBlocks (ctx : CipherCtx) : Block → List Block → List Block × Block
  | prev, [] => ([], prev)
  | prev, c :: cs =>
    let p := (aesD ctx c).xor prev
    let r := cbcDecryptBlocks ctx c cs
    (p :: r.1, r.2)

/-- A transform of blocks on a buffer of whole blocks (R186, R187). -/
def onBlocks (f : List Block → List Block × Block) (data : List Byte) : List Byte × Block :=
  let r := f (blocksOf (data.length / 16) data)
  (bytesOfBlocks r.1, r.2)

/-- `CbcEncrypt(ctx, prev, data)` (R186). -/
def cbcEncrypt (ctx : CipherCtx) (prev : Block) (data : List Byte) : List Byte × Block :=
  onBlocks (cbcEncryptBlocks ctx prev) data

/-- `CbcDecrypt(ctx, prev, data)` (R187). -/
def cbcDecrypt (ctx : CipherCtx) (prev : Block) (data : List Byte) : List Byte × Block :=
  onBlocks (cbcDecryptBlocks ctx prev) data

/-- The CBC state that initialisation builds from a context and an IV (R180, R181). -/
def cbcInitSlot (ctx : CipherCtx) (iv : Block) : CbcSlot := ⟨true, ctx, iv⟩

/-- `CBC_INIT` (R180). -/
def execCbcInit (s : State) : Host.Outcome State Fault Refusal :=
  runCommand [contextCheck s.aes.valid, accessCheck s [ivRange s Config.blockBytes]]
    (fun s => s.setCbc (cbcInitSlot s.aes.ctx s.ivBlock)) s

/-- `CBC_INIT_WITH_KEY` (R181). -/
def execCbcInitWithKey (ksz : Nat) (s : State) : Host.Outcome State Fault Refusal :=
  runCommand [keySizeCheck ksz, accessCheck s [keyRange s ksz, ivRange s Config.blockBytes]]
    (fun s => s.setCbc (cbcInitSlot (expand (s.keyBytes ksz)) s.ivBlock)) s

/-- The checks of the two streaming transforms (R182, R183). -/
def cbcChecks (s : State) : List Check :=
  [contextCheck s.cbc.valid, alignCheck s,
   accessCheck s [srcRange s s.dataLen, dstRange s s.dataLen],
   overlapCheck s.srcAddr s.dstAddr s.dataLen]

/-- `CBC_ENCRYPT` (R182). -/
def execCbcEncrypt (s : State) : Host.Outcome State Fault Refusal :=
  runCommand (cbcChecks s)
    (fun s =>
      let r := cbcEncrypt s.cbc.ctx s.cbc.prev s.srcData
      (s.memWrite s.dstAddr r.1).setCbc { s.cbc with prev := r.2 }) s

/-- `CBC_DECRYPT` (R183). -/
def execCbcDecrypt (s : State) : Host.Outcome State Fault Refusal :=
  runCommand (cbcChecks s)
    (fun s =>
      let r := cbcDecrypt s.cbc.ctx s.cbc.prev s.srcData
      (s.memWrite s.dstAddr r.1).setCbc { s.cbc with prev := r.2 }) s

/-- The checks of the two one-shot transforms (R184, R185). -/
def cbcOneShotChecks (ksz : Nat) (s : State) : List Check :=
  [keySizeCheck ksz, alignCheck s,
   accessCheck s
     [keyRange s ksz, ivRange s Config.blockBytes, srcRange s s.dataLen, dstRange s s.dataLen],
   overlapCheck s.srcAddr s.dstAddr s.dataLen]

/-- `CBC_ENCRYPT_WITH_KEY` (R184): the CBC state is scratch, no slot is touched (R39). -/
def execCbcEncryptWithKey (ksz : Nat) (s : State) : Host.Outcome State Fault Refusal :=
  runCommand (cbcOneShotChecks ksz s)
    (fun s =>
      s.memWrite s.dstAddr (cbcEncrypt (expand (s.keyBytes ksz)) s.ivBlock s.srcData).1) s

/-- `CBC_DECRYPT_WITH_KEY` (R185): the CBC state is scratch, no slot is touched (R39). -/
def execCbcDecryptWithKey (ksz : Nat) (s : State) : Host.Outcome State Fault Refusal :=
  runCommand (cbcOneShotChecks ksz s)
    (fun s =>
      s.memWrite s.dstAddr (cbcDecrypt (expand (s.keyBytes ksz)) s.ivBlock s.srcData).1) s

end Sys2Proof.Machine
end

