-- ==== Sys2Proof/Machine/CtrCommands.lean ====
section
/-! DEFINITION. The CTR mode controller: its functions and six commands (spec/43_ctr.md R200 to R209). -/

namespace Sys2Proof.Machine

/-- The keystream block `KB(ctx, iv, j) = E(ctx, iv ‖ be64(j))` (R206). -/
def ctrBlock (ctx : CipherCtx) (iv : Block8) (j : Word64) : Block :=
  aesE ctx (iv.append (be64 j))

/-- The block index of a stream index: `idx div 16` (R206). -/
def blockIndex (idx : Word64) : Word64 := idx >>> 4

/-- `CtrSeek(state, idx)`: the cache is made again only when the block changes (R207). -/
def ctrSeek (c : CtrSlot) (idx : Word64) : CtrSlot :=
  let nb := blockIndex idx
  if nb = c.bidx then { c with sidx := idx }
  else { c with sidx := idx, bidx := nb, ks := ctrBlock c.ctx c.iv nb }

/-- `CtrXor(state, data)`: one byte at a time, the index modulo `2^64` (R208, R209). -/
def ctrXor : CtrSlot → List Byte → List Byte × CtrSlot
  | c, [] => ([], c)
  | c, d :: ds =>
    let out := d ^^^ c.ks.byte (c.sidx.toNat % 16)
    let r := ctrXor (ctrSeek c (c.sidx + 1)) ds
    (out :: r.1, r.2)

/-- The CTR state that initialisation builds: index 0, the first keystream block made at once (R200,
R201). -/
def ctrInitSlot (ctx : CipherCtx) (iv : Block8) : CtrSlot :=
  ⟨true, ctx, iv, 0, 0, ctrBlock ctx iv 0⟩

/-- `CTR_INIT` (R200). -/
def execCtrInit (s : State) : Host.Outcome State Fault Refusal :=
  runCommand [contextCheck s.aes.valid, accessCheck s [ivRange s Config.nonceBytes]]
    (fun s => s.setCtr (ctrInitSlot s.aes.ctx s.nonce)) s

/-- `CTR_INIT_WITH_KEY` (R201). -/
def execCtrInitWithKey (ksz : Nat) (s : State) : Host.Outcome State Fault Refusal :=
  runCommand [keySizeCheck ksz, accessCheck s [keyRange s ksz, ivRange s Config.nonceBytes]]
    (fun s => s.setCtr (ctrInitSlot (expand (s.keyBytes ksz)) s.nonce)) s

/-- `CTR_SET_STREAM_INDEX` (R202). -/
def execCtrSetStreamIndex (s : State) : Host.Outcome State Fault Refusal :=
  runCommand [contextCheck s.ctr.valid] (fun s => s.setCtr (ctrSeek s.ctr s.regs.idx)) s

/-- `CTR_XOR` (R203). -/
def execCtrXor (s : State) : Host.Outcome State Fault Refusal :=
  runCommand
    [contextCheck s.ctr.valid, accessCheck s [srcRange s s.dataLen, dstRange s s.dataLen],
     overlapCheck s.srcAddr s.dstAddr s.dataLen]
    (fun s =>
      let r := ctrXor s.ctr s.srcData
      (s.memWrite s.dstAddr r.1).setCtr r.2) s

/-- `CTR_OUTPUT` (R204): the transform of `x[LEN]` zero bytes. -/
def execCtrOutput (s : State) : Host.Outcome State Fault Refusal :=
  runCommand [contextCheck s.ctr.valid, accessCheck s [dstRange s s.dataLen]]
    (fun s =>
      let r := ctrXor s.ctr (List.replicate s.dataLen 0)
      (s.memWrite s.dstAddr r.1).setCtr r.2) s

/-- `CTR_XOR_WITH_KEY` (R205): the CTR state is scratch and starts at index 0 (R39). -/
def execCtrXorWithKey (ksz : Nat) (s : State) : Host.Outcome State Fault Refusal :=
  runCommand
    [keySizeCheck ksz,
     accessCheck s
       [keyRange s ksz, ivRange s Config.nonceBytes, srcRange s s.dataLen, dstRange s s.dataLen],
     overlapCheck s.srcAddr s.dstAddr s.dataLen]
    (fun s =>
      s.memWrite s.dstAddr (ctrXor (ctrInitSlot (expand (s.keyBytes ksz)) s.nonce) s.srcData).1) s

end Sys2Proof.Machine
end

