-- ==== Sys2Proof/Machine/OfbCommands.lean ====
section
/-! DEFINITION. The OFB mode controller: its function and five commands (spec/44_ofb.md R220 to R226).
The keystream block is made again lazily, before the next byte (log entry 5). -/

namespace Sys2Proof.Machine

/-- The state before a byte is used: an exhausted block (`OFF = 16`) is encrypted again (R226). -/
def ofbRefill (o : OfbSlot) : OfbSlot :=
  if o.off = 16 then { o with ks := aesE o.ctx o.ks, off := 0 } else o

/-- `OFF <- OFF + 1`, after a byte of the block is used (R226). -/
def ofbAdvance (o : OfbSlot) : OfbSlot := { o with off := Fin.ofNat 17 (o.off.val + 1) }

/-- `OfbXor(state, data)`, one byte at a time (R226). -/
def ofbXor : OfbSlot → List Byte → List Byte × OfbSlot
  | o, [] => ([], o)
  | o, d :: ds =>
    let o' := ofbRefill o
    let out := d ^^^ o'.ks.byte o'.off.val
    let r := ofbXor (ofbAdvance o') ds
    (out :: r.1, r.2)

/-- The OFB state that initialisation builds (R220, R221). -/
def ofbInitSlot (ctx : CipherCtx) (iv : Block) : OfbSlot := ⟨true, ctx, aesE ctx iv, 0⟩

/-- `OFB_INIT` (R220). -/
def execOfbInit (s : State) : Host.Outcome State Fault Refusal :=
  runCommand [contextCheck s.aes.valid, accessCheck s [ivRange s Config.blockBytes]]
    (fun s => s.setOfb (ofbInitSlot s.aes.ctx s.ivBlock)) s

/-- `OFB_INIT_WITH_KEY` (R221). -/
def execOfbInitWithKey (ksz : Nat) (s : State) : Host.Outcome State Fault Refusal :=
  runCommand [keySizeCheck ksz, accessCheck s [keyRange s ksz, ivRange s Config.blockBytes]]
    (fun s => s.setOfb (ofbInitSlot (expand (s.keyBytes ksz)) s.ivBlock)) s

/-- `OFB_XOR` (R222). -/
def execOfbXor (s : State) : Host.Outcome State Fault Refusal :=
  runCommand
    [contextCheck s.ofb.valid, accessCheck s [srcRange s s.dataLen, dstRange s s.dataLen],
     overlapCheck s.srcAddr s.dstAddr s.dataLen]
    (fun s =>
      let r := ofbXor s.ofb s.srcData
      (s.memWrite s.dstAddr r.1).setOfb r.2) s

/-- `OFB_OUTPUT` (R223): the transform of `x[LEN]` zero bytes. -/
def execOfbOutput (s : State) : Host.Outcome State Fault Refusal :=
  runCommand [contextCheck s.ofb.valid, accessCheck s [dstRange s s.dataLen]]
    (fun s =>
      let r := ofbXor s.ofb (List.replicate s.dataLen 0)
      (s.memWrite s.dstAddr r.1).setOfb r.2) s

/-- `OFB_XOR_WITH_KEY` (R224): the OFB state is scratch and starts at the IV (R39). -/
def execOfbXorWithKey (ksz : Nat) (s : State) : Host.Outcome State Fault Refusal :=
  runCommand
    [keySizeCheck ksz,
     accessCheck s
       [keyRange s ksz, ivRange s Config.blockBytes, srcRange s s.dataLen, dstRange s s.dataLen],
     overlapCheck s.srcAddr s.dstAddr s.dataLen]
    (fun s =>
      s.memWrite s.dstAddr (ofbXor (ofbInitSlot (expand (s.keyBytes ksz)) s.ivBlock) s.srcData).1) s

end Sys2Proof.Machine
end

