-- ==== Sys2Proof/Machine/SystemCommands.lean ====
section
/-! DEFINITION. `ZEROIZE` (spec/45_system.md R240) and the execution of an illegal command word
(spec/30_encoding.md R96, spec/60_exceptions.md R252). -/

namespace Sys2Proof.Machine

/-- `ZEROIZE`: bit 0 of `SEL` AES, bit 1 CBC, bit 2 CTR, bit 3 OFB (R93, R240). It has no check. -/
def execZeroize (sel : BitVec 4) (s : State) : Host.Outcome State Fault Refusal :=
  runCommand []
    (fun s =>
      { s with
        aes := if sel.getLsbD 0 then AesSlot.zeroed else s.aes
        cbc := if sel.getLsbD 1 then CbcSlot.zeroed else s.cbc
        ctr := if sel.getLsbD 2 then CtrSlot.zeroed else s.ctr
        ofb := if sel.getLsbD 3 then OfbSlot.zeroed else s.ofb }) s

/-- An illegal command word: `STATUS.RESULT <- 4` and nothing else changes (R96). -/
def execIllegal (s : State) : Host.Outcome State Fault Refusal :=
  .next (raise .illegalCommand s)

end Sys2Proof.Machine
end

