-- ==== Sys2Proof/Machine/Dispatch.lean ====
section
/-! DEFINITION. The execution of a legal command: one arm per row of spec/opcode_table.json. -/

namespace Sys2Proof.Machine

def exec (i : Instr) (s : State) : Host.Outcome State Fault Refusal :=
  match i with
  | .aesInit ksz => Sys2Proof.Machine.execAesInit ksz s
  | .aesEncrypt => Sys2Proof.Machine.execAesEncrypt s
  | .aesDecrypt => Sys2Proof.Machine.execAesDecrypt s
  | .xorBuf => Sys2Proof.Machine.execXorBuf s
  | .cbcInit => Sys2Proof.Machine.execCbcInit s
  | .cbcInitWithKey ksz => Sys2Proof.Machine.execCbcInitWithKey ksz s
  | .cbcEncrypt => Sys2Proof.Machine.execCbcEncrypt s
  | .cbcDecrypt => Sys2Proof.Machine.execCbcDecrypt s
  | .cbcEncryptWithKey ksz => Sys2Proof.Machine.execCbcEncryptWithKey ksz s
  | .cbcDecryptWithKey ksz => Sys2Proof.Machine.execCbcDecryptWithKey ksz s
  | .ctrInit => Sys2Proof.Machine.execCtrInit s
  | .ctrInitWithKey ksz => Sys2Proof.Machine.execCtrInitWithKey ksz s
  | .ctrSetStreamIndex => Sys2Proof.Machine.execCtrSetStreamIndex s
  | .ctrXor => Sys2Proof.Machine.execCtrXor s
  | .ctrOutput => Sys2Proof.Machine.execCtrOutput s
  | .ctrXorWithKey ksz => Sys2Proof.Machine.execCtrXorWithKey ksz s
  | .ofbInit => Sys2Proof.Machine.execOfbInit s
  | .ofbInitWithKey ksz => Sys2Proof.Machine.execOfbInitWithKey ksz s
  | .ofbXor => Sys2Proof.Machine.execOfbXor s
  | .ofbOutput => Sys2Proof.Machine.execOfbOutput s
  | .ofbXorWithKey ksz => Sys2Proof.Machine.execOfbXorWithKey ksz s
  | .zeroize sel => Sys2Proof.Machine.execZeroize sel s

end Sys2Proof.Machine
end

