-- ==== Sys2Proof/Machine/HostSteps.lean ====
section
/-! DEFINITION. The steps of the host agent (spec/45_system.md R245 to R248): register access, with the
write to `CMD` that runs a command (spec/10_state.md R24), buffer-memory access and reset. -/

namespace Sys2Proof.Machine

/-- A write of `w` to `CMD`: the word is stored, then the command it encodes runs, legal or not
(R24, R95, R96). -/
def runWord (w : CommandWord) (s : State) : Host.Outcome State Fault Refusal :=
  match decode w with
  | .ok i => exec i (s.setCmd w)
  | .error _ => execIllegal (s.setCmd w)

/-- `RegWrite(n, v)` (R245): `CMD` runs a command, `STATUS` and numbers that name no register ignore
the write (R25, R28). -/
def hostRegWrite (n : Nat) (v : Word64) (s : State) : Host.Outcome State Fault Refusal :=
  if n = 0x00 then runWord (v.setWidth 32) s
  else
    match Reg.ofNumber? n with
    | some r => .next (s.setRegs (s.regs.set r v))
    | none => .next s

/-- The value `RegRead(n)` returns (R246): 32-bit registers are zero-extended, numbers that name no
register read 0 (R28). -/
def regReadValue (n : Nat) (s : State) : Word64 :=
  if n = 0x00 then s.cmd.setWidth 64
  else if n = 0x01 then (statusWord s).setWidth 64
  else
    match Reg.ofNumber? n with
    | some r => s.regs.get r
    | none => 0

/-- `RegRead(n)`: no side effect on the hardware; the host has the value (R246). -/
def hostRegRead (n : Nat) (s : State) : Host.Outcome State Fault Refusal :=
  .next (s.setReply (.value (regReadValue n s)))

/-- A host access is defined only for an admitted range, of a length below `2^64` (R66, R247). -/
def hostRangeOk (s : State) (a n : Nat) : Bool := decide (n < 2 ^ 64) && admitted s ⟨a, n⟩

/-- `HostMemWrite(a, bytes)` (R247). -/
def hostMemWrite (a : Word64) (bytes : List Byte) (s : State) :
    Host.Outcome State Fault Refusal :=
  if hostRangeOk s a.toNat bytes.length then .next (s.memWrite a.toNat bytes)
  else .refused .hostRangeNotAdmitted

/-- `HostMemRead(a, n)` (R247). -/
def hostMemRead (a n : Word64) (s : State) : Host.Outcome State Fault Refusal :=
  if hostRangeOk s a.toNat n.toNat then .next (s.setReply (.bytes (s.memRead a.toNat n.toNat)))
  else .refused .hostRangeNotAdmitted

/-- One step of the host (R248); reset comes between commands (R280). -/
def hostStep (h : HostStep) (s : State) : Host.Outcome State Fault Refusal :=
  match h with
  | .regWrite n v => hostRegWrite n v s
  | .regRead n => hostRegRead n s
  | .memWrite a bytes => hostMemWrite a bytes s
  | .memRead a n => hostMemRead a n s
  | .reset => .next s.applyReset

/-- The machine's next move: the oldest pending host step is taken from the script and runs to
completion (R72, R73). With none pending the core is idle (R265, log entry 1). -/
def advance (s : State) : Host.Outcome State Fault Refusal :=
  match s.script with
  | [] => .next s
  | h :: hs => hostStep h (s.setScript hs)

/-- The host's next step is the write of the command word `w` (of `nbits` bits) to `CMD`. -/
def pendCommand (s : State) (nbits w : Nat) : State :=
  s.setScript (.regWrite 0x00 (BitVec.ofNat 64 (w % 2 ^ nbits)) :: s.script)

end Sys2Proof.Machine
end

