-- ==== Sys2Proof/Machine/Step.lean ====
section
/-! DEFINITION. One step of the machine, and the state whose next step runs a given command word. The
hardware has no program counter and no fetch (spec/10_state.md R23): commands come from the host's
writes to `CMD`, which stand in `State.script`. -/

namespace Sys2Proof.Machine

/-- One step: the next move of the host, with the command it starts, if any (R11, R72). -/
def step (s : State) : Host.Outcome State Fault Refusal := advance s

/-- `s` with the command word `w` as the next word the host writes to `CMD` (log entry 1). -/
def State.withFetchWord (s : State) (nbits w : Nat) : State := pendCommand s nbits w

end Sys2Proof.Machine
end

