-- ==== Sys2Proof/Safety.lean ====
section
/-! DEFINITION. The terms in which claims are stated: which registers and ranges each command uses
(spec/20_memory.md R65, R68, spec/30_encoding.md R94), the result it gives (spec/60_exceptions.md
R251), the keystreams (spec/43_ctr.md R206, spec/44_ofb.md R225), and the invariants of the state. The
machine itself uses none of them. -/

namespace Sys2Proof.Safety

open Sys2Proof.Machine

/-- A key size of R253. -/
abbrev LegalKeySize (n : Nat) : Prop := n = 16 ∨ n = 24 ∨ n = 32

/-- The pair of ranges `[a, n)` and `[b, n)` is permitted: the same, or disjoint (R68). -/
abbrev AliasOk (a b n : Nat) : Prop := a = b ∨ a + n ≤ b ∨ b + n ≤ a

/-- The range `[a, n)` is admitted (R66). -/
abbrev Admitted (s : State) (a n : Nat) : Prop := a + n ≤ s.memBytes

/-- Byte at address `x` of the buffer memory. -/
def byteAt (s : State) (x : Nat) : Byte := Memory.read s.mem x

/-- Every byte of memory outside `[a, n)` reads in `t` as it read in `s`. -/
def SameOutside (s t : State) (a n : Nat) : Prop :=
  ∀ x, ¬ (a ≤ x ∧ x < a + n) → byteAt t x = byteAt s x

/-- `t` holds the bytes `bs` at `a`, and every other byte of memory as `s` holds it. -/
def Stores (s t : State) (a : Nat) (bs : List Byte) : Prop :=
  t.memRead a bs.length = bs ∧ SameOutside s t a bs.length

/-- `t` is `s` but for the buffer memory and a result of `OK`: the frame of a command that stores. -/
def OnlyMemory (s t : State) : Prop := t = (s.setMem t.mem).setResult .ok

/-- The operand registers each command reads (R94). -/
def readsReg : Instr → Reg → Bool
  | .aesInit _, r => r = .keya
  | .aesEncrypt, r => r = .src || r = .dst
  | .aesDecrypt, r => r = .src || r = .dst
  | .xorBuf, r => r = .src || r = .src2 || r = .dst || r = .len
  | .cbcInit, r => r = .iva
  | .cbcInitWithKey _, r => r = .keya || r = .iva
  | .cbcEncrypt, r => r = .src || r = .dst || r = .len
  | .cbcDecrypt, r => r = .src || r = .dst || r = .len
  | .cbcEncryptWithKey _, r => r = .keya || r = .iva || r = .src || r = .dst || r = .len
  | .cbcDecryptWithKey _, r => r = .keya || r = .iva || r = .src || r = .dst || r = .len
  | .ctrInit, r => r = .iva
  | .ctrInitWithKey _, r => r = .keya || r = .iva
  | .ctrSetStreamIndex, r => r = .idx
  | .ctrXor, r => r = .src || r = .dst || r = .len
  | .ctrOutput, r => r = .dst || r = .len
  | .ctrXorWithKey _, r => r = .keya || r = .iva || r = .src || r = .dst || r = .len
  | .ofbInit, r => r = .iva
  | .ofbInitWithKey _, r => r = .keya || r = .iva
  | .ofbXor, r => r = .src || r = .dst || r = .len
  | .ofbOutput, r => r = .dst || r = .len
  | .ofbXorWithKey _, r => r = .keya || r = .iva || r = .src || r = .dst || r = .len
  | .zeroize _, _ => false

/-- The ranges each command reads (R65). -/
def inputRanges (s : State) : Instr → List Range
  | .aesInit k => [⟨s.keyAddr, k⟩]
  | .aesEncrypt => [⟨s.srcAddr, 16⟩]
  | .aesDecrypt => [⟨s.srcAddr, 16⟩]
  | .xorBuf => [⟨s.srcAddr, s.dataLen⟩, ⟨s.src2Addr, s.dataLen⟩]
  | .cbcInit => [⟨s.ivAddr, 16⟩]
  | .cbcInitWithKey k => [⟨s.keyAddr, k⟩, ⟨s.ivAddr, 16⟩]
  | .cbcEncrypt => [⟨s.srcAddr, s.dataLen⟩]
  | .cbcDecrypt => [⟨s.srcAddr, s.dataLen⟩]
  | .cbcEncryptWithKey k => [⟨s.keyAddr, k⟩, ⟨s.ivAddr, 16⟩, ⟨s.srcAddr, s.dataLen⟩]
  | .cbcDecryptWithKey k => [⟨s.keyAddr, k⟩, ⟨s.ivAddr, 16⟩, ⟨s.srcAddr, s.dataLen⟩]
  | .ctrInit => [⟨s.ivAddr, 8⟩]
  | .ctrInitWithKey k => [⟨s.keyAddr, k⟩, ⟨s.ivAddr, 8⟩]
  | .ctrSetStreamIndex => []
  | .ctrXor => [⟨s.srcAddr, s.dataLen⟩]
  | .ctrOutput => []
  | .ctrXorWithKey k => [⟨s.keyAddr, k⟩, ⟨s.ivAddr, 8⟩, ⟨s.srcAddr, s.dataLen⟩]
  | .ofbInit => [⟨s.ivAddr, 16⟩]
  | .ofbInitWithKey k => [⟨s.keyAddr, k⟩, ⟨s.ivAddr, 16⟩]
  | .ofbXor => [⟨s.srcAddr, s.dataLen⟩]
  | .ofbOutput => []
  | .ofbXorWithKey k => [⟨s.keyAddr, k⟩, ⟨s.ivAddr, 16⟩, ⟨s.srcAddr, s.dataLen⟩]
  | .zeroize _ => []

/-- The size of the range each command writes at `x[DST]`; none for a command that writes no memory
(R65). -/
def outputSize (s : State) : Instr → Option Nat
  | .aesInit _ => none
  | .aesEncrypt => some 16
  | .aesDecrypt => some 16
  | .xorBuf => some s.dataLen
  | .cbcInit => none
  | .cbcInitWithKey _ => none
  | .cbcEncrypt => some s.dataLen
  | .cbcDecrypt => some s.dataLen
  | .cbcEncryptWithKey _ => some s.dataLen
  | .cbcDecryptWithKey _ => some s.dataLen
  | .ctrInit => none
  | .ctrInitWithKey _ => none
  | .ctrSetStreamIndex => none
  | .ctrXor => some s.dataLen
  | .ctrOutput => some s.dataLen
  | .ctrXorWithKey _ => some s.dataLen
  | .ofbInit => none
  | .ofbInitWithKey _ => none
  | .ofbXor => some s.dataLen
  | .ofbOutput => some s.dataLen
  | .ofbXorWithKey _ => some s.dataLen
  | .zeroize _ => none

/-- The range each command writes, if any (R65). -/
def outputRanges (s : State) (i : Instr) : List Range :=
  ((outputSize s i).map fun n => (⟨s.dstAddr, n⟩ : Range)).toList

/-- The addresses of the input ranges that must not overlap the output range partially (R68). -/
def testedInputs (s : State) : Instr → List Nat
  | .aesInit _ => []
  | .aesEncrypt => [s.srcAddr]
  | .aesDecrypt => [s.srcAddr]
  | .xorBuf => [s.srcAddr, s.src2Addr]
  | .cbcInit => []
  | .cbcInitWithKey _ => []
  | .cbcEncrypt => [s.srcAddr]
  | .cbcDecrypt => [s.srcAddr]
  | .cbcEncryptWithKey _ => [s.srcAddr]
  | .cbcDecryptWithKey _ => [s.srcAddr]
  | .ctrInit => []
  | .ctrInitWithKey _ => []
  | .ctrSetStreamIndex => []
  | .ctrXor => [s.srcAddr]
  | .ctrOutput => []
  | .ctrXorWithKey _ => [s.srcAddr]
  | .ofbInit => []
  | .ofbInitWithKey _ => []
  | .ofbXor => [s.srcAddr]
  | .ofbOutput => []
  | .ofbXorWithKey _ => [s.srcAddr]
  | .zeroize _ => []

/-- The valid flag of the slot a command needs (R26, R250); true where it needs none. -/
def contextPresent (s : State) : Instr → Bool
  | .aesEncrypt | .aesDecrypt | .cbcInit | .ctrInit | .ofbInit => s.aes.valid
  | .cbcEncrypt | .cbcDecrypt => s.cbc.valid
  | .ctrSetStreamIndex | .ctrXor | .ctrOutput => s.ctr.valid
  | .ofbXor | .ofbOutput => s.ofb.valid
  | .aesInit _ | .xorBuf | .cbcInitWithKey _ | .cbcEncryptWithKey _ | .cbcDecryptWithKey _ => true
  | .ctrInitWithKey _ | .ctrXorWithKey _ | .ofbInitWithKey _ | .ofbXorWithKey _ => true
  | .zeroize _ => true

/-- The four CBC transforms (R255). -/
def isCbcTransform : Instr → Bool
  | .cbcEncrypt | .cbcDecrypt | .cbcEncryptWithKey _ | .cbcDecryptWithKey _ => true
  | .aesInit _ | .aesEncrypt | .aesDecrypt | .xorBuf | .cbcInit | .cbcInitWithKey _ => false
  | .ctrInit | .ctrInitWithKey _ | .ctrSetStreamIndex | .ctrXor | .ctrOutput => false
  | .ctrXorWithKey _ | .ofbInit | .ofbInitWithKey _ | .ofbXor | .ofbOutput => false
  | .ofbXorWithKey _ | .zeroize _ => false

/-- The result of a legal command: the checks of R251 in their fixed order, each read from the tables
of R65, R68 and R250 above. -/
def expectedResult (s : State) (i : Instr) : ResultCode :=
  if i.ksz?.any (fun k => !([16, 24, 32].contains k)) then .invalidKeySize
  else if contextPresent s i = false then .noContext
  else if isCbcTransform i && s.dataLen % 16 != 0 then .sizeNotBlockAligned
  else if (inputRanges s i ++ outputRanges s i).any
      (fun r => decide (s.memBytes < r.addr + r.size)) then .accessFault
  else if (outputRanges s i).any (fun o => (testedInputs s i).any
      (fun a => decide (a ≠ o.addr ∧ a < o.addr + o.size ∧ o.addr < a + o.size))) then .overlapFault
  else .ok

/-- The four slots. -/
inductive Slot where
  | aes | cbc | ctr | ofb
  deriving DecidableEq, Repr

/-- The slots a command's rule lists under "State written" (41_aes_commands.md to 45_system.md). -/
def writesSlot : Instr → Slot → Bool
  | .aesInit _, k => k = .aes
  | .cbcInit, k | .cbcInitWithKey _, k | .cbcEncrypt, k | .cbcDecrypt, k => k = .cbc
  | .ctrInit, k | .ctrInitWithKey _, k | .ctrSetStreamIndex, k => k = .ctr
  | .ctrXor, k | .ctrOutput, k => k = .ctr
  | .ofbInit, k | .ofbInitWithKey _, k | .ofbXor, k | .ofbOutput, k => k = .ofb
  | .aesEncrypt, _ | .aesDecrypt, _ | .xorBuf, _ => false
  | .cbcEncryptWithKey _, _ | .cbcDecryptWithKey _, _ => false
  | .ctrXorWithKey _, _ | .ofbXorWithKey _, _ => false
  | .zeroize sel, .aes => sel.getLsbD 0
  | .zeroize sel, .cbc => sel.getLsbD 1
  | .zeroize sel, .ctr => sel.getLsbD 2
  | .zeroize sel, .ofb => sel.getLsbD 3

/-- The valid flag of a slot (R26). -/
def validFlag (s : State) : Slot → Bool
  | .aes => s.aes.valid
  | .cbc => s.cbc.valid
  | .ctr => s.ctr.valid
  | .ofb => s.ofb.valid

/-- The commands that set a valid flag, on success only (R26). -/
def setsFlag : Instr → Slot → Bool
  | .aesInit _, k => k = .aes
  | .cbcInit, k | .cbcInitWithKey _, k => k = .cbc
  | .ctrInit, k | .ctrInitWithKey _, k => k = .ctr
  | .ofbInit, k | .ofbInitWithKey _, k => k = .ofb
  | .aesEncrypt, _ | .aesDecrypt, _ | .xorBuf, _ | .cbcEncrypt, _ | .cbcDecrypt, _ => false
  | .cbcEncryptWithKey _, _ | .cbcDecryptWithKey _, _ | .ctrSetStreamIndex, _ => false
  | .ctrXor, _ | .ctrOutput, _ | .ctrXorWithKey _, _ | .ofbXor, _ | .ofbOutput, _ => false
  | .ofbXorWithKey _, _ | .zeroize _, _ => false

/-- The commands that clear a valid flag: `ZEROIZE` with the slot's bit of `SEL` (R26). -/
def clearsFlag : Instr → Slot → Bool
  | .zeroize sel, k => writesSlot (.zeroize sel) k
  | .aesInit _, _ | .aesEncrypt, _ | .aesDecrypt, _ | .xorBuf, _ | .cbcInit, _ => false
  | .cbcInitWithKey _, _ | .cbcEncrypt, _ | .cbcDecrypt, _ | .cbcEncryptWithKey _, _ => false
  | .cbcDecryptWithKey _, _ | .ctrInit, _ | .ctrInitWithKey _, _ | .ctrSetStreamIndex, _ => false
  | .ctrXor, _ | .ctrOutput, _ | .ctrXorWithKey _, _ | .ofbInit, _ => false
  | .ofbInitWithKey _, _ | .ofbXor, _ | .ofbOutput, _ | .ofbXorWithKey _, _ => false

/-- `a` raised to the power `n` under `gmul` (R123). -/
def gpow (a : Byte) : Nat → Byte
  | 0 => 1
  | n + 1 => gmul (gpow a n) a

/-- The CTR keystream byte at stream position `p` (R206). -/
def ctrKs (ctx : CipherCtx) (iv : Block8) (p : Word64) : Byte :=
  (aesE ctx (iv.append (be64 (BitVec.ofNat 64 (p.toNat / 16))))).byte (p.toNat % 16)

/-- The OFB keystream block `O_(j+1)` (R225). -/
def ofbBlock (ctx : CipherCtx) (iv : Block) : Nat → Block
  | 0 => aesE ctx iv
  | j + 1 => aesE ctx (ofbBlock ctx iv j)

/-- The OFB keystream byte at position `p` (R225). -/
def ofbKs (ctx : CipherCtx) (iv : Block) (p : Nat) : Byte :=
  (ofbBlock ctx iv (p / 16)).byte (p % 16)

/-- Block `j` of a buffer at `a`. -/
def blockAt (s : State) (a j : Nat) : Block := Block.ofList (s.memRead (a + 16 * j) 16)

/-- The direct inverse cipher, without the decryption schedule: rounds `count`, ..., 1 (R140). -/
def directRounds (ek : Vector Block 15) : Nat → Block → Block
  | 0, s => s
  | r + 1, s =>
    directRounds ek r
      (invMixColumns (addRoundKey (invSubBytes (invShiftRows s)) (roundKey ek (r + 1))))

/-- `InvCipherDirect(Nr, EK, b)` (R140). -/
def invCipherDirect (nr : Nat) (ek : Vector Block 15) (b : Block) : Block :=
  let s := directRounds ek (nr - 1) (addRoundKey b (roundKey ek nr))
  addRoundKey (invSubBytes (invShiftRows s)) (roundKey ek 0)

/-- A context that `Expand` makes from a key of 16, 24 or 32 bytes (R143). -/
def Expanded (c : CipherCtx) : Prop := ∃ key : List Byte, LegalKeySize key.length ∧ c = expand key

/-- The AES slot holds an expanded context, or is the zeroed slot (R30, R42). -/
def AesInv (s : State) : Prop :=
  (s.aes.valid = true → Expanded s.aes.ctx) ∧ (s.aes.valid = false → s.aes = AesSlot.zeroed)

/-- The CBC slot holds an expanded context, or is the zeroed slot (R34, R42). -/
def CbcInv (s : State) : Prop :=
  (s.cbc.valid = true → Expanded s.cbc.ctx) ∧ (s.cbc.valid = false → s.cbc = CbcSlot.zeroed)

/-- The cache of a CTR state is the keystream block of its stream index (R36). -/
def CtrCached (c : CtrSlot) : Prop :=
  c.bidx.toNat = c.sidx.toNat / 16 ∧ c.ks = aesE c.ctx (c.iv.append (be64 c.bidx))

/-- The CTR slot holds an expanded context and the right cache, or is the zeroed slot (R36, R42). -/
def CtrInv (s : State) : Prop :=
  (s.ctr.valid = true → Expanded s.ctr.ctx ∧ CtrCached s.ctr) ∧
  (s.ctr.valid = false → s.ctr = CtrSlot.zeroed)

/-- `n` keystream bytes have been consumed since initialisation with `iv`: with `j = (n + 15) div 16`,
`KS = O_j` and `OFF = n - 16*(j-1)`; nothing consumed: `KS = O_1`, `OFF = 0` (R38). -/
def OfbConsumed (o : OfbSlot) (iv : Block) (n : Nat) : Prop :=
  if n = 0 then o.ks = ofbBlock o.ctx iv 0 ∧ o.off.val = 0
  else o.ks = ofbBlock o.ctx iv ((n + 15) / 16 - 1) ∧ o.off.val = n - 16 * ((n + 15) / 16 - 1)

/-- The OFB slot holds an expanded context and a state of R38, or is the zeroed slot (R38, R42). -/
def OfbInv (s : State) : Prop :=
  (s.ofb.valid = true → Expanded s.ofb.ctx ∧ ∃ iv n, OfbConsumed s.ofb iv n) ∧
  (s.ofb.valid = false → s.ofb = OfbSlot.zeroed)

/-- The buffer memory is in canonical form and lists no address from `MEM_BYTES` up, and `MEM_BYTES` is
at most `2^64` (R5, R60, R61). -/
def MemInv (s : State) : Prop :=
  Memory.wf s.mem ∧ (∀ c ∈ s.mem, c.1 < s.memBytes) ∧ s.memBytes ≤ Config.maxMemBytes

end Sys2Proof.Safety
end

