-- ==== Sys2Proof/Certificates/Slice0/Obligations.lean ====
section
/-! DEFINITION. The statements for the provers, each from the rules of spec/ its docstring names. -/

open Sys2Proof Sys2Proof.Machine Sys2Proof.Safety

/-! ### Encoding and decoding -/

/-- Command words the spec writes out decode to their commands, and words it calls illegal are refused
by name (R94 to R97; 95_test_vectors.md V51). -/
def Obligations.WordsFromTheSpecDecode : Prop :=
  decode 0x00001001 = .ok (.aesInit 16) ∧
  decode 0x00000004 = .ok .xorBuf ∧
  decode 0x00000012 = .ok .cbcEncrypt ∧
  decode 0x00002015 = .ok (.cbcDecryptWithKey 32) ∧
  decode 0x00000022 = .ok .ctrSetStreamIndex ∧
  decode 0x00001825 = .ok (.ctrXorWithKey 24) ∧
  decode 0x00001831 = .ok (.ofbInitWithKey 24) ∧
  decode 0x000F007F = .ok (.zeroize 0xF) ∧
  decode 0x00000001 = .ok (.aesInit 0) ∧
  decode 0x00000000 = .error .unknownOpcode ∧
  decode 0x00100001 = .error .reservedBits ∧
  decode 0x00001002 = .error .strayKeySize ∧
  decode 0x00010002 = .error .straySelect

/-- Decoding the encoding of a well-formed command gives the command back, every field included (R91,
R94, R95). -/
def Obligations.DecodeOfEncode : Prop :=
  ∀ i : Instr, i.wellFormed = true → decode (encode i) = .ok i

/-- A legal word is the encoding of the command it decodes to: no word has a bit that decoding drops
(R91). -/
def Obligations.EncodeOfDecode : Prop :=
  ∀ (w : CommandWord) (i : Instr), decode w = .ok i → encode i = w ∧ i.wellFormed = true

/-- A word is legal exactly under the four conditions of R95, exactly when it selects a row of the
opcode table, and it selects no second row. -/
def Obligations.LegalWordsAreTheTableRows : Prop :=
  ∀ w : CommandWord,
    ((∃ i, decode w = .ok i) ↔
      (fieldOp w).toNat ∈ [0x01, 0x02, 0x03, 0x04, 0x10, 0x11, 0x12, 0x13, 0x14, 0x15, 0x20, 0x21,
        0x22, 0x23, 0x24, 0x25, 0x30, 0x31, 0x32, 0x33, 0x34, 0x7F] ∧
      fieldRsv w = 0 ∧
      (fieldKsz w = 0 ∨ (fieldOp w).toNat ∈ [0x01, 0x11, 0x14, 0x15, 0x21, 0x25, 0x31, 0x34]) ∧
      (fieldSel w = 0 ∨ (fieldOp w).toNat = 0x7F)) ∧
    ((∃ i, decode w = .ok i) ↔ ∃ r ∈ opcodeRows, r.selects w = true) ∧
    ∀ r ∈ opcodeRows, ∀ r' ∈ opcodeRows, r.selects w = true → r'.selects w = true → r = r'

/-- A word that selects no row is stored in `CMD`, sets `STATUS.RESULT` to `IllegalCommand`, and changes
nothing else (R96). -/
def Obligations.IllegalWordOnlySetsResult : Prop :=
  ∀ (w : CommandWord) (s : State), (∀ r ∈ opcodeRows, r.selects w = false) →
    runWord w s = .next ((s.setCmd w).setResult .illegalCommand)

/-! ### The host's steps and reset -/

/-- The next step of the machine is the oldest pending host step, with nothing pending it is idle; when
that host step writes to `CMD` a word that decodes to a command, the step is the execution of that
command, with the word in `CMD` (R24, R72, R265). `withFetchWord` makes a word that next step. The
script of pending host steps is the model's choice (log entry 1). -/
def Obligations.StepRunsDecodedCommand : Prop :=
  (∀ s : State, s.script = [] → step s = .next s) ∧
  (∀ (s : State) (h : HostStep) (rest : List HostStep), s.script = h :: rest →
    step s = hostStep h (s.setScript rest)) ∧
  (∀ (s : State) (v : Word64) (rest : List HostStep) (i : Instr),
    s.script = .regWrite 0x00 v :: rest → decode (v.setWidth 32) = .ok i →
    step s = exec i ((s.setScript rest).setCmd (v.setWidth 32))) ∧
  (∀ (s : State) (w : Nat) (i : Instr), decode (BitVec.ofNat 32 w) = .ok i →
    step (s.withFetchWord 32 w) = exec i (s.setCmd (BitVec.ofNat 32 w)))

/-- `RegWrite(n, v)` for every register number: `CMD` executes the word, legal or not; `STATUS` and
numbers that name no register ignore the write; `x0` to `x6` take the value and nothing else changes
(R245). -/
def Obligations.RegWriteRule : Prop :=
  ∀ (s : State) (n : Nat) (v : Word64),
    (n = 0x00 → ∀ i, decode (v.setWidth 32) = .ok i →
      hostStep (.regWrite n v) s = exec i (s.setCmd (v.setWidth 32))) ∧
    (n = 0x00 → (∀ i, decode (v.setWidth 32) ≠ .ok i) →
      hostStep (.regWrite n v) s = .next ((s.setCmd (v.setWidth 32)).setResult .illegalCommand)) ∧
    (n = 0x01 → hostStep (.regWrite n v) s = .next s) ∧
    (n = 0x10 → hostStep (.regWrite n v) s = .next (s.setRegs { s.regs with src := v })) ∧
    (n = 0x11 → hostStep (.regWrite n v) s = .next (s.setRegs { s.regs with src2 := v })) ∧
    (n = 0x12 → hostStep (.regWrite n v) s = .next (s.setRegs { s.regs with dst := v })) ∧
    (n = 0x13 → hostStep (.regWrite n v) s = .next (s.setRegs { s.regs with len := v })) ∧
    (n = 0x14 → hostStep (.regWrite n v) s = .next (s.setRegs { s.regs with keya := v })) ∧
    (n = 0x15 → hostStep (.regWrite n v) s = .next (s.setRegs { s.regs with iva := v })) ∧
    (n = 0x16 → hostStep (.regWrite n v) s = .next (s.setRegs { s.regs with idx := v })) ∧
    (n ≠ 0x00 → n ≠ 0x01 → ¬ (0x10 ≤ n ∧ n ≤ 0x16) → hostStep (.regWrite n v) s = .next s)

/-- `RegRead(n)` for every register number: the value returned, with `STATUS` as
`RESULT + 16*AES.VALID + 32*CBC.VALID + 64*CTR.VALID + 128*OFB.VALID`, and no change of the hardware's
state (R246, R25), with the seven numbers that stand in the field `RESULT` (R250). The field of the state
that holds the value returned is the model's choice (log entry 6). -/
def Obligations.RegReadRule : Prop :=
  (ResultCode.ok.code = 0 ∧ ResultCode.invalidKeySize.code = 1 ∧
    ResultCode.sizeNotBlockAligned.code = 2 ∧ ResultCode.noContext.code = 3 ∧
    ResultCode.illegalCommand.code = 4 ∧ ResultCode.accessFault.code = 5 ∧
    ResultCode.overlapFault.code = 6) ∧
  ∀ (s : State) (n : Nat),
    ∃ v : Word64, hostStep (.regRead n) s = .next (s.setReply (.value v)) ∧
      (n = 0x00 → v.toNat = s.cmd.toNat) ∧
      (n = 0x01 → v.toNat = s.result.code
        + 16 * (if s.aes.valid then 1 else 0) + 32 * (if s.cbc.valid then 1 else 0)
        + 64 * (if s.ctr.valid then 1 else 0) + 128 * (if s.ofb.valid then 1 else 0)) ∧
      (n = 0x10 → v = s.regs.src) ∧ (n = 0x11 → v = s.regs.src2) ∧ (n = 0x12 → v = s.regs.dst) ∧
      (n = 0x13 → v = s.regs.len) ∧ (n = 0x14 → v = s.regs.keya) ∧ (n = 0x15 → v = s.regs.iva) ∧
      (n = 0x16 → v = s.regs.idx) ∧
      (n ≠ 0x00 → n ≠ 0x01 → ¬ (0x10 ≤ n ∧ n ≤ 0x16) → v = 0)

/-- `HostMemWrite` and `HostMemRead` on admitted ranges, in address order (R247; a range has a length
below `2^64`, R66). On a range that is not admitted the spec gives the host no step; that the model
answers a refusal there is its choice (log entry 4), as is the field that holds the bytes read (log
entry 6). -/
def Obligations.HostMemoryRule : Prop :=
  (∀ (s : State) (a : Word64) (bytes : List Byte),
    (Admitted s a.toNat bytes.length → bytes.length < 2 ^ 64 →
      ∃ t, hostStep (.memWrite a bytes) s = .next t ∧ Stores s t a.toNat bytes ∧
        t = s.setMem t.mem) ∧
    (¬ (Admitted s a.toNat bytes.length ∧ bytes.length < 2 ^ 64) →
      hostStep (.memWrite a bytes) s = .refused .hostRangeNotAdmitted)) ∧
  (∀ (s : State) (a n : Word64),
    (Admitted s a.toNat n.toNat →
      ∃ bytes : List Byte, hostStep (.memRead a n) s = .next (s.setReply (.bytes bytes)) ∧
        bytes.length = n.toNat ∧ ∀ i < n.toNat, bytes.getD i 0 = byteAt s (a.toNat + i)) ∧
    (¬ Admitted s a.toNat n.toNat →
      hostStep (.memRead a n) s = .refused .hostRangeNotAdmitted))

/-- Reset puts every piece of state but the buffer memory into its reset value and leaves the memory as
it is (R280, R41). -/
def Obligations.ResetRule : Prop :=
  ∀ s : State, ∃ t, hostStep .reset s = .next t ∧
    t.regs = ⟨0, 0, 0, 0, 0, 0, 0⟩ ∧ t.cmd = 0 ∧ statusWord t = 0 ∧ t.result = .ok ∧
    t.aes = AesSlot.zeroed ∧ t.cbc = CbcSlot.zeroed ∧ t.ctr = CtrSlot.zeroed ∧
    t.ofb = OfbSlot.zeroed ∧ t.mem = s.mem

/-- The state after reset (R41): every register and `STATUS` 0, every valid flag 0, every slot zeroed.
Nothing is said of the buffer memory, which the spec leaves arbitrary. -/
def Obligations.ResetStateValues : Prop :=
  (∀ r, State.reset.regs.get r = 0) ∧ State.reset.cmd = 0 ∧ statusWord State.reset = 0 ∧
  (∀ k, validFlag State.reset k = false) ∧
  (∀ c ∈ [State.reset.aes.ctx, State.reset.cbc.ctx, State.reset.ctr.ctx, State.reset.ofb.ctx],
    c.nr = 0 ∧ ∀ r, roundKey c.ek r = Block.zero ∧ roundKey c.dk r = Block.zero) ∧
  State.reset.cbc.prev = Block.zero ∧ State.reset.ctr.iv = Block8.zero ∧
  State.reset.ctr.ks = Block.zero ∧ State.reset.ofb.ks = Block.zero ∧
  State.reset.ctr.sidx = 0 ∧ State.reset.ctr.bidx = 0 ∧ State.reset.ofb.off.val = 0

/-! ### Memory and invariants -/

/-- The memory a state holds can be any content of `n` bytes: what is said of every state is said for
every content the memory may have after reset (R41, R60; 93 U2). -/
def Obligations.EveryMemoryContentIsAState : Prop :=
  ∀ (n : Nat) (f : Nat → Byte), ∃ m : Memory,
    Memory.wf m ∧ (∀ c ∈ m, c.1 < n) ∧ ∀ a < n, Memory.read m a = f a

/-- Every step keeps the memory in canonical form and inside `MEM_BYTES`, and keeps `MEM_BYTES` (R60,
R66, R5). A step takes just the oldest host step from the script, and only a read by the host changes
what its last read returned: the three fields are the model's choice (log entries 1, 2, 6). -/
def Obligations.StepKeepsMemoryInvariant : Prop :=
  ∀ s t : State, MemInv s → step s = .next t →
    MemInv t ∧ t.memBytes = s.memBytes ∧ t.script = s.script.tail ∧
    ((∀ n, s.script.head? ≠ some (.regRead n)) → (∀ a n, s.script.head? ≠ some (.memRead a n)) →
      t.reply = s.reply)

/-- Every step keeps the four slots well made: valid, with a context that `Expand` made from a key of a
legal size and the mode state of R36 and R38; or zeroed (R30, R36, R38, R42). -/
def Obligations.StepKeepsSlotInvariants : Prop :=
  ∀ s t : State, AesInv s → CbcInv s → CtrInv s → OfbInv s → step s = .next t →
    AesInv t ∧ CbcInv t ∧ CtrInv t ∧ OfbInv t

/-- The CTR invariant: whenever `CTR.VALID = 1` and no command is executing, `BIDX = SIDX div 16` and
`KS = E(CTX, IV ‖ be64(BIDX))`, so `BIDX < 2^60`: it holds after reset and every step keeps it (R36). -/
def Obligations.StepKeepsCtrCache : Prop :=
  (State.reset.ctr.valid = true → CtrCached State.reset.ctr) ∧
  ∀ s t : State, (s.ctr.valid = true → CtrCached s.ctr) → step s = .next t →
    t.ctr.valid = true → CtrCached t.ctr ∧ t.ctr.bidx.toNat < 2 ^ 60

/-- The state after reset meets every invariant. That it lists no byte of memory and that `MEM_BYTES` is
4096 there, on which the clause `MemInv` rests, is the model's choice (log entries 3 and 2): the spec
leaves the memory arbitrary (R41) and the size open (R5). -/
def Obligations.ResetMeetsInvariants : Prop :=
  MemInv State.reset ∧ AesInv State.reset ∧ CbcInv State.reset ∧ CtrInv State.reset ∧
  OfbInv State.reset

/-! ### Rules of all commands -/

/-- Every command word, legal or not, answers a next state in every state (R262): it stands in `CMD`
(R24), and no operand register is written (R22). -/
def Obligations.CommandsWriteNoOperandRegister : Prop :=
  ∀ (w : CommandWord) (s : State), ∃ t, runWord w s = .next t ∧ t.regs = s.regs ∧ t.cmd = w

/-- A command word whose result is an error changes `CMD` and `STATUS.RESULT` and nothing else (R258). -/
def Obligations.FailedCommandChangesOnlyResult : Prop :=
  ∀ (w : CommandWord) (s t : State), runWord w s = .next t → t.result ≠ .ok →
    t = (s.setCmd w).setResult t.result

/-- The result of a command word is the first failing check in the fixed order of R251, or `OK`. -/
def Obligations.ResultFollowsCheckOrder : Prop :=
  ∀ (w : CommandWord) (s t : State), runWord w s = .next t →
    (∀ i, decode w = .ok i → t.result = expectedResult s i) ∧
    ((∀ i, decode w ≠ .ok i) → t.result = .illegalCommand)

/-- A command writes no byte outside its output range (R65). -/
def Obligations.CommandWritesOnlyItsOutputRange : Prop :=
  ∀ (i : Instr) (s t : State), exec i s = .next t →
    ∀ x, (∀ r ∈ outputRanges s i, ¬ (r.addr ≤ x ∧ x < r.addr + r.size)) → byteAt t x = byteAt s x

/-- A command depends on the bytes of its input ranges only: on another memory that agrees there it
gives the same result, the same slots and the same output bytes (R65). -/
def Obligations.CommandReadsOnlyItsInputRanges : Prop :=
  ∀ (i : Instr) (s t : State) (m : Memory),
    (∀ r ∈ inputRanges s i, ∀ x, r.addr ≤ x → x < r.addr + r.size →
      Memory.read m x = byteAt s x) →
    exec i s = .next t →
    ∃ t', exec i (s.setMem m) = .next t' ∧ t'.result = t.result ∧ t'.aes = t.aes ∧
      t'.cbc = t.cbc ∧ t'.ctr = t.ctr ∧ t'.ofb = t.ofb ∧
      (t.result = .ok → ∀ r ∈ outputRanges s i, ∀ x, r.addr ≤ x → x < r.addr + r.size →
        byteAt t' x = byteAt t x)

/-- A command ignores the operand registers its rule does not name: writing another value there changes
nothing of what it does (R21, R94; 93 U17). -/
def Obligations.UnreadRegistersAreIgnored : Prop :=
  ∀ (i : Instr) (s : State) (r : Reg) (v : Word64), readsReg i r = false →
    ∃ t, exec i s = .next t ∧
      exec i (s.setRegs (s.regs.set r v)) = .next (t.setRegs (s.regs.set r v))

/-- A valid flag is set by a successful init command of its slot, cleared by `ZEROIZE` with its bit of
`SEL`, and otherwise kept (R26). -/
def Obligations.ValidFlagsChangeOnlyAsListed : Prop :=
  ∀ (i : Instr) (s t : State) (k : Slot), exec i s = .next t →
    validFlag t k =
      if clearsFlag i k then false
      else if setsFlag i k && t.result == .ok then true
      else validFlag s k

/-- A slot changes only by the commands whose rules list it: the AES slot by `AES_INIT` and `ZEROIZE`
(R31), a mode slot by its own mode's commands, so never by `AES_INIT` (R33), and no slot by a one-shot
command (R39). -/
def Obligations.SlotsChangeOnlyByTheirCommands : Prop :=
  ∀ (i : Instr) (s t : State), exec i s = .next t →
    (writesSlot i .aes = false → t.aes = s.aes) ∧ (writesSlot i .cbc = false → t.cbc = s.cbc) ∧
    (writesSlot i .ctr = false → t.ctr = s.ctr) ∧ (writesSlot i .ofb = false → t.ofb = s.ofb)

/-- Where the output goes makes no difference to what it is: with another destination (in place, or
separate buffers) a successful command writes the same bytes there and leaves the same slots (R69). -/
def Obligations.InPlaceGivesTheSameBytes : Prop :=
  ∀ (i : Instr) (s t u : State) (v : Word64) (n : Nat), outputSize s i = some n →
    exec i s = .next t → t.result = .ok →
    exec i (s.setRegs { s.regs with dst := v }) = .next u → u.result = .ok →
    u.memRead v.toNat n = t.memRead s.dstAddr n ∧
    u.aes = t.aes ∧ u.cbc = t.cbc ∧ u.ctr = t.ctr ∧ u.ofb = t.ofb

/-! ### AES core commands -/

/-- `AES_INIT` (R160). -/
def Obligations.AesInitRule : Prop :=
  encode (.aesInit 16) = 0x00001001 ∧ encode (.aesInit 24) = 0x00001801 ∧
  encode (.aesInit 32) = 0x00002001 ∧
  ∀ (k : Nat) (s : State),
    (¬ LegalKeySize k → exec (.aesInit k) s = .next (s.setResult .invalidKeySize)) ∧
    (LegalKeySize k → ¬ Admitted s s.keyAddr k →
      exec (.aesInit k) s = .next (s.setResult .accessFault)) ∧
    (LegalKeySize k → Admitted s s.keyAddr k →
      exec (.aesInit k) s =
        .next ((s.setAes ⟨true, expand (s.memRead s.keyAddr k)⟩).setResult .ok))

/-- `AES_ENCRYPT` (R161). -/
def Obligations.AesEncryptRule : Prop :=
  encode .aesEncrypt = 0x00000002 ∧
  ∀ s : State,
    (s.aes.valid = false → exec .aesEncrypt s = .next (s.setResult .noContext)) ∧
    (s.aes.valid = true → ¬ (Admitted s s.srcAddr 16 ∧ Admitted s s.dstAddr 16) →
      exec .aesEncrypt s = .next (s.setResult .accessFault)) ∧
    (s.aes.valid = true → Admitted s s.srcAddr 16 → Admitted s s.dstAddr 16 →
      ¬ AliasOk s.srcAddr s.dstAddr 16 → exec .aesEncrypt s = .next (s.setResult .overlapFault)) ∧
    (s.aes.valid = true → Admitted s s.srcAddr 16 → Admitted s s.dstAddr 16 →
      AliasOk s.srcAddr s.dstAddr 16 →
      ∃ t, exec .aesEncrypt s = .next t ∧ blockAt t s.dstAddr 0 = aesE s.aes.ctx (blockAt s s.srcAddr 0) ∧
        SameOutside s t s.dstAddr 16 ∧ OnlyMemory s t)

/-- `AES_DECRYPT` (R162). -/
def Obligations.AesDecryptRule : Prop :=
  encode .aesDecrypt = 0x00000003 ∧
  ∀ s : State,
    (s.aes.valid = false → exec .aesDecrypt s = .next (s.setResult .noContext)) ∧
    (s.aes.valid = true → ¬ (Admitted s s.srcAddr 16 ∧ Admitted s s.dstAddr 16) →
      exec .aesDecrypt s = .next (s.setResult .accessFault)) ∧
    (s.aes.valid = true → Admitted s s.srcAddr 16 → Admitted s s.dstAddr 16 →
      ¬ AliasOk s.srcAddr s.dstAddr 16 → exec .aesDecrypt s = .next (s.setResult .overlapFault)) ∧
    (s.aes.valid = true → Admitted s s.srcAddr 16 → Admitted s s.dstAddr 16 →
      AliasOk s.srcAddr s.dstAddr 16 →
      ∃ t, exec .aesDecrypt s = .next t ∧ blockAt t s.dstAddr 0 = aesD s.aes.ctx (blockAt s s.srcAddr 0) ∧
        SameOutside s t s.dstAddr 16 ∧ OnlyMemory s t)

/-- `XOR_BUF` (R163). -/
def Obligations.XorBufRule : Prop :=
  encode .xorBuf = 0x00000004 ∧
  ∀ s : State,
    (¬ (Admitted s s.srcAddr s.dataLen ∧ Admitted s s.src2Addr s.dataLen ∧
        Admitted s s.dstAddr s.dataLen) →
      exec .xorBuf s = .next (s.setResult .accessFault)) ∧
    (Admitted s s.srcAddr s.dataLen → Admitted s s.src2Addr s.dataLen →
      Admitted s s.dstAddr s.dataLen →
      ¬ (AliasOk s.srcAddr s.dstAddr s.dataLen ∧ AliasOk s.src2Addr s.dstAddr s.dataLen) →
      exec .xorBuf s = .next (s.setResult .overlapFault)) ∧
    (Admitted s s.srcAddr s.dataLen → Admitted s s.src2Addr s.dataLen →
      Admitted s s.dstAddr s.dataLen → AliasOk s.srcAddr s.dstAddr s.dataLen →
      AliasOk s.src2Addr s.dstAddr s.dataLen →
      ∃ t, exec .xorBuf s = .next t ∧
        (∀ i < s.dataLen,
          byteAt t (s.dstAddr + i) = byteAt s (s.srcAddr + i) ^^^ byteAt s (s.src2Addr + i)) ∧
        SameOutside s t s.dstAddr s.dataLen ∧ OnlyMemory s t)

/-! ### CBC commands -/

/-- `CBC_INIT` (R180). -/
def Obligations.CbcInitRule : Prop :=
  encode .cbcInit = 0x00000010 ∧
  ∀ s : State,
    (s.aes.valid = false → exec .cbcInit s = .next (s.setResult .noContext)) ∧
    (s.aes.valid = true → ¬ Admitted s s.ivAddr 16 →
      exec .cbcInit s = .next (s.setResult .accessFault)) ∧
    (s.aes.valid = true → Admitted s s.ivAddr 16 →
      exec .cbcInit s =
        .next ((s.setCbc ⟨true, s.aes.ctx, blockAt s s.ivAddr 0⟩).setResult .ok))

/-- `CBC_INIT_WITH_KEY` (R181). -/
def Obligations.CbcInitWithKeyRule : Prop :=
  encode (.cbcInitWithKey 16) = 0x00001011 ∧ encode (.cbcInitWithKey 24) = 0x00001811 ∧
  encode (.cbcInitWithKey 32) = 0x00002011 ∧
  ∀ (k : Nat) (s : State),
    (¬ LegalKeySize k → exec (.cbcInitWithKey k) s = .next (s.setResult .invalidKeySize)) ∧
    (LegalKeySize k → ¬ (Admitted s s.keyAddr k ∧ Admitted s s.ivAddr 16) →
      exec (.cbcInitWithKey k) s = .next (s.setResult .accessFault)) ∧
    (LegalKeySize k → Admitted s s.keyAddr k → Admitted s s.ivAddr 16 →
      exec (.cbcInitWithKey k) s =
        .next ((s.setCbc ⟨true, expand (s.memRead s.keyAddr k), blockAt s s.ivAddr 0⟩).setResult .ok))

/-- `CBC_ENCRYPT` (R182): `C_i = E(ctx, P_i ^ C_(i-1))`, the new `PREV` the last ciphertext block, or
the old one at length 0 (R186). -/
def Obligations.CbcEncryptRule : Prop :=
  encode .cbcEncrypt = 0x00000012 ∧
  ∀ s : State,
    (s.cbc.valid = false → exec .cbcEncrypt s = .next (s.setResult .noContext)) ∧
    (s.cbc.valid = true → s.dataLen % 16 ≠ 0 →
      exec .cbcEncrypt s = .next (s.setResult .sizeNotBlockAligned)) ∧
    (s.cbc.valid = true → s.dataLen % 16 = 0 →
      ¬ (Admitted s s.srcAddr s.dataLen ∧ Admitted s s.dstAddr s.dataLen) →
      exec .cbcEncrypt s = .next (s.setResult .accessFault)) ∧
    (s.cbc.valid = true → s.dataLen % 16 = 0 → Admitted s s.srcAddr s.dataLen →
      Admitted s s.dstAddr s.dataLen → ¬ AliasOk s.srcAddr s.dstAddr s.dataLen →
      exec .cbcEncrypt s = .next (s.setResult .overlapFault)) ∧
    (s.cbc.valid = true → s.dataLen % 16 = 0 → Admitted s s.srcAddr s.dataLen →
      Admitted s s.dstAddr s.dataLen → AliasOk s.srcAddr s.dstAddr s.dataLen →
      ∃ t, exec .cbcEncrypt s = .next t ∧
        (∀ j < s.dataLen / 16, blockAt t s.dstAddr j =
          aesE s.cbc.ctx ((blockAt s s.srcAddr j).xor
            (if j = 0 then s.cbc.prev else blockAt t s.dstAddr (j - 1)))) ∧
        SameOutside s t s.dstAddr s.dataLen ∧
        t.cbc.prev =
          (if s.dataLen = 0 then s.cbc.prev else blockAt t s.dstAddr (s.dataLen / 16 - 1)) ∧
        t = ((s.setMem t.mem).setCbc ⟨true, s.cbc.ctx, t.cbc.prev⟩).setResult .ok)

/-- `CBC_DECRYPT` (R183): `P_i = D(ctx, C_i) ^ C_(i-1)`, the new `PREV` the last block of the input as
it stood before the command, or the old one at length 0 (R187). -/
def Obligations.CbcDecryptRule : Prop :=
  encode .cbcDecrypt = 0x00000013 ∧
  ∀ s : State,
    (s.cbc.valid = false → exec .cbcDecrypt s = .next (s.setResult .noContext)) ∧
    (s.cbc.valid = true → s.dataLen % 16 ≠ 0 →
      exec .cbcDecrypt s = .next (s.setResult .sizeNotBlockAligned)) ∧
    (s.cbc.valid = true → s.dataLen % 16 = 0 →
      ¬ (Admitted s s.srcAddr s.dataLen ∧ Admitted s s.dstAddr s.dataLen) →
      exec .cbcDecrypt s = .next (s.setResult .accessFault)) ∧
    (s.cbc.valid = true → s.dataLen % 16 = 0 → Admitted s s.srcAddr s.dataLen →
      Admitted s s.dstAddr s.dataLen → ¬ AliasOk s.srcAddr s.dstAddr s.dataLen →
      exec .cbcDecrypt s = .next (s.setResult .overlapFault)) ∧
    (s.cbc.valid = true → s.dataLen % 16 = 0 → Admitted s s.srcAddr s.dataLen →
      Admitted s s.dstAddr s.dataLen → AliasOk s.srcAddr s.dstAddr s.dataLen →
      ∃ t, exec .cbcDecrypt s = .next t ∧
        (∀ j < s.dataLen / 16, blockAt t s.dstAddr j =
          (aesD s.cbc.ctx (blockAt s s.srcAddr j)).xor
            (if j = 0 then s.cbc.prev else blockAt s s.srcAddr (j - 1))) ∧
        SameOutside s t s.dstAddr s.dataLen ∧
        t.cbc.prev =
          (if s.dataLen = 0 then s.cbc.prev else blockAt s s.srcAddr (s.dataLen / 16 - 1)) ∧
        t = ((s.setMem t.mem).setCbc ⟨true, s.cbc.ctx, t.cbc.prev⟩).setResult .ok)

/-- `CBC_ENCRYPT_WITH_KEY` (R184). -/
def Obligations.CbcEncryptWithKeyRule : Prop :=
  encode (.cbcEncryptWithKey 16) = 0x00001014 ∧ encode (.cbcEncryptWithKey 24) = 0x00001814 ∧
  encode (.cbcEncryptWithKey 32) = 0x00002014 ∧
  ∀ (k : Nat) (s : State),
    (¬ LegalKeySize k → exec (.cbcEncryptWithKey k) s = .next (s.setResult .invalidKeySize)) ∧
    (LegalKeySize k → s.dataLen % 16 ≠ 0 →
      exec (.cbcEncryptWithKey k) s = .next (s.setResult .sizeNotBlockAligned)) ∧
    (LegalKeySize k → s.dataLen % 16 = 0 →
      ¬ (Admitted s s.keyAddr k ∧ Admitted s s.ivAddr 16 ∧ Admitted s s.srcAddr s.dataLen ∧
        Admitted s s.dstAddr s.dataLen) →
      exec (.cbcEncryptWithKey k) s = .next (s.setResult .accessFault)) ∧
    (LegalKeySize k → s.dataLen % 16 = 0 → Admitted s s.keyAddr k → Admitted s s.ivAddr 16 →
      Admitted s s.srcAddr s.dataLen → Admitted s s.dstAddr s.dataLen →
      ¬ AliasOk s.srcAddr s.dstAddr s.dataLen →
      exec (.cbcEncryptWithKey k) s = .next (s.setResult .overlapFault)) ∧
    (LegalKeySize k → s.dataLen % 16 = 0 → Admitted s s.keyAddr k → Admitted s s.ivAddr 16 →
      Admitted s s.srcAddr s.dataLen → Admitted s s.dstAddr s.dataLen →
      AliasOk s.srcAddr s.dstAddr s.dataLen →
      ∃ t, exec (.cbcEncryptWithKey k) s = .next t ∧
        (∀ j < s.dataLen / 16, blockAt t s.dstAddr j =
          aesE (expand (s.memRead s.keyAddr k)) ((blockAt s s.srcAddr j).xor
            (if j = 0 then blockAt s s.ivAddr 0 else blockAt t s.dstAddr (j - 1)))) ∧
        SameOutside s t s.dstAddr s.dataLen ∧ OnlyMemory s t)

/-- `CBC_DECRYPT_WITH_KEY` (R185). -/
def Obligations.CbcDecryptWithKeyRule : Prop :=
  encode (.cbcDecryptWithKey 16) = 0x00001015 ∧ encode (.cbcDecryptWithKey 24) = 0x00001815 ∧
  encode (.cbcDecryptWithKey 32) = 0x00002015 ∧
  ∀ (k : Nat) (s : State),
    (¬ LegalKeySize k → exec (.cbcDecryptWithKey k) s = .next (s.setResult .invalidKeySize)) ∧
    (LegalKeySize k → s.dataLen % 16 ≠ 0 →
      exec (.cbcDecryptWithKey k) s = .next (s.setResult .sizeNotBlockAligned)) ∧
    (LegalKeySize k → s.dataLen % 16 = 0 →
      ¬ (Admitted s s.keyAddr k ∧ Admitted s s.ivAddr 16 ∧ Admitted s s.srcAddr s.dataLen ∧
        Admitted s s.dstAddr s.dataLen) →
      exec (.cbcDecryptWithKey k) s = .next (s.setResult .accessFault)) ∧
    (LegalKeySize k → s.dataLen % 16 = 0 → Admitted s s.keyAddr k → Admitted s s.ivAddr 16 →
      Admitted s s.srcAddr s.dataLen → Admitted s s.dstAddr s.dataLen →
      ¬ AliasOk s.srcAddr s.dstAddr s.dataLen →
      exec (.cbcDecryptWithKey k) s = .next (s.setResult .overlapFault)) ∧
    (LegalKeySize k → s.dataLen % 16 = 0 → Admitted s s.keyAddr k → Admitted s s.ivAddr 16 →
      Admitted s s.srcAddr s.dataLen → Admitted s s.dstAddr s.dataLen →
      AliasOk s.srcAddr s.dstAddr s.dataLen →
      ∃ t, exec (.cbcDecryptWithKey k) s = .next t ∧
        (∀ j < s.dataLen / 16, blockAt t s.dstAddr j =
          (aesD (expand (s.memRead s.keyAddr k)) (blockAt s s.srcAddr j)).xor
            (if j = 0 then blockAt s s.ivAddr 0 else blockAt s s.srcAddr (j - 1))) ∧
        SameOutside s t s.dstAddr s.dataLen ∧ OnlyMemory s t)

/-! ### CTR commands -/

/-- `CTR_INIT` (R200). -/
def Obligations.CtrInitRule : Prop :=
  encode .ctrInit = 0x00000020 ∧
  ∀ s : State,
    (s.aes.valid = false → exec .ctrInit s = .next (s.setResult .noContext)) ∧
    (s.aes.valid = true → ¬ Admitted s s.ivAddr 8 →
      exec .ctrInit s = .next (s.setResult .accessFault)) ∧
    (s.aes.valid = true → Admitted s s.ivAddr 8 →
      exec .ctrInit s =
        .next ((s.setCtr ⟨true, s.aes.ctx, Block8.ofList (s.memRead s.ivAddr 8), 0, 0,
          aesE s.aes.ctx ((Block8.ofList (s.memRead s.ivAddr 8)).append (be64 0))⟩).setResult .ok))

/-- `CTR_INIT_WITH_KEY` (R201). -/
def Obligations.CtrInitWithKeyRule : Prop :=
  encode (.ctrInitWithKey 16) = 0x00001021 ∧ encode (.ctrInitWithKey 24) = 0x00001821 ∧
  encode (.ctrInitWithKey 32) = 0x00002021 ∧
  ∀ (k : Nat) (s : State),
    (¬ LegalKeySize k → exec (.ctrInitWithKey k) s = .next (s.setResult .invalidKeySize)) ∧
    (LegalKeySize k → ¬ (Admitted s s.keyAddr k ∧ Admitted s s.ivAddr 8) →
      exec (.ctrInitWithKey k) s = .next (s.setResult .accessFault)) ∧
    (LegalKeySize k → Admitted s s.keyAddr k → Admitted s s.ivAddr 8 →
      exec (.ctrInitWithKey k) s =
        .next ((s.setCtr ⟨true, expand (s.memRead s.keyAddr k),
          Block8.ofList (s.memRead s.ivAddr 8), 0, 0,
          aesE (expand (s.memRead s.keyAddr k))
            ((Block8.ofList (s.memRead s.ivAddr 8)).append (be64 0))⟩).setResult .ok))

/-- `CTR_SET_STREAM_INDEX` (R202), in a state that meets the invariant of R36: the slot is at the new
index with that index's keystream block, whether or not the block was made again. -/
def Obligations.CtrSetStreamIndexRule : Prop :=
  encode .ctrSetStreamIndex = 0x00000022 ∧
  ∀ s : State,
    (s.ctr.valid = false → exec .ctrSetStreamIndex s = .next (s.setResult .noContext)) ∧
    (s.ctr.valid = true → CtrCached s.ctr →
      exec .ctrSetStreamIndex s =
        .next ((s.setCtr ⟨true, s.ctr.ctx, s.ctr.iv, s.regs.idx,
          BitVec.ofNat 64 (s.regs.idx.toNat / 16),
          aesE s.ctr.ctx
            (s.ctr.iv.append (be64 (BitVec.ofNat 64 (s.regs.idx.toNat / 16))))⟩).setResult .ok))

/-- `CTR_XOR` (R203), in a state that meets the invariant of R36: byte `i` of the output is byte `i` of
the input with the keystream byte of position `(SIDX + i) mod 2^64`, and the slot moves on by `LEN`
modulo `2^64` (R208, R209). -/
def Obligations.CtrXorRule : Prop :=
  encode .ctrXor = 0x00000023 ∧
  ∀ s : State,
    (s.ctr.valid = false → exec .ctrXor s = .next (s.setResult .noContext)) ∧
    (s.ctr.valid = true → ¬ (Admitted s s.srcAddr s.dataLen ∧ Admitted s s.dstAddr s.dataLen) →
      exec .ctrXor s = .next (s.setResult .accessFault)) ∧
    (s.ctr.valid = true → Admitted s s.srcAddr s.dataLen → Admitted s s.dstAddr s.dataLen →
      ¬ AliasOk s.srcAddr s.dstAddr s.dataLen →
      exec .ctrXor s = .next (s.setResult .overlapFault)) ∧
    (s.ctr.valid = true → CtrCached s.ctr → Admitted s s.srcAddr s.dataLen →
      Admitted s s.dstAddr s.dataLen → AliasOk s.srcAddr s.dstAddr s.dataLen →
      ∃ t, exec .ctrXor s = .next t ∧
        (∀ i < s.dataLen, byteAt t (s.dstAddr + i) =
          byteAt s (s.srcAddr + i) ^^^
            ctrKs s.ctr.ctx s.ctr.iv (BitVec.ofNat 64 ((s.ctr.sidx.toNat + i) % 2 ^ 64))) ∧
        SameOutside s t s.dstAddr s.dataLen ∧
        t.ctr.sidx.toNat = (s.ctr.sidx.toNat + s.dataLen) % 2 ^ 64 ∧ CtrCached t.ctr ∧
        t = ((s.setMem t.mem).setCtr
          ⟨true, s.ctr.ctx, s.ctr.iv, t.ctr.sidx, t.ctr.bidx, t.ctr.ks⟩).setResult .ok)

/-- `CTR_OUTPUT` (R204), in a state that meets the invariant of R36: the keystream bytes themselves. -/
def Obligations.CtrOutputRule : Prop :=
  encode .ctrOutput = 0x00000024 ∧
  ∀ s : State,
    (s.ctr.valid = false → exec .ctrOutput s = .next (s.setResult .noContext)) ∧
    (s.ctr.valid = true → ¬ Admitted s s.dstAddr s.dataLen →
      exec .ctrOutput s = .next (s.setResult .accessFault)) ∧
    (s.ctr.valid = true → CtrCached s.ctr → Admitted s s.dstAddr s.dataLen →
      ∃ t, exec .ctrOutput s = .next t ∧
        (∀ i < s.dataLen, byteAt t (s.dstAddr + i) =
          ctrKs s.ctr.ctx s.ctr.iv (BitVec.ofNat 64 ((s.ctr.sidx.toNat + i) % 2 ^ 64))) ∧
        SameOutside s t s.dstAddr s.dataLen ∧
        t.ctr.sidx.toNat = (s.ctr.sidx.toNat + s.dataLen) % 2 ^ 64 ∧ CtrCached t.ctr ∧
        t = ((s.setMem t.mem).setCtr
          ⟨true, s.ctr.ctx, s.ctr.iv, t.ctr.sidx, t.ctr.bidx, t.ctr.ks⟩).setResult .ok)

/-- `CTR_XOR_WITH_KEY` (R205): `out[i] = d[i] ^ ks(Expand(k), v, i)`. -/
def Obligations.CtrXorWithKeyRule : Prop :=
  encode (.ctrXorWithKey 16) = 0x00001025 ∧ encode (.ctrXorWithKey 24) = 0x00001825 ∧
  encode (.ctrXorWithKey 32) = 0x00002025 ∧
  ∀ (k : Nat) (s : State),
    (¬ LegalKeySize k → exec (.ctrXorWithKey k) s = .next (s.setResult .invalidKeySize)) ∧
    (LegalKeySize k →
      ¬ (Admitted s s.keyAddr k ∧ Admitted s s.ivAddr 8 ∧ Admitted s s.srcAddr s.dataLen ∧
        Admitted s s.dstAddr s.dataLen) →
      exec (.ctrXorWithKey k) s = .next (s.setResult .accessFault)) ∧
    (LegalKeySize k → Admitted s s.keyAddr k → Admitted s s.ivAddr 8 →
      Admitted s s.srcAddr s.dataLen → Admitted s s.dstAddr s.dataLen →
      ¬ AliasOk s.srcAddr s.dstAddr s.dataLen →
      exec (.ctrXorWithKey k) s = .next (s.setResult .overlapFault)) ∧
    (LegalKeySize k → Admitted s s.keyAddr k → Admitted s s.ivAddr 8 →
      Admitted s s.srcAddr s.dataLen → Admitted s s.dstAddr s.dataLen →
      AliasOk s.srcAddr s.dstAddr s.dataLen →
      ∃ t, exec (.ctrXorWithKey k) s = .next t ∧
        (∀ i < s.dataLen, byteAt t (s.dstAddr + i) =
          byteAt s (s.srcAddr + i) ^^^
            ctrKs (expand (s.memRead s.keyAddr k)) (Block8.ofList (s.memRead s.ivAddr 8))
              (BitVec.ofNat 64 i)) ∧
        SameOutside s t s.dstAddr s.dataLen ∧ OnlyMemory s t)

/-! ### OFB commands -/

/-- `OFB_INIT` (R220). -/
def Obligations.OfbInitRule : Prop :=
  encode .ofbInit = 0x00000030 ∧
  ∀ s : State,
    (s.aes.valid = false → exec .ofbInit s = .next (s.setResult .noContext)) ∧
    (s.aes.valid = true → ¬ Admitted s s.ivAddr 16 →
      exec .ofbInit s = .next (s.setResult .accessFault)) ∧
    (s.aes.valid = true → Admitted s s.ivAddr 16 →
      exec .ofbInit s =
        .next ((s.setOfb ⟨true, s.aes.ctx, aesE s.aes.ctx (blockAt s s.ivAddr 0), 0⟩).setResult .ok))

/-- `OFB_INIT_WITH_KEY` (R221). -/
def Obligations.OfbInitWithKeyRule : Prop :=
  encode (.ofbInitWithKey 16) = 0x00001031 ∧ encode (.ofbInitWithKey 24) = 0x00001831 ∧
  encode (.ofbInitWithKey 32) = 0x00002031 ∧
  ∀ (k : Nat) (s : State),
    (¬ LegalKeySize k → exec (.ofbInitWithKey k) s = .next (s.setResult .invalidKeySize)) ∧
    (LegalKeySize k → ¬ (Admitted s s.keyAddr k ∧ Admitted s s.ivAddr 16) →
      exec (.ofbInitWithKey k) s = .next (s.setResult .accessFault)) ∧
    (LegalKeySize k → Admitted s s.keyAddr k → Admitted s s.ivAddr 16 →
      exec (.ofbInitWithKey k) s =
        .next ((s.setOfb ⟨true, expand (s.memRead s.keyAddr k),
          aesE (expand (s.memRead s.keyAddr k)) (blockAt s s.ivAddr 0), 0⟩).setResult .ok))

/-- `OFB_XOR` (R222), in a state where `m` keystream bytes have been consumed since initialisation with
`iv` (R38): byte `i` of the output is byte `i` of the input with the keystream byte of position `m + i`,
and then `m + LEN` bytes have been consumed (R226). -/
def Obligations.OfbXorRule : Prop :=
  encode .ofbXor = 0x00000032 ∧
  ∀ s : State,
    (s.ofb.valid = false → exec .ofbXor s = .next (s.setResult .noContext)) ∧
    (s.ofb.valid = true → ¬ (Admitted s s.srcAddr s.dataLen ∧ Admitted s s.dstAddr s.dataLen) →
      exec .ofbXor s = .next (s.setResult .accessFault)) ∧
    (s.ofb.valid = true → Admitted s s.srcAddr s.dataLen → Admitted s s.dstAddr s.dataLen →
      ¬ AliasOk s.srcAddr s.dstAddr s.dataLen →
      exec .ofbXor s = .next (s.setResult .overlapFault)) ∧
    (∀ iv m, s.ofb.valid = true → OfbConsumed s.ofb iv m → Admitted s s.srcAddr s.dataLen →
      Admitted s s.dstAddr s.dataLen → AliasOk s.srcAddr s.dstAddr s.dataLen →
      ∃ t, exec .ofbXor s = .next t ∧
        (∀ i < s.dataLen, byteAt t (s.dstAddr + i) =
          byteAt s (s.srcAddr + i) ^^^ ofbKs s.ofb.ctx iv (m + i)) ∧
        SameOutside s t s.dstAddr s.dataLen ∧ OfbConsumed t.ofb iv (m + s.dataLen) ∧
        t = ((s.setMem t.mem).setOfb ⟨true, s.ofb.ctx, t.ofb.ks, t.ofb.off⟩).setResult .ok)

/-- `OFB_OUTPUT` (R223), in a state where `m` keystream bytes have been consumed since initialisation
with `iv`: the keystream bytes themselves. -/
def Obligations.OfbOutputRule : Prop :=
  encode .ofbOutput = 0x00000033 ∧
  ∀ s : State,
    (s.ofb.valid = false → exec .ofbOutput s = .next (s.setResult .noContext)) ∧
    (s.ofb.valid = true → ¬ Admitted s s.dstAddr s.dataLen →
      exec .ofbOutput s = .next (s.setResult .accessFault)) ∧
    (∀ iv m, s.ofb.valid = true → OfbConsumed s.ofb iv m → Admitted s s.dstAddr s.dataLen →
      ∃ t, exec .ofbOutput s = .next t ∧
        (∀ i < s.dataLen, byteAt t (s.dstAddr + i) = ofbKs s.ofb.ctx iv (m + i)) ∧
        SameOutside s t s.dstAddr s.dataLen ∧ OfbConsumed t.ofb iv (m + s.dataLen) ∧
        t = ((s.setMem t.mem).setOfb ⟨true, s.ofb.ctx, t.ofb.ks, t.ofb.off⟩).setResult .ok)

/-- `OFB_XOR_WITH_KEY` (R224): `out[i] = d[i] ^ oks(Expand(k), v, i)`. -/
def Obligations.OfbXorWithKeyRule : Prop :=
  encode (.ofbXorWithKey 16) = 0x00001034 ∧ encode (.ofbXorWithKey 24) = 0x00001834 ∧
  encode (.ofbXorWithKey 32) = 0x00002034 ∧
  ∀ (k : Nat) (s : State),
    (¬ LegalKeySize k → exec (.ofbXorWithKey k) s = .next (s.setResult .invalidKeySize)) ∧
    (LegalKeySize k →
      ¬ (Admitted s s.keyAddr k ∧ Admitted s s.ivAddr 16 ∧ Admitted s s.srcAddr s.dataLen ∧
        Admitted s s.dstAddr s.dataLen) →
      exec (.ofbXorWithKey k) s = .next (s.setResult .accessFault)) ∧
    (LegalKeySize k → Admitted s s.keyAddr k → Admitted s s.ivAddr 16 →
      Admitted s s.srcAddr s.dataLen → Admitted s s.dstAddr s.dataLen →
      ¬ AliasOk s.srcAddr s.dstAddr s.dataLen →
      exec (.ofbXorWithKey k) s = .next (s.setResult .overlapFault)) ∧
    (LegalKeySize k → Admitted s s.keyAddr k → Admitted s s.ivAddr 16 →
      Admitted s s.srcAddr s.dataLen → Admitted s s.dstAddr s.dataLen →
      AliasOk s.srcAddr s.dstAddr s.dataLen →
      ∃ t, exec (.ofbXorWithKey k) s = .next t ∧
        (∀ i < s.dataLen, byteAt t (s.dstAddr + i) =
          byteAt s (s.srcAddr + i) ^^^
            ofbKs (expand (s.memRead s.keyAddr k)) (blockAt s s.ivAddr 0) i) ∧
        SameOutside s t s.dstAddr s.dataLen ∧ OnlyMemory s t)

/-! ### ZEROIZE -/

/-- `ZEROIZE` (R240): every selected slot is the zeroed slot, every other slot as it was, nothing else
but the result changes, in every state and for every mask. -/
def Obligations.ZeroizeRule : Prop :=
  (∀ sel : BitVec 4, (encode (.zeroize sel)).toNat = 0x7F + 0x10000 * sel.toNat) ∧
  ∀ (sel : BitVec 4) (s : State), ∃ t, exec (.zeroize sel) s = .next t ∧
    t.aes = (if sel.getLsbD 0 then AesSlot.zeroed else s.aes) ∧
    t.cbc = (if sel.getLsbD 1 then CbcSlot.zeroed else s.cbc) ∧
    t.ctr = (if sel.getLsbD 2 then CtrSlot.zeroed else s.ctr) ∧
    t.ofb = (if sel.getLsbD 3 then OfbSlot.zeroed else s.ofb) ∧
    t = ((((s.setAes t.aes).setCbc t.cbc).setCtr t.ctr).setOfb t.ofb).setResult .ok

/-! ### The AES functions -/

/-- `D(ctx, E(ctx, b)) = b = E(ctx, D(ctx, b))` for every context made from a key of a legal size and
every block (R142, R140). -/
def Obligations.DecryptionInvertsEncryption : Prop :=
  ∀ (ctx : CipherCtx) (b : Block), Expanded ctx →
    aesD ctx b = invCipher ctx.nr ctx.dk b ∧ aesD ctx (aesE ctx b) = b ∧ aesE ctx (aesD ctx b) = b

/-- The direct inverse cipher, without the decryption schedule, is the same function as `InvCipher` with
the schedule of R137 (R140). -/
def Obligations.DirectInverseIsInvCipher : Prop :=
  ∀ (key : List Byte) (b : Block), LegalKeySize key.length →
    invCipherDirect (expand key).nr (expand key).ek b = invCipher (expand key).nr (expand key).dk b

/-- The inverse round functions undo the round functions, and `InvMixColumns` is linear (R126, R131,
R133). -/
def Obligations.RoundFunctionsInvert : Prop :=
  (∀ s : Block, invSubBytes (subBytes s) = s ∧ invShiftRows (shiftRows s) = s ∧
    invMixColumns (mixColumns s) = s ∧ mixColumns (invMixColumns s) = s) ∧
  ∀ s t : Block, invMixColumns (s.xor t) = (invMixColumns s).xor (invMixColumns t)

/-- `gmul` is commutative and associative and distributes over exclusive-or, with unit 1 and zero 0;
doubling and tripling are `xtime`, the doubled byte reduced by 0x11B (R121, R122). -/
def Obligations.FieldProductLaws : Prop :=
  (∀ a : Byte, (xtime a).toNat =
    if 2 * a.toNat < 256 then 2 * a.toNat else (2 * a.toNat ^^^ 0x11B) % 256) ∧
  (∀ a b : Byte, gmul a b = gmul b a) ∧
  (∀ a b c : Byte, gmul (gmul a b) c = gmul a (gmul b c)) ∧
  (∀ a b c : Byte, gmul a (b ^^^ c) = gmul a b ^^^ gmul a c) ∧
  ∀ a : Byte, gmul a 1 = a ∧ gmul a 0 = 0 ∧ gmul a 2 = xtime a ∧ gmul a 3 = xtime a ^^^ a

/-- `ginv(0) = 0`; for `a != 0` it is the one byte whose product with `a` is 1, and it is `a` to the
power 254; the S-box is the affine map of it (R123, R124). -/
def Obligations.FieldInverseLaws : Prop :=
  ginv 0 = 0 ∧ (∀ a b : Byte, a ≠ 0 → (gmul a b = 1 ↔ b = ginv a)) ∧
  ∀ a : Byte, ginv a = gpow a 254 ∧
    sbox a = ginv a ^^^ (ginv a).rotateLeft 1 ^^^ (ginv a).rotateLeft 2 ^^^ (ginv a).rotateLeft 3
      ^^^ (ginv a).rotateLeft 4 ^^^ 0x63

/-- The key expansion: the first words are the key's, every further word follows the recurrence, with
`RotWord` and `SubWord` written out, and four words make a round key (R136); the round constants are the
powers of `x` (R135). -/
def Obligations.KeyExpansionRecurrence : Prop :=
  (rcon 1 = 0x01 ∧ (∀ j, 1 ≤ j → rcon (j + 1) = xtime (rcon j)) ∧
    (List.range 10).map (fun i => rcon (i + 1)) =
      [0x01, 0x02, 0x04, 0x08, 0x10, 0x20, 0x40, 0x80, 0x1b, 0x36]) ∧
  ∀ key : List Byte, LegalKeySize key.length →
    let nk := key.length / 4
    let nr := nk + 6
    let w := fun i => (scheduleWords key).getD i Col.zero
    (scheduleWords key).length = 4 * (nr + 1) ∧
    (∀ i < nk, w i = Col.ofList (key.drop (4 * i))) ∧
    (∀ i, nk ≤ i → i < 4 * (nr + 1) →
      w i = (w (i - nk)).xor
        (let t := w (i - 1)
        if i % nk = 0 then
          ⟨sbox t.r1 ^^^ rcon (i / nk), sbox t.r2, sbox t.r3, sbox t.r0⟩
        else if nk = 8 ∧ i % nk = 4 then ⟨sbox t.r0, sbox t.r1, sbox t.r2, sbox t.r3⟩
        else t)) ∧
    (expand key).nr = nr ∧
    ∀ r ≤ nr, roundKey (expand key).ek r =
      ⟨w (4 * r), w (4 * r + 1), w (4 * r + 2), w (4 * r + 3)⟩

/-- The decryption schedule: reversed, with `InvMixColumns` on the inner round keys (R137); both schedules
zero above `Nr` (R30, R143). That the transform is `InvMixColumns` is the reference representation, which
cannot be observed (R137, D25; log entry 5). -/
def Obligations.DecryptionSchedule : Prop :=
  ∀ key : List Byte, LegalKeySize key.length →
    let c := expand key
    c.nr = key.length / 4 + 6 ∧ roundKey c.dk 0 = roundKey c.ek c.nr ∧
    roundKey c.dk c.nr = roundKey c.ek 0 ∧
    (∀ r, 1 ≤ r → r < c.nr → roundKey c.dk r = invMixColumns (roundKey c.ek (c.nr - r))) ∧
    ∀ r, c.nr < r → r ≤ 14 → roundKey c.ek r = Block.zero ∧ roundKey c.dk r = Block.zero

/-- The order of the bytes of a block, the round functions byte by byte, and the rounds of the cipher and of its inverse: the block before
every round, the rounds `1` to `Nr - 1`, and the last round, which leaves the column mix out (R127 to
R134, R138, R139). -/
def Obligations.RoundsOfTheCipher : Prop :=
  (∀ (l : List Byte) (i : Nat), i < 16 → (Block.ofList l).byte i = l.getD i 0) ∧
  (∀ (s k : Block) (r c : Nat), r < 4 → c < 4 →
    (subBytes s).byte (r + 4 * c) = sbox (s.byte (r + 4 * c)) ∧
    (invSubBytes s).byte (r + 4 * c) = invSbox (s.byte (r + 4 * c)) ∧
    (shiftRows s).byte (r + 4 * c) = s.byte (r + 4 * ((c + r) % 4)) ∧
    (invShiftRows s).byte (r + 4 * c) = s.byte (r + 4 * ((c + 4 - r) % 4)) ∧
    (mixColumns s).byte (r + 4 * c) =
      gmul (s.byte (r + 4 * c)) 2 ^^^ gmul (s.byte ((r + 1) % 4 + 4 * c)) 3 ^^^
        s.byte ((r + 2) % 4 + 4 * c) ^^^ s.byte ((r + 3) % 4 + 4 * c) ∧
    (invMixColumns s).byte (r + 4 * c) =
      gmul (s.byte (r + 4 * c)) 14 ^^^ gmul (s.byte ((r + 1) % 4 + 4 * c)) 11 ^^^
        gmul (s.byte ((r + 2) % 4 + 4 * c)) 13 ^^^ gmul (s.byte ((r + 3) % 4 + 4 * c)) 9 ∧
    (addRoundKey s k).byte (r + 4 * c) = s.byte (r + 4 * c) ^^^ k.byte (r + 4 * c)) ∧
  ∀ (nr : Nat) (ks : Vector Block 15) (b : Block),
    (∃ st : Nat → Block, st 0 = addRoundKey b (roundKey ks 0) ∧
      (∀ r, 1 ≤ r → r ≤ nr - 1 →
        st r = addRoundKey (mixColumns (shiftRows (subBytes (st (r - 1))))) (roundKey ks r)) ∧
      cipher nr ks b = addRoundKey (shiftRows (subBytes (st (nr - 1)))) (roundKey ks nr)) ∧
    ∃ st : Nat → Block, st 0 = addRoundKey b (roundKey ks 0) ∧
      (∀ r, 1 ≤ r → r ≤ nr - 1 →
        st r = addRoundKey (invMixColumns (invShiftRows (invSubBytes (st (r - 1))))) (roundKey ks r)) ∧
      invCipher nr ks b = addRoundKey (invShiftRows (invSubBytes (st (nr - 1)))) (roundKey ks nr)

/-! ### The laws of the modes -/

/-- CBC streaming, for both directions, and the CBC round trip (R188). -/
def Obligations.CbcLaws : Prop :=
  (∀ (ctx : CipherCtx) (prev : Block) (d1 d2 : List Byte),
    d1.length % 16 = 0 → d2.length % 16 = 0 →
    (cbcEncrypt ctx prev (d1 ++ d2) =
      ((cbcEncrypt ctx prev d1).1 ++ (cbcEncrypt ctx (cbcEncrypt ctx prev d1).2 d2).1,
        (cbcEncrypt ctx (cbcEncrypt ctx prev d1).2 d2).2)) ∧
    (cbcDecrypt ctx prev (d1 ++ d2) =
      ((cbcDecrypt ctx prev d1).1 ++ (cbcDecrypt ctx (cbcDecrypt ctx prev d1).2 d2).1,
        (cbcDecrypt ctx (cbcDecrypt ctx prev d1).2 d2).2))) ∧
  ∀ (ctx : CipherCtx) (iv : Block) (p : List Byte), Expanded ctx → p.length % 16 = 0 →
    (cbcDecrypt ctx iv (cbcEncrypt ctx iv p).1).1 = p

/-- CTR: applying the transform twice from one stream position gives the data back; chunks give what one
call gives; and what a seek to `k` reads depends on the context, the nonce and `k` only (R210). The
counter block is the 8 bytes of the nonce in order, then the block index with its most significant byte
first, and the keystream byte of a position is a byte of its encryption (R206). -/
def Obligations.CtrLaws : Prop :=
  (∀ (iv : Block8) (j : Word64) (i : Nat), i < 8 →
    (iv.append (be64 j)).byte i = iv.toList.getD i 0 ∧
    ((iv.append (be64 j)).byte (8 + i)).toNat = j.toNat / 2 ^ (8 * (7 - i)) % 256) ∧
  (∀ (l : List Byte) (i : Nat), i < 8 → (Block8.ofList l).toList.getD i 0 = l.getD i 0) ∧
  (∀ (ctx : CipherCtx) (iv : Block8) (p : Word64),
    ctrKs ctx iv p =
      (aesE ctx (Block.ofList (iv.toList ++ (List.range 8).map fun i =>
        BitVec.ofNat 8 (p.toNat / 16 / 2 ^ (8 * (7 - i)))))).byte (p.toNat % 16)) ∧
  (∀ (c : CtrSlot) (d : List Byte), (ctrXor c (ctrXor c d).1).1 = d) ∧
  (∀ (c : CtrSlot) (d1 d2 : List Byte),
    ctrXor c (d1 ++ d2) =
      ((ctrXor c d1).1 ++ (ctrXor (ctrXor c d1).2 d2).1, (ctrXor (ctrXor c d1).2 d2).2)) ∧
  ∀ (c : CtrSlot) (k : Word64) (d : List Byte), CtrCached c →
    ∀ i < d.length, (ctrXor (ctrSeek c k) d).1.getD i 0 =
      d.getD i 0 ^^^ ctrKs c.ctx c.iv (k + BitVec.ofNat 64 i)

/-- OFB: applying the transform twice from one state gives the data back, and chunks give what one call
gives, bytes and final state (R227). -/
def Obligations.OfbLaws : Prop :=
  (∀ (o : OfbSlot) (d : List Byte), (ofbXor o (ofbXor o d).1).1 = d) ∧
  ∀ (o : OfbSlot) (d1 d2 : List Byte),
    ofbXor o (d1 ++ d2) =
      ((ofbXor o d1).1 ++ (ofbXor (ofbXor o d1).2 d2).1, (ofbXor (ofbXor o d1).2 d2).2)

/-- A one-shot command leaves the memory that its `*_INIT_WITH_KEY` and then its transform would leave,
and no slot changed (R184, R185, R205, R224). -/
def Obligations.OneShotIsInitThenTransform : Prop :=
  ∀ (k : Nat) (s t : State) (oneShot init transform : Instr),
    (oneShot, init, transform) ∈
      [(.cbcEncryptWithKey k, .cbcInitWithKey k, .cbcEncrypt),
       (.cbcDecryptWithKey k, .cbcInitWithKey k, .cbcDecrypt),
       (.ctrXorWithKey k, .ctrInitWithKey k, .ctrXor),
       (.ofbXorWithKey k, .ofbInitWithKey k, .ofbXor)] →
    exec oneShot s = .next t → t.result = .ok →
    ∃ u v, exec init s = .next u ∧ u.result = .ok ∧ exec transform u = .next v ∧ v.result = .ok ∧
      t = (s.setMem v.mem).setResult .ok

/-- In place, with the buffer disjoint from the key and the IV: `CBC_DECRYPT_WITH_KEY` after
`CBC_ENCRYPT_WITH_KEY`, `CTR_XOR_WITH_KEY` twice and `OFB_XOR_WITH_KEY` twice, each with the same
operands, restore every byte of the memory (R185, R205, R224). -/
def Obligations.OneShotsRestoreTheBuffer : Prop :=
  ∀ (k ivSize : Nat) (s t : State) (forth back : Instr),
    (forth, back, ivSize) ∈
      [(.cbcEncryptWithKey k, .cbcDecryptWithKey k, 16), (.ctrXorWithKey k, .ctrXorWithKey k, 8),
       (.ofbXorWithKey k, .ofbXorWithKey k, 16)] →
    s.srcAddr = s.dstAddr →
    (s.keyAddr + k ≤ s.dstAddr ∨ s.dstAddr + s.dataLen ≤ s.keyAddr) →
    (s.ivAddr + ivSize ≤ s.dstAddr ∨ s.dstAddr + s.dataLen ≤ s.ivAddr) →
    exec forth s = .next t → t.result = .ok →
    ∃ u, exec back t = .next u ∧ u.result = .ok ∧ ∀ x, byteAt u x = byteAt s x
end

