-- ==== Sys2Proof/Laws/Bytes.lean ====
section
/-! SUPPORT. The small laws of blocks: exclusive-or, and the passage between a block and its bytes. -/

namespace Sys2Proof

theorem Col.xor_comm (a b : Col) : a.xor b = b.xor a := by
  simp only [Col.xor, BitVec.xor_comm]

theorem Col.xor_assoc (a b c : Col) : (a.xor b).xor c = a.xor (b.xor c) := by
  simp only [Col.xor, BitVec.xor_assoc]

@[simp] theorem Col.xor_self (a : Col) : a.xor a = Col.zero := by
  simp only [Col.xor, BitVec.xor_self]; rfl

@[simp] theorem Col.xor_zero (a : Col) : a.xor Col.zero = a := by
  cases a; simp [Col.xor, Col.zero]

theorem Block.xor_comm (a b : Block) : a.xor b = b.xor a := by
  simp only [Block.xor, Col.xor_comm]

theorem Block.xor_assoc (a b c : Block) : (a.xor b).xor c = a.xor (b.xor c) := by
  simp only [Block.xor, Col.xor_assoc]

@[simp] theorem Block.xor_self (a : Block) : a.xor a = Block.zero := by
  simp only [Block.xor, Col.xor_self]; rfl

@[simp] theorem Block.xor_zero (a : Block) : a.xor Block.zero = a := by
  cases a; simp [Block.xor, Block.zero]

/-- A key block combined twice is gone. -/
@[simp] theorem Block.xor_xor_cancel (a b : Block) : (a.xor b).xor b = a := by
  rw [Block.xor_assoc, Block.xor_self, Block.xor_zero]

@[simp] theorem Block.length_toList (b : Block) : b.toList.length = 16 := rfl

@[simp] theorem Block8.length_toList (b : Block8) : b.toList.length = 8 := rfl

@[simp] theorem Block.ofList_toList (b : Block) : Block.ofList b.toList = b := rfl

@[simp] theorem Block8.ofList_toList (b : Block8) : Block8.ofList b.toList = b := rfl

/-- The block of a longer sequence is that of its first 16 bytes. -/
@[simp] theorem Block.ofList_toList_append (b : Block) (l : List Byte) :
    Block.ofList (b.toList ++ l) = b := rfl

@[simp] theorem Block.drop_toList_append (b : Block) (l : List Byte) :
    (b.toList ++ l).drop 16 = l := rfl

/-- A sequence of 16 bytes is the sequence of its block. -/
theorem Block.toList_ofList {l : List Byte} (h : l.length = 16) : (Block.ofList l).toList = l := by
  match l, h with
  | [_, _, _, _, _, _, _, _, _, _, _, _, _, _, _, _], _ => rfl

/-- A sequence of 8 bytes is the sequence of its half block. -/
theorem Block8.toList_ofList {l : List Byte} (h : l.length = 8) :
    (Block8.ofList l).toList = l := by
  match l, h with
  | [_, _, _, _, _, _, _, _], _ => rfl

/-- The first 16 bytes of a sequence and the rest. -/
theorem Block.toList_ofList_append_drop {l : List Byte} (h : 16 ≤ l.length) :
    (Block.ofList l).toList ++ l.drop 16 = l := by
  match l, h with
  | _ :: _ :: _ :: _ :: _ :: _ :: _ :: _ :: _ :: _ :: _ :: _ :: _ :: _ :: _ :: _ :: _, _ => rfl

/-- Byte `i` of an exclusive-or of blocks. -/
theorem Block.byte_xor (a b : Block) (i : Nat) (h : i < 16) :
    (a.xor b).byte i = a.byte i ^^^ b.byte i := by
  have : ∀ j : Fin 16, (a.xor b).byte j = a.byte j ^^^ b.byte j := by
    intro j
    fin_cases j <;> rfl
  exact this ⟨i, h⟩

@[simp] theorem length_bytesOfBlocks (bs : List Block) :
    (bytesOfBlocks bs).length = 16 * bs.length := by
  induction bs with
  | nil => rfl
  | cons b bs ih =>
    simp only [bytesOfBlocks, List.length_append, Block.length_toList, ih, List.length_cons]
    omega

@[simp] theorem length_blocksOf (k : Nat) (l : List Byte) : (blocksOf k l).length = k := by
  induction k generalizing l with
  | zero => rfl
  | succ k ih => simp [blocksOf, ih]

/-- The blocks of the bytes of blocks. -/
@[simp] theorem blocksOf_bytesOfBlocks (bs : List Block) :
    blocksOf bs.length (bytesOfBlocks bs) = bs := by
  induction bs with
  | nil => rfl
  | cons b bs ih =>
    simp only [List.length_cons, blocksOf, bytesOfBlocks, Block.ofList_toList_append,
      Block.drop_toList_append, ih]

/-- The bytes of the blocks of a sequence of whole blocks. -/
theorem bytesOfBlocks_blocksOf (k : Nat) (l : List Byte) (h : l.length = 16 * k) :
    bytesOfBlocks (blocksOf k l) = l := by
  induction k generalizing l with
  | zero => simp_all [blocksOf, bytesOfBlocks]
  | succ k ih =>
    rw [blocksOf, bytesOfBlocks, ih (l.drop 16) (by rw [List.length_drop, h]; omega),
      Block.toList_ofList_append_drop (by omega)]

@[simp] theorem length_xorBytes (a b : List Byte) :
    (xorBytes a b).length = min a.length b.length := by
  simp [xorBytes]

end Sys2Proof
end

