-- ==== Sys2Proof/Laws/State.lean ====
section
/-! SUPPORT. One lemma per field of the state per update, so that no proof unfolds a record update. -/

namespace Sys2Proof.Machine

variable (s : State)

@[simp] theorem State.setRegs_regs (v : OperandRegs) : (s.setRegs v).regs = v := rfl
@[simp] theorem State.setRegs_cmd (v : OperandRegs) : (s.setRegs v).cmd = s.cmd := rfl
@[simp] theorem State.setRegs_result (v : OperandRegs) : (s.setRegs v).result = s.result := rfl
@[simp] theorem State.setRegs_aes (v : OperandRegs) : (s.setRegs v).aes = s.aes := rfl
@[simp] theorem State.setRegs_cbc (v : OperandRegs) : (s.setRegs v).cbc = s.cbc := rfl
@[simp] theorem State.setRegs_ctr (v : OperandRegs) : (s.setRegs v).ctr = s.ctr := rfl
@[simp] theorem State.setRegs_ofb (v : OperandRegs) : (s.setRegs v).ofb = s.ofb := rfl
@[simp] theorem State.setRegs_mem (v : OperandRegs) : (s.setRegs v).mem = s.mem := rfl
@[simp] theorem State.setRegs_memBytes (v : OperandRegs) : (s.setRegs v).memBytes = s.memBytes := rfl
@[simp] theorem State.setRegs_script (v : OperandRegs) : (s.setRegs v).script = s.script := rfl
@[simp] theorem State.setRegs_reply (v : OperandRegs) : (s.setRegs v).reply = s.reply := rfl
@[simp] theorem State.setRegs_self : s.setRegs s.regs = s := rfl

@[simp] theorem State.setCmd_regs (v : CommandWord) : (s.setCmd v).regs = s.regs := rfl
@[simp] theorem State.setCmd_cmd (v : CommandWord) : (s.setCmd v).cmd = v := rfl
@[simp] theorem State.setCmd_result (v : CommandWord) : (s.setCmd v).result = s.result := rfl
@[simp] theorem State.setCmd_aes (v : CommandWord) : (s.setCmd v).aes = s.aes := rfl
@[simp] theorem State.setCmd_cbc (v : CommandWord) : (s.setCmd v).cbc = s.cbc := rfl
@[simp] theorem State.setCmd_ctr (v : CommandWord) : (s.setCmd v).ctr = s.ctr := rfl
@[simp] theorem State.setCmd_ofb (v : CommandWord) : (s.setCmd v).ofb = s.ofb := rfl
@[simp] theorem State.setCmd_mem (v : CommandWord) : (s.setCmd v).mem = s.mem := rfl
@[simp] theorem State.setCmd_memBytes (v : CommandWord) : (s.setCmd v).memBytes = s.memBytes := rfl
@[simp] theorem State.setCmd_script (v : CommandWord) : (s.setCmd v).script = s.script := rfl
@[simp] theorem State.setCmd_reply (v : CommandWord) : (s.setCmd v).reply = s.reply := rfl
@[simp] theorem State.setCmd_self : s.setCmd s.cmd = s := rfl

@[simp] theorem State.setResult_regs (v : ResultCode) : (s.setResult v).regs = s.regs := rfl
@[simp] theorem State.setResult_cmd (v : ResultCode) : (s.setResult v).cmd = s.cmd := rfl
@[simp] theorem State.setResult_result (v : ResultCode) : (s.setResult v).result = v := rfl
@[simp] theorem State.setResult_aes (v : ResultCode) : (s.setResult v).aes = s.aes := rfl
@[simp] theorem State.setResult_cbc (v : ResultCode) : (s.setResult v).cbc = s.cbc := rfl
@[simp] theorem State.setResult_ctr (v : ResultCode) : (s.setResult v).ctr = s.ctr := rfl
@[simp] theorem State.setResult_ofb (v : ResultCode) : (s.setResult v).ofb = s.ofb := rfl
@[simp] theorem State.setResult_mem (v : ResultCode) : (s.setResult v).mem = s.mem := rfl
@[simp] theorem State.setResult_memBytes (v : ResultCode) : (s.setResult v).memBytes = s.memBytes := rfl
@[simp] theorem State.setResult_script (v : ResultCode) : (s.setResult v).script = s.script := rfl
@[simp] theorem State.setResult_reply (v : ResultCode) : (s.setResult v).reply = s.reply := rfl
@[simp] theorem State.setResult_self : s.setResult s.result = s := rfl

@[simp] theorem State.setAes_regs (v : AesSlot) : (s.setAes v).regs = s.regs := rfl
@[simp] theorem State.setAes_cmd (v : AesSlot) : (s.setAes v).cmd = s.cmd := rfl
@[simp] theorem State.setAes_result (v : AesSlot) : (s.setAes v).result = s.result := rfl
@[simp] theorem State.setAes_aes (v : AesSlot) : (s.setAes v).aes = v := rfl
@[simp] theorem State.setAes_cbc (v : AesSlot) : (s.setAes v).cbc = s.cbc := rfl
@[simp] theorem State.setAes_ctr (v : AesSlot) : (s.setAes v).ctr = s.ctr := rfl
@[simp] theorem State.setAes_ofb (v : AesSlot) : (s.setAes v).ofb = s.ofb := rfl
@[simp] theorem State.setAes_mem (v : AesSlot) : (s.setAes v).mem = s.mem := rfl
@[simp] theorem State.setAes_memBytes (v : AesSlot) : (s.setAes v).memBytes = s.memBytes := rfl
@[simp] theorem State.setAes_script (v : AesSlot) : (s.setAes v).script = s.script := rfl
@[simp] theorem State.setAes_reply (v : AesSlot) : (s.setAes v).reply = s.reply := rfl
@[simp] theorem State.setAes_self : s.setAes s.aes = s := rfl

@[simp] theorem State.setCbc_regs (v : CbcSlot) : (s.setCbc v).regs = s.regs := rfl
@[simp] theorem State.setCbc_cmd (v : CbcSlot) : (s.setCbc v).cmd = s.cmd := rfl
@[simp] theorem State.setCbc_result (v : CbcSlot) : (s.setCbc v).result = s.result := rfl
@[simp] theorem State.setCbc_aes (v : CbcSlot) : (s.setCbc v).aes = s.aes := rfl
@[simp] theorem State.setCbc_cbc (v : CbcSlot) : (s.setCbc v).cbc = v := rfl
@[simp] theorem State.setCbc_ctr (v : CbcSlot) : (s.setCbc v).ctr = s.ctr := rfl
@[simp] theorem State.setCbc_ofb (v : CbcSlot) : (s.setCbc v).ofb = s.ofb := rfl
@[simp] theorem State.setCbc_mem (v : CbcSlot) : (s.setCbc v).mem = s.mem := rfl
@[simp] theorem State.setCbc_memBytes (v : CbcSlot) : (s.setCbc v).memBytes = s.memBytes := rfl
@[simp] theorem State.setCbc_script (v : CbcSlot) : (s.setCbc v).script = s.script := rfl
@[simp] theorem State.setCbc_reply (v : CbcSlot) : (s.setCbc v).reply = s.reply := rfl
@[simp] theorem State.setCbc_self : s.setCbc s.cbc = s := rfl

@[simp] theorem State.setCtr_regs (v : CtrSlot) : (s.setCtr v).regs = s.regs := rfl
@[simp] theorem State.setCtr_cmd (v : CtrSlot) : (s.setCtr v).cmd = s.cmd := rfl
@[simp] theorem State.setCtr_result (v : CtrSlot) : (s.setCtr v).result = s.result := rfl
@[simp] theorem State.setCtr_aes (v : CtrSlot) : (s.setCtr v).aes = s.aes := rfl
@[simp] theorem State.setCtr_cbc (v : CtrSlot) : (s.setCtr v).cbc = s.cbc := rfl
@[simp] theorem State.setCtr_ctr (v : CtrSlot) : (s.setCtr v).ctr = v := rfl
@[simp] theorem State.setCtr_ofb (v : CtrSlot) : (s.setCtr v).ofb = s.ofb := rfl
@[simp] theorem State.setCtr_mem (v : CtrSlot) : (s.setCtr v).mem = s.mem := rfl
@[simp] theorem State.setCtr_memBytes (v : CtrSlot) : (s.setCtr v).memBytes = s.memBytes := rfl
@[simp] theorem State.setCtr_script (v : CtrSlot) : (s.setCtr v).script = s.script := rfl
@[simp] theorem State.setCtr_reply (v : CtrSlot) : (s.setCtr v).reply = s.reply := rfl
@[simp] theorem State.setCtr_self : s.setCtr s.ctr = s := rfl

@[simp] theorem State.setOfb_regs (v : OfbSlot) : (s.setOfb v).regs = s.regs := rfl
@[simp] theorem State.setOfb_cmd (v : OfbSlot) : (s.setOfb v).cmd = s.cmd := rfl
@[simp] theorem State.setOfb_result (v : OfbSlot) : (s.setOfb v).result = s.result := rfl
@[simp] theorem State.setOfb_aes (v : OfbSlot) : (s.setOfb v).aes = s.aes := rfl
@[simp] theorem State.setOfb_cbc (v : OfbSlot) : (s.setOfb v).cbc = s.cbc := rfl
@[simp] theorem State.setOfb_ctr (v : OfbSlot) : (s.setOfb v).ctr = s.ctr := rfl
@[simp] theorem State.setOfb_ofb (v : OfbSlot) : (s.setOfb v).ofb = v := rfl
@[simp] theorem State.setOfb_mem (v : OfbSlot) : (s.setOfb v).mem = s.mem := rfl
@[simp] theorem State.setOfb_memBytes (v : OfbSlot) : (s.setOfb v).memBytes = s.memBytes := rfl
@[simp] theorem State.setOfb_script (v : OfbSlot) : (s.setOfb v).script = s.script := rfl
@[simp] theorem State.setOfb_reply (v : OfbSlot) : (s.setOfb v).reply = s.reply := rfl
@[simp] theorem State.setOfb_self : s.setOfb s.ofb = s := rfl

@[simp] theorem State.setMem_regs (v : Memory) : (s.setMem v).regs = s.regs := rfl
@[simp] theorem State.setMem_cmd (v : Memory) : (s.setMem v).cmd = s.cmd := rfl
@[simp] theorem State.setMem_result (v : Memory) : (s.setMem v).result = s.result := rfl
@[simp] theorem State.setMem_aes (v : Memory) : (s.setMem v).aes = s.aes := rfl
@[simp] theorem State.setMem_cbc (v : Memory) : (s.setMem v).cbc = s.cbc := rfl
@[simp] theorem State.setMem_ctr (v : Memory) : (s.setMem v).ctr = s.ctr := rfl
@[simp] theorem State.setMem_ofb (v : Memory) : (s.setMem v).ofb = s.ofb := rfl
@[simp] theorem State.setMem_mem (v : Memory) : (s.setMem v).mem = v := rfl
@[simp] theorem State.setMem_memBytes (v : Memory) : (s.setMem v).memBytes = s.memBytes := rfl
@[simp] theorem State.setMem_script (v : Memory) : (s.setMem v).script = s.script := rfl
@[simp] theorem State.setMem_reply (v : Memory) : (s.setMem v).reply = s.reply := rfl
@[simp] theorem State.setMem_self : s.setMem s.mem = s := rfl

@[simp] theorem State.setScript_regs (v : List HostStep) : (s.setScript v).regs = s.regs := rfl
@[simp] theorem State.setScript_cmd (v : List HostStep) : (s.setScript v).cmd = s.cmd := rfl
@[simp] theorem State.setScript_result (v : List HostStep) : (s.setScript v).result = s.result := rfl
@[simp] theorem State.setScript_aes (v : List HostStep) : (s.setScript v).aes = s.aes := rfl
@[simp] theorem State.setScript_cbc (v : List HostStep) : (s.setScript v).cbc = s.cbc := rfl
@[simp] theorem State.setScript_ctr (v : List HostStep) : (s.setScript v).ctr = s.ctr := rfl
@[simp] theorem State.setScript_ofb (v : List HostStep) : (s.setScript v).ofb = s.ofb := rfl
@[simp] theorem State.setScript_mem (v : List HostStep) : (s.setScript v).mem = s.mem := rfl
@[simp] theorem State.setScript_memBytes (v : List HostStep) : (s.setScript v).memBytes = s.memBytes := rfl
@[simp] theorem State.setScript_script (v : List HostStep) : (s.setScript v).script = v := rfl
@[simp] theorem State.setScript_reply (v : List HostStep) : (s.setScript v).reply = s.reply := rfl
@[simp] theorem State.setScript_self : s.setScript s.script = s := rfl

@[simp] theorem State.setReply_regs (v : HostReply) : (s.setReply v).regs = s.regs := rfl
@[simp] theorem State.setReply_cmd (v : HostReply) : (s.setReply v).cmd = s.cmd := rfl
@[simp] theorem State.setReply_result (v : HostReply) : (s.setReply v).result = s.result := rfl
@[simp] theorem State.setReply_aes (v : HostReply) : (s.setReply v).aes = s.aes := rfl
@[simp] theorem State.setReply_cbc (v : HostReply) : (s.setReply v).cbc = s.cbc := rfl
@[simp] theorem State.setReply_ctr (v : HostReply) : (s.setReply v).ctr = s.ctr := rfl
@[simp] theorem State.setReply_ofb (v : HostReply) : (s.setReply v).ofb = s.ofb := rfl
@[simp] theorem State.setReply_mem (v : HostReply) : (s.setReply v).mem = s.mem := rfl
@[simp] theorem State.setReply_memBytes (v : HostReply) : (s.setReply v).memBytes = s.memBytes := rfl
@[simp] theorem State.setReply_script (v : HostReply) : (s.setReply v).script = s.script := rfl
@[simp] theorem State.setReply_reply (v : HostReply) : (s.setReply v).reply = v := rfl
@[simp] theorem State.setReply_self : s.setReply s.reply = s := rfl

@[simp] theorem raise_regs (e : ResultCode) : (raise e s).regs = s.regs := rfl
@[simp] theorem raise_cmd (e : ResultCode) : (raise e s).cmd = s.cmd := rfl
@[simp] theorem raise_result (e : ResultCode) : (raise e s).result = e := rfl
@[simp] theorem raise_aes (e : ResultCode) : (raise e s).aes = s.aes := rfl
@[simp] theorem raise_cbc (e : ResultCode) : (raise e s).cbc = s.cbc := rfl
@[simp] theorem raise_ctr (e : ResultCode) : (raise e s).ctr = s.ctr := rfl
@[simp] theorem raise_ofb (e : ResultCode) : (raise e s).ofb = s.ofb := rfl
@[simp] theorem raise_mem (e : ResultCode) : (raise e s).mem = s.mem := rfl
@[simp] theorem raise_memBytes (e : ResultCode) : (raise e s).memBytes = s.memBytes := rfl
@[simp] theorem raise_script (e : ResultCode) : (raise e s).script = s.script := rfl
@[simp] theorem raise_reply (e : ResultCode) : (raise e s).reply = s.reply := rfl

@[simp] theorem complete_regs : (complete s).regs = s.regs := rfl
@[simp] theorem complete_cmd : (complete s).cmd = s.cmd := rfl
@[simp] theorem complete_result : (complete s).result = .ok := rfl
@[simp] theorem complete_aes : (complete s).aes = s.aes := rfl
@[simp] theorem complete_cbc : (complete s).cbc = s.cbc := rfl
@[simp] theorem complete_ctr : (complete s).ctr = s.ctr := rfl
@[simp] theorem complete_ofb : (complete s).ofb = s.ofb := rfl
@[simp] theorem complete_mem : (complete s).mem = s.mem := rfl
@[simp] theorem complete_memBytes : (complete s).memBytes = s.memBytes := rfl
@[simp] theorem complete_script : (complete s).script = s.script := rfl
@[simp] theorem complete_reply : (complete s).reply = s.reply := rfl

@[simp] theorem State.memWrite_regs (a : Nat) (bs : List Byte) :
    (s.memWrite a bs).regs = s.regs := rfl
@[simp] theorem State.memWrite_cmd (a : Nat) (bs : List Byte) :
    (s.memWrite a bs).cmd = s.cmd := rfl
@[simp] theorem State.memWrite_result (a : Nat) (bs : List Byte) :
    (s.memWrite a bs).result = s.result := rfl
@[simp] theorem State.memWrite_aes (a : Nat) (bs : List Byte) :
    (s.memWrite a bs).aes = s.aes := rfl
@[simp] theorem State.memWrite_cbc (a : Nat) (bs : List Byte) :
    (s.memWrite a bs).cbc = s.cbc := rfl
@[simp] theorem State.memWrite_ctr (a : Nat) (bs : List Byte) :
    (s.memWrite a bs).ctr = s.ctr := rfl
@[simp] theorem State.memWrite_ofb (a : Nat) (bs : List Byte) :
    (s.memWrite a bs).ofb = s.ofb := rfl
@[simp] theorem State.memWrite_mem (a : Nat) (bs : List Byte) :
    (s.memWrite a bs).mem = Memory.writeBytes s.mem a bs := rfl
@[simp] theorem State.memWrite_memBytes (a : Nat) (bs : List Byte) :
    (s.memWrite a bs).memBytes = s.memBytes := rfl
@[simp] theorem State.memWrite_script (a : Nat) (bs : List Byte) :
    (s.memWrite a bs).script = s.script := rfl
@[simp] theorem State.memWrite_reply (a : Nat) (bs : List Byte) :
    (s.memWrite a bs).reply = s.reply := rfl

@[simp] theorem State.applyReset_regs : s.applyReset.regs = State.reset.regs := rfl
@[simp] theorem State.applyReset_cmd : s.applyReset.cmd = State.reset.cmd := rfl
@[simp] theorem State.applyReset_result : s.applyReset.result = State.reset.result := rfl
@[simp] theorem State.applyReset_aes : s.applyReset.aes = State.reset.aes := rfl
@[simp] theorem State.applyReset_cbc : s.applyReset.cbc = State.reset.cbc := rfl
@[simp] theorem State.applyReset_ctr : s.applyReset.ctr = State.reset.ctr := rfl
@[simp] theorem State.applyReset_ofb : s.applyReset.ofb = State.reset.ofb := rfl
@[simp] theorem State.applyReset_mem : s.applyReset.mem = s.mem := rfl
@[simp] theorem State.applyReset_memBytes : s.applyReset.memBytes = s.memBytes := rfl
@[simp] theorem State.applyReset_script : s.applyReset.script = s.script := rfl
@[simp] theorem State.applyReset_reply : s.applyReset.reply = s.reply := rfl

/-- Two states are equal when their fields are. -/
theorem State.ext_fields {s t : State} (h1 : s.regs = t.regs) (h2 : s.cmd = t.cmd)
    (h3 : s.result = t.result) (h4 : s.aes = t.aes) (h5 : s.cbc = t.cbc) (h6 : s.ctr = t.ctr)
    (h7 : s.ofb = t.ofb) (h8 : s.mem = t.mem) (h9 : s.memBytes = t.memBytes)
    (h10 : s.script = t.script) (h11 : s.reply = t.reply) : s = t := by
  cases s; cases t; simp_all

@[simp] theorem OperandRegs.get_set_same (x : OperandRegs) (r : Reg) (v : Word64) :
    (x.set r v).get r = v := by
  cases r <;> rfl

@[simp] theorem OperandRegs.get_set_other (x : OperandRegs) {r q : Reg} (v : Word64) (h : q ≠ r) :
    (x.set r v).get q = x.get q := by
  cases r <;> cases q <;> first | rfl | exact absurd rfl h

end Sys2Proof.Machine
end

