-- ==== Sys2Proof/Laws/Command.lean ====
section
/-! SUPPORT. What a command can do, once: it fails with the first check that does not pass, or it
completes; and what each check says (spec/60_exceptions.md R251, R258). -/

namespace Sys2Proof.Machine

@[simp] theorem firstFailure_nil : firstFailure [] = none := rfl

/-- The first failure of a list of checks, one check at a time. -/
theorem firstFailure_cons (c : Check) (cs : List Check) :
    firstFailure (c :: cs) = if c.passes then firstFailure cs else some c.error := rfl

/-- No failure: every check passes. -/
theorem firstFailure_eq_none {cs : List Check} :
    firstFailure cs = none ↔ ∀ c ∈ cs, c.passes = true := by
  induction cs with
  | nil => simp
  | cons c cs ih =>
    rw [firstFailure_cons]
    cases h : c.passes <;> simp [h, ih]

/-- A failure is the error of a check that does not pass. -/
theorem firstFailure_eq_some {cs : List Check} {e : ResultCode} (h : firstFailure cs = some e) :
    ∃ c ∈ cs, c.passes = false ∧ c.error = e := by
  induction cs with
  | nil => simp at h
  | cons c cs ih =>
    rw [firstFailure_cons] at h
    cases hc : c.passes
    · exact ⟨c, by simp, hc, by simpa [hc] using h⟩
    · obtain ⟨d, hd, h'⟩ := ih (by simpa [hc] using h)
      exact ⟨d, by simp [hd], h'⟩

/-- A command whose checks all pass completes its operation. -/
theorem runCommand_ok {cs : List Check} {op : State → State} {s : State}
    (h : firstFailure cs = none) : runCommand cs op s = .next (complete (op s)) := by
  simp only [runCommand, h]

/-- A command with a check that fails raises and does nothing else. -/
theorem runCommand_raise {cs : List Check} {op : State → State} {s : State} {e : ResultCode}
    (h : firstFailure cs = some e) : runCommand cs op s = .next (raise e s) := by
  simp only [runCommand, h]

/-- Everything a command can do. -/
theorem runCommand_cases {cs : List Check} {op : State → State} {s t : State}
    (h : runCommand cs op s = .next t) :
    (firstFailure cs = none ∧ t = complete (op s)) ∨
    ∃ e, firstFailure cs = some e ∧ t = raise e s := by
  unfold runCommand at h
  split at h
  · next e he => exact .inr ⟨e, he, by injection h with h; exact h.symm⟩
  · next hn => exact .inl ⟨hn, by injection h with h; exact h.symm⟩

@[simp] theorem keySizeCheck_passes (k : Nat) :
    (keySizeCheck k).passes = true ↔ Safety.LegalKeySize k := by
  simp [keySizeCheck, Config.keySizes, Safety.LegalKeySize]

@[simp] theorem contextCheck_passes (b : Bool) : (contextCheck b).passes = b := rfl

@[simp] theorem alignCheck_passes (s : State) :
    (alignCheck s).passes = true ↔ s.dataLen % 16 = 0 := by
  exact decide_eq_true_iff

@[simp] theorem accessCheck_passes (s : State) (rs : List Range) :
    (accessCheck s rs).passes = true ↔ ∀ r ∈ rs, r.addr + r.size ≤ s.memBytes := by
  simp [accessCheck, admitted]

/-- The overlap check passes on the same range and on disjoint ranges; at length 0 always. -/
theorem overlapCheck_passes (a b n : Nat) :
    (overlapCheck a b n).passes = true ↔ n = 0 ∨ Safety.AliasOk a b n := by
  simp only [overlapCheck, overlapsPartially, Safety.AliasOk, Bool.not_eq_true',
    decide_eq_false_iff_not]
  omega

@[simp] theorem keySizeCheck_error (k : Nat) : (keySizeCheck k).error = .invalidKeySize := rfl

@[simp] theorem contextCheck_error (b : Bool) : (contextCheck b).error = .noContext := rfl

@[simp] theorem alignCheck_error (s : State) : (alignCheck s).error = .sizeNotBlockAligned := rfl

@[simp] theorem accessCheck_error (s : State) (rs : List Range) :
    (accessCheck s rs).error = .accessFault := rfl

@[simp] theorem overlapCheck_error (a b n : Nat) : (overlapCheck a b n).error = .overlapFault := rfl

end Sys2Proof.Machine
end

