-- ==== Sys2Proof/Laws/Modes.lean ====
section
/-! SUPPORT. What the transforms of the three modes keep: the length of the data, and the fields of the
slot that a stream never changes (spec/10_state.md R34, R35, R37). -/

namespace Sys2Proof.Machine

@[simp] theorem cbcEncryptBlocks_length (ctx : CipherCtx) (prev : Block) (ps : List Block) :
    (cbcEncryptBlocks ctx prev ps).1.length = ps.length := by
  induction ps generalizing prev with
  | nil => rfl
  | cons p ps ih => simp [cbcEncryptBlocks, ih]

@[simp] theorem cbcDecryptBlocks_length (ctx : CipherCtx) (prev : Block) (cs : List Block) :
    (cbcDecryptBlocks ctx prev cs).1.length = cs.length := by
  induction cs generalizing prev with
  | nil => rfl
  | cons c cs ih => simp [cbcDecryptBlocks, ih]

theorem cbcEncrypt_length (ctx : CipherCtx) (prev : Block) (d : List Byte) :
    (cbcEncrypt ctx prev d).1.length = 16 * (d.length / 16) := by
  simp [cbcEncrypt, onBlocks]

theorem cbcDecrypt_length (ctx : CipherCtx) (prev : Block) (d : List Byte) :
    (cbcDecrypt ctx prev d).1.length = 16 * (d.length / 16) := by
  simp [cbcDecrypt, onBlocks]

@[simp] theorem ctrSeek_valid (c : CtrSlot) (i : Word64) : (ctrSeek c i).valid = c.valid := by
  simp only [ctrSeek]; split <;> rfl

@[simp] theorem ctrSeek_ctx (c : CtrSlot) (i : Word64) : (ctrSeek c i).ctx = c.ctx := by
  simp only [ctrSeek]; split <;> rfl

@[simp] theorem ctrSeek_iv (c : CtrSlot) (i : Word64) : (ctrSeek c i).iv = c.iv := by
  simp only [ctrSeek]; split <;> rfl

@[simp] theorem ctrSeek_sidx (c : CtrSlot) (i : Word64) : (ctrSeek c i).sidx = i := by
  simp only [ctrSeek]; split <;> rfl

@[simp] theorem ctrSeek_bidx (c : CtrSlot) (i : Word64) : (ctrSeek c i).bidx = blockIndex i := by
  simp only [ctrSeek]; split
  · next h => exact h.symm
  · rfl

@[simp] theorem blockIndex_toNat (i : Word64) : (blockIndex i).toNat = i.toNat / 16 := by
  simp [blockIndex, BitVec.toNat_ushiftRight, Nat.shiftRight_eq_div_pow]

@[simp] theorem ctrXor_length (c : CtrSlot) (d : List Byte) : (ctrXor c d).1.length = d.length := by
  induction d generalizing c with
  | nil => rfl
  | cons b d ih => simp [ctrXor, ih]

/-- A CTR transform changes only `SIDX`, `BIDX` and `KS` of the slot. -/
theorem ctrXor_keeps (c : CtrSlot) (d : List Byte) :
    (ctrXor c d).2.valid = c.valid ∧ (ctrXor c d).2.ctx = c.ctx ∧ (ctrXor c d).2.iv = c.iv := by
  induction d generalizing c with
  | nil => exact ⟨rfl, rfl, rfl⟩
  | cons b d ih => simpa [ctrXor] using ih (ctrSeek c (c.sidx + 1))

@[simp] theorem ofbRefill_valid (o : OfbSlot) : (ofbRefill o).valid = o.valid := by
  unfold ofbRefill; split <;> rfl

@[simp] theorem ofbRefill_ctx (o : OfbSlot) : (ofbRefill o).ctx = o.ctx := by
  unfold ofbRefill; split <;> rfl

/-- After a refill there is a byte to use. -/
theorem ofbRefill_off_lt (o : OfbSlot) : (ofbRefill o).off.val < 16 := by
  unfold ofbRefill
  split
  · show (0 : Nat) < 16
    omega
  · next h =>
    have := o.off.isLt
    have : o.off.val ≠ 16 := fun h' => h (Fin.ext h')
    omega

@[simp] theorem ofbXor_length (o : OfbSlot) (d : List Byte) : (ofbXor o d).1.length = d.length := by
  induction d generalizing o with
  | nil => rfl
  | cons b d ih => simp [ofbXor, ih]

/-- An OFB transform changes only `KS` and `OFF` of the slot. -/
theorem ofbXor_keeps (o : OfbSlot) (d : List Byte) :
    (ofbXor o d).2.valid = o.valid ∧ (ofbXor o d).2.ctx = o.ctx := by
  induction d generalizing o with
  | nil => exact ⟨rfl, rfl⟩
  | cons b d ih => simpa [ofbXor, ofbAdvance] using ih (ofbAdvance (ofbRefill o))

end Sys2Proof.Machine
end

