-- ==== Sys2Proof/Laws/Exec.lean ====
section
/-! SUPPORT. What a command can do, said once: its checks as a list, its effect as one record of the next
state, and the lemma that `exec` is the one and then the other. -/

namespace Sys2Proof.Machine

open Sys2Proof.Safety

/-- The checks of a command (R251), as its meaning lists them. -/
def checksOf (s : State) : Instr → List Check
  | .aesInit k => [keySizeCheck k, accessCheck s [keyRange s k]]
  | .aesEncrypt => blockChecks s
  | .aesDecrypt => blockChecks s
  | .xorBuf =>
    [accessCheck s [srcRange s s.dataLen, src2Range s s.dataLen, dstRange s s.dataLen],
     overlapCheck s.srcAddr s.dstAddr s.dataLen, overlapCheck s.src2Addr s.dstAddr s.dataLen]
  | .cbcInit => [contextCheck s.aes.valid, accessCheck s [ivRange s 16]]
  | .cbcInitWithKey k => [keySizeCheck k, accessCheck s [keyRange s k, ivRange s 16]]
  | .cbcEncrypt => cbcChecks s
  | .cbcDecrypt => cbcChecks s
  | .cbcEncryptWithKey k => cbcOneShotChecks k s
  | .cbcDecryptWithKey k => cbcOneShotChecks k s
  | .ctrInit => [contextCheck s.aes.valid, accessCheck s [ivRange s 8]]
  | .ctrInitWithKey k => [keySizeCheck k, accessCheck s [keyRange s k, ivRange s 8]]
  | .ctrSetStreamIndex => [contextCheck s.ctr.valid]
  | .ctrXor =>
    [contextCheck s.ctr.valid, accessCheck s [srcRange s s.dataLen, dstRange s s.dataLen],
     overlapCheck s.srcAddr s.dstAddr s.dataLen]
  | .ctrOutput => [contextCheck s.ctr.valid, accessCheck s [dstRange s s.dataLen]]
  | .ctrXorWithKey k =>
    [keySizeCheck k,
     accessCheck s [keyRange s k, ivRange s 8, srcRange s s.dataLen, dstRange s s.dataLen],
     overlapCheck s.srcAddr s.dstAddr s.dataLen]
  | .ofbInit => [contextCheck s.aes.valid, accessCheck s [ivRange s 16]]
  | .ofbInitWithKey k => [keySizeCheck k, accessCheck s [keyRange s k, ivRange s 16]]
  | .ofbXor =>
    [contextCheck s.ofb.valid, accessCheck s [srcRange s s.dataLen, dstRange s s.dataLen],
     overlapCheck s.srcAddr s.dstAddr s.dataLen]
  | .ofbOutput => [contextCheck s.ofb.valid, accessCheck s [dstRange s s.dataLen]]
  | .ofbXorWithKey k =>
    [keySizeCheck k,
     accessCheck s [keyRange s k, ivRange s 16, srcRange s s.dataLen, dstRange s s.dataLen],
     overlapCheck s.srcAddr s.dstAddr s.dataLen]
  | .zeroize _ => []

/-- What `CTR_OUTPUT` and `OFB_OUTPUT` transform: `x[LEN]` zero bytes (R204, R223). -/
def zeros (s : State) : List Byte := List.replicate s.dataLen 0

/-- The bytes a command writes at `x[DST]`. -/
def outputOf (s : State) : Instr → List Byte
  | .aesEncrypt => (aesE s.aes.ctx s.srcBlock).toList
  | .aesDecrypt => (aesD s.aes.ctx s.srcBlock).toList
  | .xorBuf => xorBytes s.srcData s.src2Data
  | .cbcEncrypt => (cbcEncrypt s.cbc.ctx s.cbc.prev s.srcData).1
  | .cbcDecrypt => (cbcDecrypt s.cbc.ctx s.cbc.prev s.srcData).1
  | .cbcEncryptWithKey k => (cbcEncrypt (expand (s.keyBytes k)) s.ivBlock s.srcData).1
  | .cbcDecryptWithKey k => (cbcDecrypt (expand (s.keyBytes k)) s.ivBlock s.srcData).1
  | .ctrXor => (ctrXor s.ctr s.srcData).1
  | .ctrOutput => (ctrXor s.ctr (zeros s)).1
  | .ctrXorWithKey k => (ctrXor (ctrInitSlot (expand (s.keyBytes k)) s.nonce) s.srcData).1
  | .ofbXor => (ofbXor s.ofb s.srcData).1
  | .ofbOutput => (ofbXor s.ofb (zeros s)).1
  | .ofbXorWithKey k => (ofbXor (ofbInitSlot (expand (s.keyBytes k)) s.ivBlock) s.srcData).1
  | .aesInit _ | .cbcInit | .cbcInitWithKey _ | .ctrInit | .ctrInitWithKey _ => []
  | .ctrSetStreamIndex | .ofbInit | .ofbInitWithKey _ | .zeroize _ => []

/-- The AES slot after a command that passed its checks. -/
def aesAfter (s : State) : Instr → AesSlot
  | .aesInit k => ⟨true, expand (s.keyBytes k)⟩
  | .zeroize sel => if sel.getLsbD 0 then AesSlot.zeroed else s.aes
  | _ => s.aes

/-- The CBC slot after a command that passed its checks. -/
def cbcAfter (s : State) : Instr → CbcSlot
  | .cbcInit => cbcInitSlot s.aes.ctx s.ivBlock
  | .cbcInitWithKey k => cbcInitSlot (expand (s.keyBytes k)) s.ivBlock
  | .cbcEncrypt => { s.cbc with prev := (cbcEncrypt s.cbc.ctx s.cbc.prev s.srcData).2 }
  | .cbcDecrypt => { s.cbc with prev := (cbcDecrypt s.cbc.ctx s.cbc.prev s.srcData).2 }
  | .zeroize sel => if sel.getLsbD 1 then CbcSlot.zeroed else s.cbc
  | _ => s.cbc

/-- The CTR slot after a command that passed its checks. -/
def ctrAfter (s : State) : Instr → CtrSlot
  | .ctrInit => ctrInitSlot s.aes.ctx s.nonce
  | .ctrInitWithKey k => ctrInitSlot (expand (s.keyBytes k)) s.nonce
  | .ctrSetStreamIndex => ctrSeek s.ctr s.regs.idx
  | .ctrXor => (ctrXor s.ctr s.srcData).2
  | .ctrOutput => (ctrXor s.ctr (zeros s)).2
  | .zeroize sel => if sel.getLsbD 2 then CtrSlot.zeroed else s.ctr
  | _ => s.ctr

/-- The OFB slot after a command that passed its checks. -/
def ofbAfter (s : State) : Instr → OfbSlot
  | .ofbInit => ofbInitSlot s.aes.ctx s.ivBlock
  | .ofbInitWithKey k => ofbInitSlot (expand (s.keyBytes k)) s.ivBlock
  | .ofbXor => (ofbXor s.ofb s.srcData).2
  | .ofbOutput => (ofbXor s.ofb (zeros s)).2
  | .zeroize sel => if sel.getLsbD 3 then OfbSlot.zeroed else s.ofb
  | _ => s.ofb

/-- The state a command leaves when all its checks pass. -/
def successOf (s : State) (i : Instr) : State :=
  { s with
    result := .ok
    aes := aesAfter s i
    cbc := cbcAfter s i
    ctr := ctrAfter s i
    ofb := ofbAfter s i
    mem := Memory.writeBytes s.mem s.dstAddr (outputOf s i) }

/-- A command is its checks, then its effect. -/
theorem exec_eq (i : Instr) (s : State) : exec i s =
    match firstFailure (checksOf s i) with
    | some e => .next (s.setResult e)
    | none => .next (successOf s i) := by
  cases i <;> rfl

/-- All that a command can do: its whole effect, or an error result and nothing else. -/
theorem exec_cases {i : Instr} {s t : State} (h : exec i s = .next t) :
    firstFailure (checksOf s i) = none ∧ t = successOf s i ∨
    ∃ e, firstFailure (checksOf s i) = some e ∧ t = s.setResult e := by
  rw [exec_eq] at h
  cases hf : firstFailure (checksOf s i) with
  | none => rw [hf] at h; cases h; exact .inl ⟨rfl, rfl⟩
  | some e => rw [hf] at h; cases h; exact .inr ⟨e, rfl, rfl⟩

/-- No check raises `OK`. -/
theorem checksOf_error (s : State) (i : Instr) : ∀ c ∈ checksOf s i, c.error ≠ .ok := by
  cases i <;> simp [checksOf, blockChecks, cbcChecks, cbcOneShotChecks]

theorem firstFailure_ne_ok {s : State} {i : Instr} {e : ResultCode}
    (h : firstFailure (checksOf s i) = some e) : e ≠ .ok := by
  obtain ⟨c, hc, -, rfl⟩ := firstFailure_eq_some h
  exact checksOf_error s i c hc

/-- A command that answers with result `OK` passed all its checks. -/
theorem exec_ok {i : Instr} {s t : State} (h : exec i s = .next t) (hr : t.result = .ok) :
    firstFailure (checksOf s i) = none ∧ t = successOf s i := by
  obtain h | ⟨e, he, rfl⟩ := exec_cases h
  · exact h
  · exact absurd hr (firstFailure_ne_ok he)

/-- A command that passed its checks writes exactly its output range. -/
theorem outputOf_length {s : State} {i : Instr} (h : firstFailure (checksOf s i) = none) :
    (outputOf s i).length = (outputSize s i).getD 0 := by
  have hc := firstFailure_eq_none.1 h
  have hd : s.srcData.length = s.dataLen := Memory.length_readBytes _ _ _
  have hd2 : s.src2Data.length = s.dataLen := Memory.length_readBytes _ _ _
  have al : ∀ {cs : List Check}, (alignCheck s) ∈ cs → (∀ c ∈ cs, c.passes = true) → s.dataLen % 16 = 0 :=
    fun h1 h2 => (alignCheck_passes s).1 (h2 _ h1)
  have q : s.dataLen % 16 = 0 → 16 * (s.dataLen / 16) = s.dataLen := by omega
  cases i <;> simp only [outputOf, outputSize, Option.getD, List.length_nil, Block.length_toList,
    length_xorBytes, hd, hd2, Nat.min_self, cbcEncrypt_length, cbcDecrypt_length, ctrXor_length,
    ofbXor_length, zeros, List.length_replicate]
  all_goals exact q (al (by simp [checksOf, cbcChecks, cbcOneShotChecks]) hc)

end Sys2Proof.Machine
end

