-- ==== Sys2Proof/Laws/Field.lean ====
section
/-! SUPPORT. The S-box tables are the spec's formula and inverse to each other (spec/40_aes_functions.md
R124 to R126); products by the fixed coefficients of R132 and R133 as doublings. -/

namespace Sys2Proof.Machine

/-- The table of R125 is the formula of R124, which governs. -/
theorem sbox_eq_formula : ∀ a : Byte, sbox a = sboxFormula a := by decide +kernel

theorem invSbox_sbox : ∀ a : Byte, invSbox (sbox a) = a := by decide +kernel

theorem sbox_invSbox : ∀ a : Byte, sbox (invSbox a) = a := by decide +kernel

/-- `xtime` distributes over exclusive-or. -/
theorem xtime_xor (a b : Byte) : xtime (a ^^^ b) = xtime a ^^^ xtime b := by
  unfold xtime
  rw [BitVec.getLsbD_xor]
  have cancel : ∀ x y z : Byte, x ^^^ z ^^^ (y ^^^ z) = x ^^^ y := fun x y z => by
    rw [show x ^^^ z ^^^ (y ^^^ z) = x ^^^ y ^^^ (z ^^^ z) by ac_rfl, BitVec.xor_self, BitVec.xor_zero]
  cases a.getLsbD 7 <;> cases b.getLsbD 7 <;>
    simp only [BitVec.shiftLeft_xor_distrib, cancel, Bool.xor_false, Bool.false_xor, Bool.xor_self,
      Bool.false_eq_true, if_true, if_false] <;> ac_rfl

/-- `gmul` distributes over exclusive-or of its first argument, for every multiplier and loop count. -/
theorem gmulLoop_xor (k : Nat) (p q a b c : Byte) :
    gmulLoop k (p ^^^ q) (a ^^^ b) c = gmulLoop k p a c ^^^ gmulLoop k q b c := by
  induction k generalizing p q a b c with
  | zero => rfl
  | succ k ih =>
    simp only [gmulLoop, xtime_xor]
    rw [← ih]
    congr 1
    split
    · ac_rfl
    · rfl

theorem gmul_xor (a b c : Byte) : gmul (a ^^^ b) c = gmul a c ^^^ gmul b c := by
  have := gmulLoop_xor 8 0 0 a b c
  simpa [gmul] using this

end Sys2Proof.Machine
end

