-- ==== Sys2Proof/Laws/PerInstr.lean ====
section
/-! SUPPORT. For every command: its encoding selects the command's row of spec/opcode_table.json
(spec/30_encoding.md R95), whatever its fields. -/

namespace Sys2Proof.Laws.TableRow

/-- The mask of a command's row (R95). -/
def rowMask (i : Instr) : CommandWord :=
  if i.isKeyed then keyedMask else if i.usesSel then zeroizeMask else plainMask

/-- The encoding of a well-formed command selects its row: `w AND mask == match`, and the match is the
opcode (R95). -/
def Statement (i : Instr) : Prop :=
  i.wellFormed = true → encode i &&& rowMask i = BitVec.ofNat 32 i.opcode

/-- A keyed encoding without its `KSZ` field is its opcode, when it is so for each of the 256 values. -/
theorem keyed_word (op : Nat) {k : Nat} (hk : k ≤ 255)
    (h : ∀ q : Fin 256, BitVec.ofNat 32 (op + 256 * q.val + 65536 * 0) &&& keyedMask
      = BitVec.ofNat 32 op) :
    BitVec.ofNat 32 (op + 256 * k + 65536 * 0) &&& keyedMask = BitVec.ofNat 32 op :=
  h ⟨k, by omega⟩

/-- The encoding of `ZEROIZE` without its `SEL` field is its opcode. -/
theorem zeroize_word (sel : BitVec 4) :
    BitVec.ofNat 32 (0x7F + 256 * 0 + 65536 * sel.toNat) &&& zeroizeMask = BitVec.ofNat 32 0x7F := by
  revert sel
  decide

theorem aesInit (k : Nat) : Statement (.aesInit k) := fun h =>
  keyed_word 0x01 (of_decide_eq_true h) (by decide +kernel)

theorem aesEncrypt : Statement .aesEncrypt := fun _ => by decide

theorem aesDecrypt : Statement .aesDecrypt := fun _ => by decide

theorem xorBuf : Statement .xorBuf := fun _ => by decide

theorem cbcInit : Statement .cbcInit := fun _ => by decide

theorem cbcInitWithKey (k : Nat) : Statement (.cbcInitWithKey k) := fun h =>
  keyed_word 0x11 (of_decide_eq_true h) (by decide +kernel)

theorem cbcEncrypt : Statement .cbcEncrypt := fun _ => by decide

theorem cbcDecrypt : Statement .cbcDecrypt := fun _ => by decide

theorem cbcEncryptWithKey (k : Nat) : Statement (.cbcEncryptWithKey k) := fun h =>
  keyed_word 0x14 (of_decide_eq_true h) (by decide +kernel)

theorem cbcDecryptWithKey (k : Nat) : Statement (.cbcDecryptWithKey k) := fun h =>
  keyed_word 0x15 (of_decide_eq_true h) (by decide +kernel)

theorem ctrInit : Statement .ctrInit := fun _ => by decide

theorem ctrInitWithKey (k : Nat) : Statement (.ctrInitWithKey k) := fun h =>
  keyed_word 0x21 (of_decide_eq_true h) (by decide +kernel)

theorem ctrSetStreamIndex : Statement .ctrSetStreamIndex := fun _ => by decide

theorem ctrXor : Statement .ctrXor := fun _ => by decide

theorem ctrOutput : Statement .ctrOutput := fun _ => by decide

theorem ctrXorWithKey (k : Nat) : Statement (.ctrXorWithKey k) := fun h =>
  keyed_word 0x25 (of_decide_eq_true h) (by decide +kernel)

theorem ofbInit : Statement .ofbInit := fun _ => by decide

theorem ofbInitWithKey (k : Nat) : Statement (.ofbInitWithKey k) := fun h =>
  keyed_word 0x31 (of_decide_eq_true h) (by decide +kernel)

theorem ofbXor : Statement .ofbXor := fun _ => by decide

theorem ofbOutput : Statement .ofbOutput := fun _ => by decide

theorem ofbXorWithKey (k : Nat) : Statement (.ofbXorWithKey k) := fun h =>
  keyed_word 0x34 (of_decide_eq_true h) (by decide +kernel)

theorem zeroize (sel : BitVec 4) : Statement (.zeroize sel) := fun _ => zeroize_word sel

end Sys2Proof.Laws.TableRow
end

