-- ==== Sys2Proof/Laws/Schedule.lean ====
section
/-! SUPPORT. Round keys of a padded schedule (spec/40_aes_functions.md R143). -/

namespace Sys2Proof.Machine

theorem roundKey_padSchedule (nr : Nat) (key : Nat → Block) (r : Nat) :
    roundKey (padSchedule nr key) r = if r < 15 ∧ r ≤ nr then key r else Block.zero := by
  unfold roundKey padSchedule Vector.getD
  by_cases h : r < 15
  · simp [Array.getD, h, Vector.toArray_ofFn]
  · simp [Array.getD, h, Vector.toArray_ofFn]

theorem expand_nr (key : List Byte) : (expand key).nr = keyNr key := rfl

theorem expand_ek (key : List Byte) :
    (expand key).ek =
      padSchedule (keyNr key) fun r => (keyExpansion key).getD r Block.zero := rfl

theorem expand_dk (key : List Byte) :
    (expand key).dk = padSchedule (keyNr key) (decryptionKey (keyNr key) (keyExpansion key)) := rfl

end Sys2Proof.Machine
end

