-- ==== Sys2Proof/Laws/Steps.lean ====
section
/-! SUPPORT. What a step can do, said once: idle, or the oldest host step; a host step is a command word,
a register write, a read, a memory write or reset. -/

namespace Sys2Proof.Machine

/-- A written word runs the command it decodes to, or raises `IllegalCommand`. -/
theorem runWord_cases {w : CommandWord} {s t : State} (h : runWord w s = .next t) :
    (∃ i, decode w = .ok i ∧ exec i (s.setCmd w) = .next t) ∨
    (∀ i, decode w ≠ .ok i) ∧ t = (s.setCmd w).setResult .illegalCommand := by
  unfold runWord at h
  cases hd : decode w with
  | ok i => rw [hd] at h; exact .inl ⟨i, rfl, h⟩
  | error e => rw [hd] at h; cases h; exact .inr ⟨fun i => by simp, rfl⟩

/-- A host range is accepted when its length is below `2^64` and it is admitted. -/
theorem hostRangeOk_iff (s : State) (a n : Nat) :
    hostRangeOk s a n = true ↔ n < 2 ^ 64 ∧ Safety.Admitted s a n := by
  simp [hostRangeOk, admitted]

/-- All that a host step can do. -/
theorem hostStep_cases {x : HostStep} {s t : State} (h : hostStep x s = .next t) :
    (∃ v, x = .regWrite 0x00 v ∧ runWord (v.setWidth 32) s = .next t) ∨
    (∃ n v r, x = .regWrite n v ∧ t = s.setRegs r) ∨
    (∃ n v, x = .regRead n ∧ t = s.setReply v) ∨
    (∃ a bs, x = .memWrite a bs ∧ a.toNat + bs.length ≤ s.memBytes ∧ t = s.memWrite a.toNat bs) ∨
    (∃ a n v, x = .memRead a n ∧ t = s.setReply v) ∨
    x = .reset ∧ t = s.applyReset := by
  cases x with
  | regWrite n v =>
    simp only [hostStep, hostRegWrite] at h
    split at h
    · next hn => subst hn; exact .inl ⟨v, rfl, h⟩
    · split at h
      · cases h; exact .inr (.inl ⟨n, v, _, rfl, rfl⟩)
      · cases h; exact .inr (.inl ⟨n, v, s.regs, rfl, rfl⟩)
  | regRead n => cases h; exact .inr (.inr (.inl ⟨n, _, rfl, rfl⟩))
  | memWrite a bs =>
    simp only [hostStep, hostMemWrite] at h
    split at h
    · next hn =>
      cases h
      exact .inr (.inr (.inr (.inl ⟨a, bs, rfl, ((hostRangeOk_iff _ _ _).1 hn).2, rfl⟩)))
    · cases h
  | memRead a n =>
    simp only [hostStep, hostMemRead] at h
    split at h
    · cases h; exact .inr (.inr (.inr (.inr (.inl ⟨a, n, _, rfl, rfl⟩))))
    · cases h
  | reset => cases h; exact .inr (.inr (.inr (.inr (.inr ⟨rfl, rfl⟩))))

/-- All that a step can do. -/
theorem step_cases {s t : State} (h : step s = .next t) :
    s.script = [] ∧ t = s ∨
    ∃ x rest, s.script = x :: rest ∧ hostStep x (s.setScript rest) = .next t := by
  unfold step advance at h
  cases hs : s.script with
  | nil => rw [hs] at h; cases h; exact .inl ⟨rfl, rfl⟩
  | cons x rest => rw [hs] at h; exact .inr ⟨x, rest, rfl, h⟩

end Sys2Proof.Machine
end

