-- ==== Sys2Proof/Tests/Slice0.lean ====
section
/-! SUPPORT. Tests of one step each, with expected values from the spec's vectors and examples
(spec/95_test_vectors.md), and a witness for the hypotheses of every statement that has some. -/

namespace Sys2Proof.Tests

open Sys2Proof.Machine Sys2Proof.Safety

-- One test after another: checked side by side, their threads take more memory than the check allows.
set_option Elab.async false

/-- What a function reads from the next state; none where there is none. -/
def after {α : Type} (o : Host.Outcome State Fault Refusal) (f : State → α) : Option α :=
  match o with
  | .next t => some (f t)
  | _ => none

/-- The refusal a step answers, if it does. -/
def refusal (o : Host.Outcome State Fault Refusal) : Option Refusal :=
  match o with
  | .refused r => some r
  | _ => none

/-- `K128` of 95_test_vectors.md section 0. -/
def k128 : List Byte :=
  [0x2b, 0x7e, 0x15, 0x16, 0x28, 0xae, 0xd2, 0xa6, 0xab, 0xf7, 0x15, 0x88, 0x09, 0xcf, 0x4f,
  0x3c]

/-- `IV16`; its first 8 bytes are `IV8`. -/
def iv16 : List Byte :=
  [0x00, 0x01, 0x02, 0x03, 0x04, 0x05, 0x06, 0x07, 0x08, 0x09, 0x0a, 0x0b, 0x0c, 0x0d, 0x0e,
  0x0f]

/-- The first two blocks of `PT64`. -/
def pt32 : List Byte :=
  [0x6b, 0xc1, 0xbe, 0xe2, 0x2e, 0x40, 0x9f, 0x96, 0xe9, 0x3d, 0x7e, 0x11, 0x73, 0x93, 0x17,
   0x2a] ++
  [0xae, 0x2d, 0x8a, 0x57, 0x1e, 0x03, 0xac, 0x9c, 0x9e, 0xb7, 0x6f, 0xac, 0x45, 0xaf, 0x8e,
   0x51]

/-- The setup of 95_test_vectors.md 3.2: key at 0x000, IV at 0x040, data at 0x100, output at 0x200. -/
def base : State :=
  ((((State.reset.memWrite 0x000 k128).memWrite 0x040 iv16).memWrite 0x100 pt32).setRegs
    ⟨0x100, 0x110, 0x200, 32, 0, 0x40, 0⟩)

/-- The context of `K128`. -/
def ctx128 : CipherCtx := expand k128

def withAes (s : State) : State := s.setAes ⟨true, ctx128⟩

def withCbc (s : State) : State := s.setCbc (cbcInitSlot ctx128 (Block.ofList iv16))

def withCtr (s : State) : State := s.setCtr (ctrInitSlot ctx128 (Block8.ofList iv16))

def withOfb (s : State) : State := s.setOfb (ofbInitSlot ctx128 (Block.ofList iv16))

/-- The four slots as `AES_INIT`, `CBC_INIT`, `CTR_INIT`, `OFB_INIT` leave them. -/
def ready : State := withOfb (withCtr (withCbc (withAes base)))

/-- Other values in `SRC`, `DST`, `LEN`. -/
def at3 (s : State) (src dst len : Word64) : State :=
  s.setRegs (((s.regs.set .src src).set .dst dst).set .len len)

def at1 (s : State) (r : Reg) (v : Word64) : State := s.setRegs (s.regs.set r v)

/-- A host step comes next. -/
def pend (h : HostStep) : State := ready.setScript [h]

/-! ### Well-formedness: an ill-formed term for each keyed command -/

theorem test_wellFormed_refuses :
    Instr.wellFormed (.aesInit 256) = false ∧
    Instr.wellFormed (.cbcInitWithKey 256) = false ∧
    Instr.wellFormed (.cbcEncryptWithKey 256) = false ∧
    Instr.wellFormed (.cbcDecryptWithKey 256) = false ∧
    Instr.wellFormed (.ctrInitWithKey 256) = false ∧
    Instr.wellFormed (.ctrXorWithKey 256) = false ∧
    Instr.wellFormed (.ofbInitWithKey 256) = false ∧
    Instr.wellFormed (.ofbXorWithKey 256) = false := by decide

theorem test_wellFormed_accepts :
    Instr.wellFormed (.aesInit 255) = true ∧ Instr.wellFormed .cbcEncrypt = true ∧
    Instr.wellFormed (.zeroize 0xF) = true := by decide

/-! ### Decoding: `RSV` `SEL` `KSZ` `OP`, bit 31 first, from R91 and R94 -/

theorem test_decode_aesInit :
    decode 0b000000000000_0000_00010000_00000001 = .ok (.aesInit 16) := by decide

theorem test_decode_aesEncrypt :
    decode 0b000000000000_0000_00000000_00000010 = .ok .aesEncrypt := by decide

theorem test_decode_aesDecrypt :
    decode 0b000000000000_0000_00000000_00000011 = .ok .aesDecrypt := by decide

theorem test_decode_xorBuf :
    decode 0b000000000000_0000_00000000_00000100 = .ok .xorBuf := by decide

theorem test_decode_cbcInit :
    decode 0b000000000000_0000_00000000_00010000 = .ok .cbcInit := by decide

theorem test_decode_cbcInitWithKey :
    decode 0b000000000000_0000_00011000_00010001 = .ok (.cbcInitWithKey 24) := by decide

theorem test_decode_cbcEncrypt :
    decode 0b000000000000_0000_00000000_00010010 = .ok .cbcEncrypt := by decide

theorem test_decode_cbcDecrypt :
    decode 0b000000000000_0000_00000000_00010011 = .ok .cbcDecrypt := by decide

theorem test_decode_cbcEncryptWithKey :
    decode 0b000000000000_0000_00100000_00010100 = .ok (.cbcEncryptWithKey 32) := by decide

theorem test_decode_cbcDecryptWithKey :
    decode 0b000000000000_0000_00010001_00010101 = .ok (.cbcDecryptWithKey 17) := by decide

theorem test_decode_ctrInit :
    decode 0b000000000000_0000_00000000_00100000 = .ok .ctrInit := by decide

theorem test_decode_ctrInitWithKey :
    decode 0b000000000000_0000_00001111_00100001 = .ok (.ctrInitWithKey 15) := by decide

theorem test_decode_ctrSetStreamIndex :
    decode 0b000000000000_0000_00000000_00100010 = .ok .ctrSetStreamIndex := by decide

theorem test_decode_ctrXor :
    decode 0b000000000000_0000_00000000_00100011 = .ok .ctrXor := by decide

theorem test_decode_ctrOutput :
    decode 0b000000000000_0000_00000000_00100100 = .ok .ctrOutput := by decide

theorem test_decode_ctrXorWithKey :
    decode 0b000000000000_0000_00000000_00100101 = .ok (.ctrXorWithKey 0) := by decide

theorem test_decode_ofbInit :
    decode 0b000000000000_0000_00000000_00110000 = .ok .ofbInit := by decide

theorem test_decode_ofbInitWithKey :
    decode 0b000000000000_0000_11111111_00110001 = .ok (.ofbInitWithKey 255) := by decide

theorem test_decode_ofbXor :
    decode 0b000000000000_0000_00000000_00110010 = .ok .ofbXor := by decide

theorem test_decode_ofbOutput :
    decode 0b000000000000_0000_00000000_00110011 = .ok .ofbOutput := by decide

theorem test_decode_ofbXorWithKey :
    decode 0b000000000000_0000_00011001_00110100 = .ok (.ofbXorWithKey 25) := by decide

theorem test_decode_zeroize :
    decode 0b000000000000_1010_00000000_01111111 = .ok (.zeroize 0b1010) := by decide

/-- Illegal words (V51). -/
theorem test_decode_illegal :
    decode 0x00000005 = .error .unknownOpcode ∧ decode 0x00000026 = .error .unknownOpcode ∧
    decode 0x00000080 = .error .unknownOpcode ∧ decode 0x000000ff = .error .unknownOpcode ∧
    decode 0x0000107f = .error .strayKeySize ∧ decode 0x0010007f = .error .reservedBits ∧
    decode 0xffffffff = .error .reservedBits := by decide

/-! ### AES functions -/

/-- V4. -/
theorem test_field :
    xtime 0x57 = 0xae ∧ xtime 0xae = 0x47 ∧ xtime 0x80 = 0x1b ∧ gmul 0x57 0x83 = 0xc1 ∧
    gmul 0x57 0x13 = 0xfe ∧ ginv 0x00 = 0x00 ∧ ginv 0x02 = 0x8d ∧ ginv 0x53 = 0xca := by
  decide +kernel

/-- V5. -/
theorem test_sbox :
    sbox 0x00 = 0x63 ∧ sbox 0x10 = 0xca ∧ sbox 0x53 = 0xed ∧ sbox 0xff = 0x16 ∧
    invSbox 0x00 = 0x52 ∧ invSbox 0xff = 0x7d ∧ (List.range 10).map (fun j => rcon (j + 1)) =
      [0x01, 0x02, 0x04, 0x08, 0x10, 0x20, 0x40, 0x80, 0x1b, 0x36] := by decide +kernel

/-- V6. -/
theorem test_rows_and_columns :
    (shiftRows (Block.ofList iv16)).toList =
      [0x00, 0x05, 0x0a, 0x0f, 0x04, 0x09, 0x0e, 0x03, 0x08, 0x0d, 0x02, 0x07, 0x0c, 0x01, 0x06,
      0x0b] ∧
    (invShiftRows (Block.ofList iv16)).toList =
      [0x00, 0x0d, 0x0a, 0x07, 0x04, 0x01, 0x0e, 0x0b, 0x08, 0x05, 0x02, 0x0f, 0x0c, 0x09, 0x06,
      0x03] ∧
    (mixColumns (Block.ofList
      [0xdb, 0x13, 0x53, 0x45, 0xf2, 0x0a, 0x22, 0x5c, 0x01, 0x01, 0x01, 0x01, 0xc6, 0xc6, 0xc6,
      0xc6])).toList =
      [0x8e, 0x4d, 0xa1, 0xbc, 0x9f, 0xdc, 0x58, 0x9d, 0x01, 0x01, 0x01, 0x01, 0xc6, 0xc6, 0xc6,
      0xc6] := by decide +kernel

/-- V2: the last round key, and `DK[1]`. -/
theorem test_key_expansion :
    (roundKey ctx128.ek 10).toList =
      [0xd0, 0x14, 0xf9, 0xa8, 0xc9, 0xee, 0x25, 0x89, 0xe1, 0x3f, 0x0c, 0xc8, 0xb6, 0x63, 0x0c,
      0xa6] ∧
    (roundKey ctx128.dk 1).toList =
      [0x0c, 0x7b, 0x5a, 0x63, 0x13, 0x19, 0xea, 0xfe, 0xb0, 0x39, 0x88, 0x90, 0x66, 0x4c, 0xfb,
      0xb4] ∧
    roundKey ctx128.ek 11 = Block.zero ∧ ctx128.nr = 10 := by decide +kernel

/-- V2b: `EK[14]` of AES-256, which takes the extra `SubWord`. -/
theorem test_key_expansion_256 :
    (roundKey (expand
      [0x60, 0x3d, 0xeb, 0x10, 0x15, 0xca, 0x71, 0xbe, 0x2b, 0x73, 0xae, 0xf0, 0x85, 0x7d, 0x77,
      0x81, 0x1f, 0x35, 0x2c, 0x07, 0x3b, 0x61, 0x08, 0xd7, 0x2d, 0x98, 0x10, 0xa3, 0x09, 0x14,
      0xdf, 0xf4]).ek 14).toList =
      [0xfe, 0x48, 0x90, 0xd1, 0xe6, 0x18, 0x8d, 0x0b, 0x04, 0x6d, 0xf3, 0x44, 0x70, 0x6c, 0x63,
      0x1e] := by decide +kernel

/-- V7: one block under the keys `00..17` (AES-192) and `00..1f` (AES-256). -/
theorem test_cipher_192_256 :
    (aesE (expand ((List.range 24).map (BitVec.ofNat 8)))
      (Block.ofList ((List.range 16).map fun i => BitVec.ofNat 8 (17 * i)))).toList =
      [0xdd, 0xa9, 0x7c, 0xa4, 0x86, 0x4c, 0xdf, 0xe0, 0x6e, 0xaf, 0x70, 0xa0, 0xec, 0x0d, 0x71,
      0x91] ∧
    (aesE (expand ((List.range 32).map (BitVec.ofNat 8)))
      (Block.ofList ((List.range 16).map fun i => BitVec.ofNat 8 (17 * i)))).toList =
      [0x8e, 0xa2, 0xb7, 0xca, 0x51, 0x67, 0x45, 0xbf, 0xea, 0xfc, 0x49, 0x90, 0x4b, 0x49, 0x60,
      0x89] := by decide +kernel

/-! ### Commands -/

/-- V10: the key schedule of V2, `STATUS` 0x10. -/
theorem test_aesInit :
    after (exec (.aesInit 16) base) 
      (fun t => (statusWord t, t.aes.ctx.nr, (roundKey t.aes.ctx.ek 1).toList)) =
      some (0x10, 10, [0xa0, 0xfa, 0xfe, 0x17, 0x88, 0x54, 0x2c, 0xb1, 0x23, 0xa3, 0x39, 0x39, 0x2a, 0x6c,
        0x76, 0x05]) := by decide +kernel

/-- V13: `x[KEYA]` 0xfe9 and 0xfe8 with 24 key bytes; V12: `ksz = 17` keeps the old context. -/
theorem test_aesInit_bounds :
    after (exec (.aesInit 24) (at1 base .keya 0xfe9)) statusWord = some 0x05 ∧
    after (exec (.aesInit 24) (at1 base .keya 0xfe8)) statusWord = some 0x10 ∧
    after (exec (.aesInit 17) (withAes base)) statusWord = some 0x11 := by decide +kernel

/-- V7: the first block of `PT64` under `K128`, in place. -/
theorem test_aesEncrypt :
    after (exec .aesEncrypt (at3 ready 0x100 0x100 0)) (fun t => t.memRead 0x100 17) =
      some ([0x3a, 0xd7, 0x7b, 0xb4, 0x0d, 0x7a, 0x36, 0x60, 0xa8, 0x9e, 0xca, 0xf3, 0x24, 0x66, 0xef,
      0x97] ++ [0xae]) := by decide +kernel

/-- V13: partial overlap, adjacent blocks, the last block of memory, and no wrap of the sum. -/
theorem test_aesEncrypt_overlap :
    after (exec .aesEncrypt (at3 (withAes base) 0x100 0x10f 0)) statusWord = some 0x16 ∧
    after (exec .aesEncrypt (at3 (withAes base) 0x100 0x110 0)) statusWord = some 0x10 ∧
    after (exec .aesEncrypt (at3 (withAes base) 0x100 0xff1 0)) statusWord = some 0x15 ∧
    after (exec .aesEncrypt (at3 (withAes base) 0x100 0xff0 0)) statusWord = some 0x10 ∧
    after (exec .aesEncrypt (at3 (withAes base) 0xffffffffffffffff 0x200 0)) statusWord =
      some 0x15 := by decide +kernel

/-- V1: the inverse of the known answer. -/
theorem test_aesDecrypt :
    after (exec .aesDecrypt ((at3 ready 0x300 0x200 0).memWrite 0x300
      [0x39, 0x25, 0x84, 0x1d, 0x02, 0xdc, 0x09, 0xfb, 0xdc, 0x11, 0x85, 0x97, 0x19, 0x6a, 0x0b,
      0x32]))
      (fun t => t.memRead 0x200 16) = some
      [0x32, 0x43, 0xf6, 0xa8, 0x88, 0x5a, 0x30, 0x8d, 0x31, 0x31, 0x98, 0xa2, 0xe0, 0x37, 0x07,
      0x34] := by decide +kernel

/-- V14. -/
theorem test_aesDecrypt_noContext :
    after (exec .aesDecrypt base) statusWord = some 0x03 ∧
    after (exec .aesEncrypt base) statusWord = some 0x03 := by decide +kernel

/-- V20. -/
theorem test_xorBuf :
    after (exec .xorBuf (((at1 (at3 base 0x100 0x140 9) .src2 0x120).memWrite 0x100
      [0x00, 0xff, 0x55, 0xaa, 0x01, 0x02, 0x03, 0x04, 0x05]).memWrite 0x120
      [0x0f, 0x0f, 0x0f, 0x0f, 0xff, 0xff, 0xff, 0xff, 0x80])) (fun t => t.memRead 0x140 9) =
      some [0x0f, 0xf0, 0x5a, 0xa5, 0xfe, 0xfd, 0xfc, 0xfb, 0x85] := by decide +kernel

/-- V22: `x[DST]` over part of `SRC2`, then over part of `SRC`; lengths 0 and 2^64 - 1. -/
theorem test_xorBuf_overlap :
    after (exec .xorBuf (at1 (at3 base 0x100 0x108 9) .src2 0x104)) statusWord = some 6 ∧
    after (exec .xorBuf (at1 (at3 base 0x100 0x101 9) .src2 0x120)) statusWord = some 6 ∧
    after (exec .xorBuf (at1 (at3 base 0x100 0x1000 0) .src2 0x120)) statusWord = some 0 ∧
    after (exec .xorBuf (at1 (at3 base 0x100 0x1001 0) .src2 0x120)) statusWord = some 5 ∧
    after (exec .xorBuf (at1 (at3 base 0x100 0x140 0xffffffffffffffff) .src2 0x120)) statusWord =
      some 5 := by decide +kernel

/-- R180, example. -/
theorem test_cbcInit :
    after (exec .cbcInit (withAes base)) (fun t => (statusWord t, t.cbc.prev.toList)) =
      some (0x30, iv16) := by decide +kernel

/-- V29: `NoContext` before `AccessFault`. -/
theorem test_cbcInit_priority :
    after (exec .cbcInit (at1 (withCbc base) .iva 0xffa)) statusWord = some 0x23 := by
  decide +kernel

/-- R181, example; V29. -/
theorem test_cbcInitWithKey :
    after (exec (.cbcInitWithKey 16) base) (fun t => (statusWord t, t.cbc.prev.toList, t.cbc.ctx)) =
      some (0x20, iv16, ctx128) ∧
    after (exec (.cbcInitWithKey 16) (at1 (withCbc base) .iva 0xffa)) statusWord = some 0x25 := by
  decide +kernel

/-- R182, example: two blocks, the new `PREV`, and the byte after them. -/
theorem test_cbcEncrypt :
    after (exec .cbcEncrypt (withCbc base)) (fun t => (t.memRead 0x200 33, t.cbc.prev.toList)) =
      some ([0x76, 0x49, 0xab, 0xac, 0x81, 0x19, 0xb2, 0x46, 0xce, 0xe9, 0x8e, 0x9b, 0x12, 0xe9, 0x19,
      0x7d] ++
        [0x50, 0x86, 0xcb, 0x9b, 0x50, 0x72, 0x19, 0xee, 0x95, 0xdb, 0x11, 0x3a, 0x91, 0x76,
        0x78, 0xb2] ++ [0],
        [0x50, 0x86, 0xcb, 0x9b, 0x50, 0x72, 0x19, 0xee, 0x95, 0xdb, 0x11, 0x3a, 0x91, 0x76,
        0x78, 0xb2]) := by decide +kernel

/-- V29, V26: misaligned lengths, then access, then overlap; length 0. -/
theorem test_cbcEncrypt_priority :
    after (exec .cbcEncrypt (at3 (withCbc base) 0x100 0x1388 0x11)) statusWord = some 0x22 ∧
    after (exec .cbcEncrypt (at3 (withCbc base) 0x100 0x1388 0x10)) statusWord = some 0x25 ∧
    after (exec .cbcEncrypt (at3 (withCbc base) 0x300 0x308 0x20)) statusWord = some 0x26 ∧
    after (exec .cbcEncrypt (at3 (withCbc base) 0x100 0x200 0))
      (fun t => (statusWord t, t.cbc.prev.toList)) =
      some (0x20, iv16) := by decide +kernel

/-- R183, example: in place, `PREV` the last ciphertext block. -/
theorem test_cbcDecrypt :
    after (exec .cbcDecrypt ((at3 (withCbc base) 0x200 0x200 32).memWrite 0x200
      ([0x76, 0x49, 0xab, 0xac, 0x81, 0x19, 0xb2, 0x46, 0xce, 0xe9, 0x8e, 0x9b, 0x12, 0xe9, 0x19,
      0x7d] ++
      [0x50, 0x86, 0xcb, 0x9b, 0x50, 0x72, 0x19, 0xee, 0x95, 0xdb, 0x11, 0x3a, 0x91, 0x76, 0x78,
      0xb2])))
      (fun t => (t.memRead 0x200 32, t.cbc.prev.toList)) =
      some (pt32, [0x50, 0x86, 0xcb, 0x9b, 0x50, 0x72, 0x19, 0xee, 0x95, 0xdb, 0x11, 0x3a, 0x91, 0x76,
        0x78, 0xb2]) := by decide +kernel

/-- V24. -/
theorem test_cbcDecrypt_noContext :
    after (exec .cbcDecrypt base) statusWord = some 0x03 := by decide +kernel

/-- R184, example: one block in place; the slots stay empty. -/
theorem test_cbcEncryptWithKey :
    after (exec (.cbcEncryptWithKey 16) (at3 base 0x100 0x100 16))
      (fun t => (t.memRead 0x100 16, statusWord t)) =
      some ([0x76, 0x49, 0xab, 0xac, 0x81, 0x19, 0xb2, 0x46, 0xce, 0xe9, 0x8e, 0x9b, 0x12, 0xe9,
        0x19, 0x7d], 0) := by decide +kernel

/-- V29: the key size first. -/
theorem test_cbcEncryptWithKey_priority :
    after (exec (.cbcEncryptWithKey 17) (at3 (withCbc base) 0x100 0x200 0x11)) statusWord =
      some 0x21 ∧
    after (exec (.cbcEncryptWithKey 16) (at3 (withCbc base) 0x100 0x200 0x11)) statusWord =
      some 0x22 := by decide +kernel

/-- R185, example. -/
theorem test_cbcDecryptWithKey :
    after (exec (.cbcDecryptWithKey 16) ((at3 base 0x100 0x100 16).memWrite 0x100
      [0x76, 0x49, 0xab, 0xac, 0x81, 0x19, 0xb2, 0x46, 0xce, 0xe9, 0x8e, 0x9b, 0x12, 0xe9, 0x19,
      0x7d]))
      (fun t => t.memRead 0x100 16) = some
      [0x6b, 0xc1, 0xbe, 0xe2, 0x2e, 0x40, 0x9f, 0x96, 0xe9, 0x3d, 0x7e, 0x11, 0x73, 0x93, 0x17,
      0x2a] := by decide +kernel

/-- R251: a partial overlap is the last check. -/
theorem test_cbcDecryptWithKey_overlap :
    after (exec (.cbcDecryptWithKey 32) (at3 base 0x100 0x110 32)) statusWord = some 0x06 := by
  decide +kernel

/-- R200, example; V37: only 8 bytes of IV are needed. -/
theorem test_ctrInit :
    after (exec .ctrInit (withAes base)) (fun t => (statusWord t, t.ctr.ks.toList)) =
      some (0x50, [0x72, 0x0f, 0x9e, 0xe3, 0x7b, 0x13, 0xa7, 0xc8, 0xb9, 0x8e, 0x95, 0x5d, 0x56, 0xb0,
        0xf3, 0x13]) := by decide +kernel

/-- V37. -/
theorem test_ctrInit_bounds :
    after (exec .ctrInit (at1 (withAes base) .iva 0xff9)) statusWord = some 0x15 ∧
    after (exec .ctrInit (at1 (withAes base) .iva 0xff8)) statusWord = some 0x50 := by
  decide +kernel

/-- R201, example. -/
theorem test_ctrInitWithKey :
    after (exec (.ctrInitWithKey 16) base) (fun t => (statusWord t, t.ctr.iv.toList, t.ctr.ctx)) =
      some (0x40, [0x00, 0x01, 0x02, 0x03, 0x04, 0x05, 0x06, 0x07], ctx128) ∧
    after (exec (.ctrInitWithKey 33) (withCtr base)) statusWord = some 0x41 := by decide +kernel

/-- V33: the top block. -/
theorem test_ctrSetStreamIndex :
    after (exec .ctrSetStreamIndex (at1 (withCtr base) .idx 0xffffffffffffffff))
      (fun t => (t.ctr.sidx, t.ctr.bidx, t.ctr.ks.toList)) =
      some (0xffffffffffffffff, 0x0fffffffffffffff,
        [0x51, 0x7b, 0xb7, 0xfa, 0x57, 0xef, 0x15, 0xfc, 0x05, 0x7c, 0x07, 0xf1, 0x4c, 0x86,
        0x54, 0x2e]) := by decide +kernel

/-- V33: inside the cached block. -/
theorem test_ctrSetStreamIndex_inside :
    after (exec .ctrSetStreamIndex (at1 (withCtr base) .idx 0xf)) (fun t => (t.ctr.sidx, t.ctr.bidx)) =
      some (0xf, 0) ∧
    after (exec .ctrSetStreamIndex base) statusWord = some 0x03 := by decide +kernel

/-- R203, example: 20 bytes, index 20, block 1 cached. -/
theorem test_ctrXor :
    after (exec .ctrXor (at3 (withCtr base) 0x100 0x200 20))
      (fun t => (t.memRead 0x200 20, t.ctr.sidx, t.ctr.bidx, t.ctr.ks.toList)) =
      some ([0x19, 0xce, 0x20, 0x01, 0x55, 0x53, 0x38, 0x5e, 0x50, 0xb3, 0xeb, 0x4c, 0x25, 0x23,
        0xe4, 0x39, 0x0a, 0x1c, 0x99, 0x74], 20, 1,
        [0xa4, 0x31, 0x13, 0x23, 0x03, 0x0e, 0xc0, 0x25, 0xf9, 0x37, 0x8c, 0x50, 0xb3, 0x9e,
        0x26, 0xdc]) := by decide +kernel

/-- V37, V31. -/
theorem test_ctrXor_errors :
    after (exec .ctrXor (at3 (withCtr base) 0x500 0x501 0x40)) statusWord = some 0x46 ∧
    after (exec .ctrXor (at3 base 0x500 0x501 0x40)) statusWord = some 0x03 := by decide +kernel

/-- V36: from index 2^64 - 8 through index 0. -/
theorem test_ctrOutput_wraps :
    after (exec .ctrOutput ((at3 base 0x100 0x400 0x10).setCtr
        (ctrSeek (ctrInitSlot ctx128 (Block8.ofList iv16)) 0xfffffffffffffff8)))
      (fun t => (t.memRead 0x400 16, t.ctr.sidx, t.ctr.bidx)) =
      some ([0x05, 0x7c, 0x07, 0xf1, 0x4c, 0x86, 0x54, 0x2e, 0x72, 0x0f, 0x9e, 0xe3, 0x7b, 0x13,
        0xa7, 0xc8], 8, 0) := by decide +kernel

/-- V37: the output leaves memory. -/
theorem test_ctrOutput_errors :
    after (exec .ctrOutput (at3 (withCtr base) 0x100 0xffa 0x40)) statusWord = some 0x45 := by
  decide +kernel

/-- R205, example. -/
theorem test_ctrXorWithKey :
    after (exec (.ctrXorWithKey 16) (at3 base 0x100 0x100 16))
      (fun t => (t.memRead 0x100 16, statusWord t)) =
      some ([0x19, 0xce, 0x20, 0x01, 0x55, 0x53, 0x38, 0x5e, 0x50, 0xb3, 0xeb, 0x4c, 0x25, 0x23,
        0xe4, 0x39], 0) := by decide +kernel

/-- V37. -/
theorem test_ctrXorWithKey_keySize :
    after (exec (.ctrXorWithKey 17) (withCtr base)) statusWord = some 0x41 := by decide +kernel

/-- R220, example. -/
theorem test_ofbInit :
    after (exec .ofbInit (withAes base)) (fun t => (statusWord t, t.ofb.ks.toList, t.ofb.off.val)) =
      some (0x90, [0x50, 0xfe, 0x67, 0xcc, 0x99, 0x6d, 0x32, 0xb6, 0xda, 0x09, 0x37, 0xe9, 0x9b, 0xaf,
        0xec, 0x60], 0) := by decide +kernel

/-- V41. -/
theorem test_ofbInit_noContext :
    after (exec .ofbInit base) statusWord = some 0x03 := by decide +kernel

/-- R221, example. -/
theorem test_ofbInitWithKey :
    after (exec (.ofbInitWithKey 16) base) (fun t => (statusWord t, t.ofb.ctx)) =
      some (0x80, ctx128) := by decide +kernel

/-- R222, example: 20 bytes, the second keystream block, 4 bytes of it used. -/
theorem test_ofbXor :
    after (exec .ofbXor (at3 (withOfb base) 0x100 0x200 20))
      (fun t => (t.memRead 0x200 20, t.ofb.ks.toList, t.ofb.off.val)) =
      some ([0x3b, 0x3f, 0xd9, 0x2e, 0xb7, 0x2d, 0xad, 0x20, 0x33, 0x34, 0x49, 0xf8, 0xe8, 0x3c,
        0xfb, 0x4a, 0x77, 0x89, 0x50, 0x8d],
        [0xd9, 0xa4, 0xda, 0xda, 0x08, 0x92, 0x23, 0x9f, 0x6b, 0x8b, 0x3d, 0x76, 0x80, 0xe1,
        0x56, 0x74], 4) := by decide +kernel

/-- V43, V41. -/
theorem test_ofbXor_errors :
    after (exec .ofbXor (at3 (withOfb base) 0x200 0x23f 0x40)) statusWord = some 0x86 ∧
    after (exec .ofbXor base) statusWord = some 0x03 := by decide +kernel

/-- R223, example: a block used to its end stays, `OFF = 16`. -/
theorem test_ofbOutput :
    after (exec .ofbOutput (at3 (withOfb base) 0x100 0x300 32))
      (fun t => (t.memRead 0x300 32, t.ofb.off.val)) =
      some ([0x50, 0xfe, 0x67, 0xcc, 0x99, 0x6d, 0x32, 0xb6, 0xda, 0x09, 0x37, 0xe9, 0x9b, 0xaf,
        0xec, 0x60] ++
        [0xd9, 0xa4, 0xda, 0xda, 0x08, 0x92, 0x23, 0x9f, 0x6b, 0x8b, 0x3d, 0x76, 0x80, 0xe1,
        0x56, 0x74], 16) := by decide +kernel

/-- V43. -/
theorem test_ofbOutput_errors :
    after (exec .ofbOutput (at3 (withOfb base) 0x200 0xfc8 0x40)) statusWord = some 0x85 := by
  decide +kernel

/-- R224, example. -/
theorem test_ofbXorWithKey :
    after (exec (.ofbXorWithKey 16) (at3 base 0x100 0x100 16))
      (fun t => (t.memRead 0x100 16, statusWord t)) =
      some ([0x3b, 0x3f, 0xd9, 0x2e, 0xb7, 0x2d, 0xad, 0x20, 0x33, 0x34, 0x49, 0xf8, 0xe8, 0x3c,
        0xfb, 0x4a], 0) := by decide +kernel

/-- V43. -/
theorem test_ofbXorWithKey_keySize :
    after (exec (.ofbXorWithKey 25) (withOfb base)) statusWord = some 0x81 := by decide +kernel

/-- V50: `SEL` 0x2 and 0xc. -/
theorem test_zeroize :
    after (exec (.zeroize 0x2) ready) statusWord = some 0xd0 ∧
    after (exec (.zeroize 0xc) ready) statusWord = some 0x30 := by decide +kernel

/-- V50: `SEL` 0 changes `STATUS.RESULT` only. -/
theorem test_zeroize_none :
    after (exec (.zeroize 0) (ready.setResult .overlapFault)) id = some ready := by decide +kernel

/-! ### The host's steps -/

/-- V51: an illegal word, through the write to `CMD`. -/
theorem test_step_illegal :
    after (step (ready.withFetchWord 32 0xffffffff)) id =
      some ((ready.setCmd 0xffffffff).setResult .illegalCommand) := by decide +kernel

/-- V51: the word 0x00000000 on a machine just reset, `STATUS` 0x00000004. -/
theorem test_step_illegal_status :
    after (step (State.reset.withFetchWord 32 0x00000000)) statusWord = some 0x00000004 := by
  decide +kernel

/-- V50: `ZEROIZE sel=0xf` as the word 0x000f007f, the first command after reset. -/
theorem test_step_zeroize :
    after (step (State.reset.withFetchWord 32 0x000f007f))
      (fun t => (t.cmd, statusWord t, t.script)) =
      some (0x000f007f, 0, []) := by decide +kernel

/-- R28: a value written to `CMD` is truncated to its low 32 bits. -/
theorem test_step_truncates :
    after (step (pend (.regWrite 0x00 0xffffffff0002007f))) (fun t => (t.cmd, statusWord t)) =
      some (0x0002007f, 0xd0) := by decide +kernel

/-- R21, R245: register number 0x16 is `IDX`; 0x17 and `STATUS` ignore the write. -/
theorem test_step_regWrite :
    after (step (pend (.regWrite 0x16 7))) (fun t => t.regs) =
      some ⟨0x100, 0x110, 0x200, 32, 0, 0x40, 7⟩ ∧
    after (step (pend (.regWrite 0x17 7))) (fun t => t.regs) = some ready.regs ∧
    after (step (pend (.regWrite 0x01 7))) statusWord = some 0xf0 := by decide +kernel

/-- R246. -/
theorem test_step_regRead :
    after (step (pend (.regRead 0x01))) (fun t => t.reply) = some (.value 0xf0) ∧
    after (step (pend (.regRead 0x13))) (fun t => t.reply) = some (.value 32) ∧
    after (step (pend (.regRead 0x02))) (fun t => t.reply) = some (.value 0) := by decide +kernel

/-- R247: bytes in address order, up to the last byte of memory. -/
theorem test_step_hostMemory :
    after (step (pend (.memWrite 0xffe [0x12, 0x34]))) (fun t => t.memRead 0xffe 2) =
      some [0x12, 0x34] ∧
    after (step (pend (.memRead 0x100 3))) (fun t => t.reply) = some (.bytes [0x6b, 0xc1, 0xbe]) ∧
    refusal (step (pend (.memRead 0xffe 3))) = some .hostRangeNotAdmitted := by decide +kernel

/-- R280, R41: everything but the memory. -/
theorem test_step_reset :
    after (step (pend .reset)) (fun t => (t.regs.get .dst, statusWord t, t.memRead 0x100 1)) =
      some (0, 0, [0x6b]) := by decide +kernel


/-! ### Witnesses for the hypotheses of the statements, one conjunct for each clause -/

/-- A state that runs: the memory of `base`, other operands, the valid flags that the clause needs. -/
def regsAt (src src2 dst len keya iva : Word64) (s : State) : State :=
  s.setRegs ⟨src, src2, dst, len, keya, iva, 0⟩

/-- What `exec` answers, for a witness of `exec i s = .next t`. -/
def Runs (i : Instr) (s : State) : Prop := ∃ t, exec i s = .next t ∧ t.result = .ok

theorem runs_of_after {i : Instr} {s : State}
    (h : after (exec i s) (fun t => t.result) = some .ok) : Runs i s := by
  unfold Runs
  cases hx : exec i s with
  | next t => exact ⟨t, rfl, by simpa [after, hx] using h⟩
  | fault f => simp [after, hx] at h
  | refused r => simp [after, hx] at h

theorem expanded_ctx128 : Expanded ctx128 := ⟨k128, by decide, rfl⟩

theorem ctrCached_init (ctx : CipherCtx) (iv : Block8) : CtrCached (ctrInitSlot ctx iv) :=
  ⟨show (0 : Word64).toNat = (0 : Word64).toNat / 16 by decide, rfl⟩

/-- For DecodeOfEncode: the largest key size and the largest mask. -/
theorem witness_decodeOfEncode :
    (Instr.cbcInitWithKey 255).wellFormed = true ∧ (Instr.zeroize 0xF).wellFormed = true := by decide

/-- For EncodeOfDecode. -/
theorem witness_encodeOfDecode : decode 0x0000ff34 = .ok (.ofbXorWithKey 255) := by decide

/-- For IllegalWordOnlySetsResult: the all-zero word, and one bit of `RSV` too many. -/
theorem witness_illegalWord :
    (∀ r ∈ opcodeRows, r.selects 0x00000000 = false) ∧
    ∀ r ∈ opcodeRows, r.selects 0x00100001 = false := by decide

/-- For StepRunsDecodedCommand: nothing pending, a step pending, a command pending. -/
theorem witness_stepRuns :
    State.reset.script = [] ∧ (pend .reset).script = .reset :: [] ∧
    (pend (.regWrite 0x00 0xffffffff00000012)).script = .regWrite 0x00 0xffffffff00000012 :: [] ∧
    decode ((0xffffffff00000012 : Word64).setWidth 32) = .ok .cbcEncrypt ∧
    decode (BitVec.ofNat 32 0x12) = .ok .cbcEncrypt := by decide +kernel

/-- For RegWriteRule: a legal word, an illegal word, the numbers about the two ranges; and for
RegReadRule. -/
theorem witness_registers :
    decode ((2 : Word64).setWidth 32) = .ok .aesEncrypt ∧
    (∀ i, decode ((5 : Word64).setWidth 32) ≠ .ok i) ∧
    (∀ n ∈ [0x02, 0x0f, 0x17, 0x100], n ≠ 0x00 ∧ n ≠ 0x01 ∧ ¬ (0x10 ≤ n ∧ n ≤ 0x16)) := by
  refine ⟨by decide, fun i => ?_, by decide⟩
  have : decode ((5 : Word64).setWidth 32) = .error .unknownOpcode := by decide
  rw [this]
  nofun

/-- For HostMemoryRule: the last byte of memory, the byte after it, the empty range at the end. -/
theorem witness_hostMemory :
    Admitted ready (0xfff : Word64).toNat [(7 : Byte)].length ∧ [(7 : Byte)].length < 2 ^ 64 ∧
    Admitted ready (0x1000 : Word64).toNat ([] : List Byte).length ∧
    ¬ Admitted ready (0x1000 : Word64).toNat [(7 : Byte)].length ∧
    Admitted ready (0xfff : Word64).toNat (1 : Word64).toNat ∧
    ¬ Admitted ready (0xfff : Word64).toNat (2 : Word64).toNat := by decide +kernel

/-- For StepKeepsMemoryInvariant and the three statements on slots: the four slots valid, a command
next, and the step answers a next state. -/
theorem witness_invariants :
    let s := ready.withFetchWord 32 0x0000007f
    MemInv s ∧ AesInv s ∧ CbcInv s ∧ CtrInv s ∧ OfbInv s ∧ (∃ t, step s = .next t) ∧
    (∀ n, s.script.head? ≠ some (.regRead n)) ∧ ∀ a n, s.script.head? ≠ some (.memRead a n) := by
  intro s
  refine ⟨by unfold MemInv; decide +kernel, ⟨fun _ => expanded_ctx128, nofun⟩,
    ⟨fun _ => expanded_ctx128, nofun⟩,
    ⟨fun _ => ⟨expanded_ctx128, ctrCached_init _ _⟩, nofun⟩,
    ⟨fun _ => ⟨expanded_ctx128, Block.ofList iv16, 0, ?_⟩, nofun⟩, ⟨_, rfl⟩, fun n h => ?_, fun a n h => ?_⟩
  · exact ⟨rfl, rfl⟩
  · cases h
  · cases h

/-- For StepKeepsCtrCache: a step after which the CTR slot is valid. -/
theorem witness_ctrCache :
    let s := ready.withFetchWord 32 0x0003007f
    (s.ctr.valid = true → CtrCached s.ctr) ∧ ∃ t, step s = .next t ∧ t.ctr.valid = true :=
  ⟨fun _ => ctrCached_init _ _, _, rfl, rfl⟩

/-- For FailedCommandChangesOnlyResult, ResultFollowsCheckOrder: an error, an illegal word, success. -/
theorem witness_results :
    (∃ t, runWord 0x00001101 base = .next t ∧ t.result = .invalidKeySize) ∧
    decode 0x00001101 = .ok (.aesInit 17) ∧
    (∃ t, runWord 0x00000005 base = .next t ∧ t.result = .illegalCommand) ∧
    (∃ t, runWord 0x0000007f base = .next t ∧ t.result = .ok) :=
  ⟨⟨_, rfl, rfl⟩, by decide, ⟨_, rfl, rfl⟩, ⟨_, rfl, rfl⟩⟩

/-- For CommandWritesOnlyItsOutputRange, CommandReadsOnlyItsInputRanges, SlotsChangeOnlyByTheirCommands
and ValidFlagsChangeOnlyAsListed: a command that stores, the bytes on both sides of its output range,
and another memory that agrees on its input range. -/
theorem witness_ranges :
    Runs .xorBuf base ∧
    (∀ x ∈ [0x1ff, 0x220], ∀ r ∈ outputRanges base .xorBuf, ¬ (r.addr ≤ x ∧ x < r.addr + r.size)) ∧
    (∀ r ∈ inputRanges base .xorBuf, ∀ x, r.addr ≤ x → x < r.addr + r.size →
      Memory.read (base.memWrite 0x200 [1, 2, 3]).mem x = byteAt base x) ∧
    (∀ k, writesSlot .xorBuf k = false) := by
  refine ⟨runs_of_after (by decide +kernel), by decide +kernel, ?_, fun k => by cases k <;> rfl⟩
  have : inputRanges base .xorBuf = [⟨0x100, 32⟩, ⟨0x110, 32⟩] := by decide +kernel
  rw [this]
  have h : ∀ y < 48, Memory.read (base.memWrite 0x200 [1, 2, 3]).mem (0x100 + y) =
      byteAt base (0x100 + y) := by decide +kernel
  intro r hr x h1 h2
  have hx : 0x100 ≤ x ∧ x < 0x130 := by
    simp only [List.mem_cons, List.not_mem_nil, or_false] at hr
    rcases hr with rfl | rfl <;> constructor <;> simp_all <;> omega
  have := h (x - 0x100) (by omega)
  rwa [show 0x100 + (x - 0x100) = x from by omega] at this

/-- For UnreadRegistersAreIgnored. -/
theorem witness_unreadRegisters :
    readsReg .ctrOutput .src = false ∧ readsReg (.ctrXorWithKey 16) .idx = false ∧
    ∀ r, readsReg (.zeroize 1) r = false := by
  refine ⟨rfl, rfl, fun r => by cases r <;> rfl⟩

/-- For InPlaceGivesTheSameBytes: separate buffers, then in place. -/
theorem witness_inPlace :
    outputSize (withCtr base) .ctrXor = some 32 ∧ Runs .ctrXor (withCtr base) ∧
    Runs .ctrXor ((withCtr base).setRegs { (withCtr base).regs with dst := 0x100 }) :=
  ⟨rfl, runs_of_after (by decide +kernel), runs_of_after (by decide +kernel)⟩

/-- The key sizes at the edges of R253. -/
theorem witness_keySizes :
    (∀ k ∈ [16, 24, 32], LegalKeySize k) ∧
    ∀ k ∈ [0, 15, 17, 23, 25, 31, 33, 255], ¬ LegalKeySize k := by decide

/-- For AesInitRule: the key ends at the end of memory, or one byte past it. -/
theorem witness_aesInit :
    ¬ LegalKeySize 17 ∧
    (LegalKeySize 16 ∧ ¬ Admitted (regsAt 0 0 0 0 0xff1 0 base) 0xff1 16) ∧
    (LegalKeySize 16 ∧ Admitted (regsAt 0 0 0 0 0xff0 0 base) 0xff0 16 ∧
      (regsAt 0 0 0 0 0xff0 0 base).keyAddr = 0xff0) := by decide +kernel

/-- The states of the clauses of the two block commands. -/
theorem witness_aesBlock :
    base.aes.valid = false ∧
    ((withAes (regsAt 0xff0 0 0xff1 0 0 0 base)).aes.valid = true ∧
      ¬ (Admitted (regsAt 0xff0 0 0xff1 0 0 0 base) 0xff0 16 ∧
        Admitted (regsAt 0xff0 0 0xff1 0 0 0 base) 0xff1 16)) ∧
    (Admitted (regsAt 0x100 0 0x10f 0 0 0 base) 0x100 16 ∧
      Admitted (regsAt 0x100 0 0x10f 0 0 0 base) 0x10f 16 ∧ ¬ AliasOk 0x100 0x10f 16) ∧
    (Admitted (regsAt 0x100 0 0x110 0 0 0 base) 0x110 16 ∧ AliasOk 0x100 0x110 16 ∧
      AliasOk 0x100 0x100 16) := by decide +kernel

/-- For XorBufRule: an output outside memory, an output over the last byte of an input, an output on
one input next to the other. -/
theorem witness_xorBuf :
    ¬ (Admitted base 0x100 9 ∧ Admitted base 0x120 9 ∧ Admitted base 0xff8 9) ∧
    (Admitted base 0x100 9 ∧ Admitted base 0x120 9 ∧ Admitted base 0x128 9 ∧
      ¬ (AliasOk 0x100 0x128 9 ∧ AliasOk 0x120 0x128 9)) ∧
    (Admitted base 0x100 9 ∧ Admitted base 0x109 9 ∧ AliasOk 0x100 0x109 9 ∧ AliasOk 0x109 0x109 9) ∧
    (regsAt 0x100 0x109 0x109 9 0 0 base).dataLen = 9 := by decide +kernel

/-- For the three `*_INIT` rules: the IV ends at the end of memory, or one byte past it. -/
theorem witness_init :
    base.aes.valid = false ∧ (withAes base).aes.valid = true ∧
    ¬ Admitted base 0xff1 16 ∧ Admitted base 0xff0 16 ∧
    ¬ Admitted base 0xff9 8 ∧ Admitted base 0xff8 8 ∧
    (regsAt 0 0 0 0 0 0xff8 base).ivAddr = 0xff8 := by decide +kernel

/-- For the three `*_INIT_WITH_KEY` rules. -/
theorem witness_initWithKey :
    ¬ LegalKeySize 31 ∧
    (LegalKeySize 32 ∧ ¬ (Admitted base 0xfe1 32 ∧ Admitted base 0xff0 16)) ∧
    (LegalKeySize 32 ∧ ¬ (Admitted base 0xfe0 32 ∧ Admitted base 0xff9 8)) ∧
    (LegalKeySize 32 ∧ Admitted base 0xfe0 32 ∧ Admitted base 0xff0 16 ∧ Admitted base 0xff8 8) := by
  decide +kernel

/-- For CbcEncryptRule and CbcDecryptRule: lengths 17, 16 and 0, and ranges that meet. -/
theorem witness_cbc :
    base.cbc.valid = false ∧ (withCbc base).cbc.valid = true ∧
    (regsAt 0 0 0 17 0 0 base).dataLen % 16 ≠ 0 ∧
    ((regsAt 0 0 0 16 0 0 base).dataLen % 16 = 0 ∧ ¬ (Admitted base 0x100 16 ∧ Admitted base 0xff1 16)) ∧
    (Admitted base 0x100 16 ∧ Admitted base 0xf1 16 ∧ ¬ AliasOk 0x100 0xf1 16) ∧
    (Admitted base 0x100 16 ∧ Admitted base 0xf0 16 ∧ AliasOk 0x100 0xf0 16) ∧
    ((regsAt 0 0 0x1000 0 0 0 base).dataLen % 16 = 0 ∧ Admitted base 0x1000 0 ∧ AliasOk 0x100 0x1000 0) ∧
    Runs .cbcEncrypt (withCbc base) := by
  refine ⟨by decide +kernel, by decide +kernel, by decide +kernel, by decide +kernel,
    by decide +kernel, by decide +kernel, by decide +kernel, runs_of_after (by decide +kernel)⟩

/-- For CbcEncryptWithKeyRule and CbcDecryptWithKeyRule; the output may lie on the key. -/
theorem witness_cbcWithKey :
    ¬ LegalKeySize 15 ∧ (LegalKeySize 16 ∧ (regsAt 0 0 0 15 0 0 base).dataLen % 16 ≠ 0) ∧
    (LegalKeySize 16 ∧ ¬ (Admitted base 0xff1 16 ∧ Admitted base 0x40 16 ∧ Admitted base 0x100 32 ∧
      Admitted base 0x200 32)) ∧
    (LegalKeySize 16 ∧ Admitted base 0 16 ∧ Admitted base 0x40 16 ∧ Admitted base 0x100 32 ∧
      Admitted base 0x11f 32 ∧ ¬ AliasOk 0x100 0x11f 32) ∧
    (LegalKeySize 16 ∧ Admitted base 0 16 ∧ Admitted base 0x40 16 ∧ Admitted base 0x100 32 ∧
      AliasOk 0x100 0 32) ∧
    (∃ t, exec (.cbcEncryptWithKey 16) (regsAt 0x100 0 0 32 0 0x40 base) = .next t) :=
  ⟨by decide, by decide +kernel, by decide +kernel, by decide +kernel, by decide +kernel, ⟨_, rfl⟩⟩

/-- For CtrSetStreamIndexRule, CtrXorRule and CtrOutputRule: an empty slot, a slot in the middle of the
last block of the stream, and ranges as in the CBC witness. -/
theorem witness_ctr :
    base.ctr.valid = false ∧ (withCtr base).ctr.valid = true ∧ CtrCached (withCtr base).ctr ∧
    CtrCached ⟨true, ctx128, Block8.zero, 0xfffffffffffffff8, 0x0fffffffffffffff,
      aesE ctx128 (Block8.zero.append (be64 0x0fffffffffffffff))⟩ ∧
    ¬ (Admitted base 0x100 1 ∧ Admitted base 0x1000 1) ∧
    (Admitted base 0x100 2 ∧ Admitted base 0x101 2 ∧ ¬ AliasOk 0x100 0x101 2) ∧
    (Admitted base 0x100 1 ∧ Admitted base 0x101 1 ∧ AliasOk 0x100 0x101 1) := by
  refine ⟨by decide +kernel, rfl, ctrCached_init _ _, ⟨by decide, rfl⟩, by decide +kernel,
    by decide +kernel, by decide +kernel⟩

/-- For CtrXorWithKeyRule and OfbXorWithKeyRule. -/
theorem witness_streamWithKey :
    ¬ LegalKeySize 33 ∧
    (LegalKeySize 24 ∧ ¬ (Admitted base 0 24 ∧ Admitted base 0xff9 8 ∧ Admitted base 0x100 5 ∧
      Admitted base 0x200 5)) ∧
    (LegalKeySize 24 ∧ ¬ (Admitted base 0 24 ∧ Admitted base 0xff1 16 ∧ Admitted base 0x100 5 ∧
      Admitted base 0x200 5)) ∧
    (LegalKeySize 24 ∧ Admitted base 0 24 ∧ Admitted base 0xff8 8 ∧ Admitted base 0xff0 16 ∧
      Admitted base 0x100 5 ∧ Admitted base 0x104 5 ∧ ¬ AliasOk 0x100 0x104 5) ∧
    (Admitted base 0x105 5 ∧ AliasOk 0x100 0x105 5) := by decide +kernel

/-- For OfbXorRule and OfbOutputRule: nothing consumed, a whole block consumed (`OFF = 16`), one byte
of the second block consumed (R38). -/
theorem witness_ofb :
    base.ofb.valid = false ∧ (withOfb base).ofb.valid = true ∧
    OfbConsumed (withOfb base).ofb (Block.ofList iv16) 0 ∧
    OfbConsumed ⟨true, ctx128, aesE ctx128 Block.zero, 16⟩ Block.zero 16 ∧
    OfbConsumed ⟨true, ctx128, aesE ctx128 (aesE ctx128 Block.zero), 1⟩ Block.zero 17 :=
  ⟨by decide +kernel, rfl, ⟨rfl, rfl⟩, ⟨rfl, rfl⟩, ⟨rfl, rfl⟩⟩

/-- For DecryptionInvertsEncryption, DirectInverseIsInvCipher, KeyExpansionRecurrence,
DecryptionSchedule and CbcLaws. -/
theorem witness_keys :
    Expanded ctx128 ∧ LegalKeySize k128.length ∧ pt32.length % 16 = 0 ∧ (0x01 : Byte) ≠ 0 :=
  ⟨expanded_ctx128, by decide, by decide, by decide⟩

/-- For the inner clauses of KeyExpansionRecurrence (with a 32-byte key, word 4 of a group of 8 too)
and DecryptionSchedule. -/
theorem witness_schedule :
    (4 % 4 = 0 ∧ 43 < 4 * (10 + 1)) ∧ (8 ≤ 12 ∧ 12 % 8 = 4 ∧ 12 < 4 * (14 + 1)) ∧
    (1 ≤ 9 ∧ 9 < ctx128.nr) ∧ (ctx128.nr < 11 ∧ 11 ≤ 14) := by decide +kernel

/-- For the round constants of KeyExpansionRecurrence: the first doubling, and the reduced one. -/
theorem witness_rcon : 1 ≤ 1 ∧ rcon 1 = 0x01 ∧ 1 ≤ 8 ∧ rcon 8 = 0x80 := by decide

/-- For RoundsOfTheCipher: the last row and column, and the first and last inner round of AES-128. -/
theorem witness_rounds :
    (3 < 4 ∧ 3 + 4 * 3 < 16) ∧ (1 ≤ 1 ∧ 1 ≤ ctx128.nr - 1) ∧ (1 ≤ 9 ∧ 9 ≤ ctx128.nr - 1) := by
  decide +kernel

/-- For the counter block of CtrLaws: its last byte, R206's example for block 1. -/
theorem witness_counterBlock :
    7 < 8 ∧
    (Block8.ofList [0x00, 0x01, 0x02, 0x03, 0x04, 0x05, 0x06, 0x07]).append (be64 1) =
      Block.ofList [0x00, 0x01, 0x02, 0x03, 0x04, 0x05, 0x06, 0x07, 0x00, 0x00, 0x00, 0x00, 0x00, 0x00,
      0x00, 0x01] := by decide

/-- For CtrLaws: a seek from a cached state, and a position of the data. -/
theorem witness_ctrLaws :
    CtrCached (ctrInitSlot ctx128 Block8.zero) ∧ 31 < pt32.length := ⟨ctrCached_init _ _, by decide⟩

/-- For OneShotIsInitThenTransform: each one-shot answers, with result `OK`. -/
theorem witness_oneShot :
    Runs (.cbcEncryptWithKey 16) base ∧ Runs (.cbcDecryptWithKey 16) base ∧
    Runs (.ctrXorWithKey 16) base ∧ Runs (.ofbXorWithKey 16) base :=
  ⟨runs_of_after (by decide +kernel), runs_of_after (by decide +kernel),
    runs_of_after (by decide +kernel), runs_of_after (by decide +kernel)⟩

/-- For OneShotsRestoreTheBuffer: in place, the buffer disjoint from the key and the IV. -/
theorem witness_restore :
    (at3 base 0x100 0x100 32).srcAddr = (at3 base 0x100 0x100 32).dstAddr ∧
    (at3 base 0x100 0x100 32).keyAddr + 16 ≤ (at3 base 0x100 0x100 32).dstAddr ∧
    (at3 base 0x100 0x100 32).ivAddr + 16 ≤ (at3 base 0x100 0x100 32).dstAddr ∧
    Runs (.cbcEncryptWithKey 16) (at3 base 0x100 0x100 32) ∧
    Runs (.ctrXorWithKey 16) (at3 base 0x100 0x100 32) ∧
    Runs (.ofbXorWithKey 16) (at3 base 0x100 0x100 32) :=
  ⟨rfl, by decide +kernel, by decide +kernel, runs_of_after (by decide +kernel),
    runs_of_after (by decide +kernel), runs_of_after (by decide +kernel)⟩

end Sys2Proof.Tests
end

/-! ### The memory invariant: every step keeps `MemInv`, `MEM_BYTES` and the host's own fields -/

namespace Sys2Proof.Proofs

open Sys2Proof.Machine Sys2Proof.Safety

/-- `MemInv` speaks of the buffer memory and `MEM_BYTES` only. -/
theorem memInv_congr {s t : State} (hm : t.mem = s.mem) (hb : t.memBytes = s.memBytes)
    (hs : MemInv s) : MemInv t := by
  unfold MemInv at *
  rwa [hm, hb]

/-- Storing bytes at addresses below `MEM_BYTES` keeps the memory invariant. -/
theorem memInv_of_writeBytes {s t : State} {a : Nat} {bs : List Byte}
    (hm : t.mem = Memory.writeBytes s.mem a bs) (hb : t.memBytes = s.memBytes)
    (hin : ∀ x, a ≤ x → x < a + bs.length → x < s.memBytes) (hs : MemInv s) : MemInv t := by
  obtain ⟨hwf, hlisted, hmax⟩ := hs
  unfold MemInv
  rw [hm, hb]
  refine ⟨Memory.wf_writeBytes hwf a bs, fun c hc => ?_, hmax⟩
  obtain ⟨hlo, hhi⟩ | hold := Memory.addr_of_mem_writeBytes hc
  · exact hin c.1 hlo hhi
  · exact hlisted c hold

/-- A command that writes memory has its output range among the ranges its access check tests
(R65, R256). -/
theorem dstRange_checked {s : State} {i : Instr} {n : Nat} (h : outputSize s i = some n) :
    ∃ rs, accessCheck s rs ∈ checksOf s i ∧ dstRange s n ∈ rs := by
  cases i with
  | aesInit | cbcInit | cbcInitWithKey | ctrInit | ctrInitWithKey | ctrSetStreamIndex | ofbInit
  | ofbInitWithKey | zeroize => cases h
  | xorBuf => cases h; exact ⟨_, .head _, by simp⟩
  | aesEncrypt | aesDecrypt | ctrXor | ctrOutput | ctrXorWithKey | ofbXor | ofbOutput
  | ofbXorWithKey => cases h; exact ⟨_, .tail _ (.head _), by simp [Config.blockBytes]⟩
  | cbcEncrypt | cbcDecrypt | cbcEncryptWithKey | cbcDecryptWithKey =>
    cases h; exact ⟨_, .tail _ (.tail _ (.head _)), by simp⟩

/-- The output range of a command that passed its checks is admitted (R66). -/
theorem outputRange_admitted {s : State} {i : Instr} {n : Nat}
    (hf : firstFailure (checksOf s i) = none) (hn : outputSize s i = some n) :
    Admitted s s.dstAddr n := by
  obtain ⟨rs, hcheck, hdst⟩ := dstRange_checked hn
  exact (accessCheck_passes s rs).1 (firstFailure_eq_none.1 hf _ hcheck) _ hdst

/-- A command that passed its checks stores no byte at `MEM_BYTES` or above (R66). -/
theorem output_inside {s : State} {i : Instr} (hf : firstFailure (checksOf s i) = none) (x : Nat)
    (hlo : s.dstAddr ≤ x) (hhi : x < s.dstAddr + (outputOf s i).length) : x < s.memBytes := by
  rw [outputOf_length hf] at hhi
  cases hn : outputSize s i with
  | none => simp only [hn, Option.getD_none] at hhi; omega
  | some n =>
    have hadm : s.dstAddr + n ≤ s.memBytes := outputRange_admitted hf hn
    simp only [hn, Option.getD_some] at hhi
    omega

/-- Every command keeps the memory invariant. -/
theorem exec_memInv {i : Instr} {s t : State} (h : exec i s = .next t) (hs : MemInv s) :
    MemInv t := by
  obtain ⟨hf, rfl⟩ | ⟨e, -, rfl⟩ := exec_cases h
  · exact memInv_of_writeBytes rfl rfl (output_inside hf) hs
  · exact memInv_congr rfl rfl hs

/-- No command changes `MEM_BYTES`, the script or the reply (log entries 1, 2, 6). -/
theorem exec_hostFields {i : Instr} {s t : State} (h : exec i s = .next t) :
    t.memBytes = s.memBytes ∧ t.script = s.script ∧ t.reply = s.reply := by
  obtain ⟨-, rfl⟩ | ⟨e, -, rfl⟩ := exec_cases h <;> exact ⟨rfl, rfl, rfl⟩

/-- A write to `CMD`, legal or not, keeps the memory invariant. -/
theorem runWord_memInv {w : CommandWord} {s t : State} (h : runWord w s = .next t)
    (hs : MemInv s) : MemInv t := by
  obtain ⟨i, -, hexec⟩ | ⟨-, rfl⟩ := runWord_cases h
  · exact exec_memInv hexec (memInv_congr rfl rfl hs)
  · exact memInv_congr rfl rfl hs

/-- A write to `CMD` changes neither `MEM_BYTES` nor the script nor the reply. -/
theorem runWord_hostFields {w : CommandWord} {s t : State} (h : runWord w s = .next t) :
    t.memBytes = s.memBytes ∧ t.script = s.script ∧ t.reply = s.reply := by
  obtain ⟨i, -, hexec⟩ | ⟨-, rfl⟩ := runWord_cases h
  · simpa using exec_hostFields hexec
  · exact ⟨rfl, rfl, rfl⟩

/-- Every step of the host keeps the memory invariant: it stores bytes in an admitted range only. -/
theorem hostStep_memInv {x : HostStep} {s t : State} (h : hostStep x s = .next t)
    (hs : MemInv s) : MemInv t := by
  obtain ⟨v, -, hw⟩ | ⟨n, v, r, -, rfl⟩ | ⟨n, v, -, rfl⟩ | ⟨a, bs, -, hadm, rfl⟩ |
    ⟨a, n, v, -, rfl⟩ | ⟨-, rfl⟩ := hostStep_cases h
  · exact runWord_memInv hw hs
  · exact memInv_congr rfl rfl hs
  · exact memInv_congr rfl rfl hs
  · exact memInv_of_writeBytes rfl rfl (fun x _ hhi => by omega) hs
  · exact memInv_congr rfl rfl hs
  · exact memInv_congr rfl rfl hs

/-- No step of the host changes `MEM_BYTES` or the script of the steps still pending. -/
theorem hostStep_memBytes_script {x : HostStep} {s t : State} (h : hostStep x s = .next t) :
    t.memBytes = s.memBytes ∧ t.script = s.script := by
  obtain ⟨v, -, hw⟩ | ⟨n, v, r, -, rfl⟩ | ⟨n, v, -, rfl⟩ | ⟨a, bs, -, -, rfl⟩ |
    ⟨a, n, v, -, rfl⟩ | ⟨-, rfl⟩ := hostStep_cases h
  · obtain ⟨hbytes, hscript, -⟩ := runWord_hostFields hw
    exact ⟨hbytes, hscript⟩
  all_goals exact ⟨rfl, rfl⟩

/-- A step of the host that is no read keeps the last reply. -/
theorem hostStep_reply {x : HostStep} {s t : State} (h : hostStep x s = .next t)
    (hreg : ∀ n, x ≠ .regRead n) (hmem : ∀ a n, x ≠ .memRead a n) : t.reply = s.reply := by
  obtain ⟨v, -, hw⟩ | ⟨n, v, r, -, rfl⟩ | ⟨n, v, rfl, -⟩ | ⟨a, bs, -, -, rfl⟩ |
    ⟨a, n, v, rfl, -⟩ | ⟨-, rfl⟩ := hostStep_cases h
  · obtain ⟨-, -, hreply⟩ := runWord_hostFields hw
    exact hreply
  · rfl
  · exact absurd rfl (hreg n)
  · rfl
  · exact absurd rfl (hmem a n)
  · rfl

/-- Settles O13: an idle step answers the same state; any other is the oldest host step, run on the
state without it in the script. -/
theorem stepKeepsMemoryInvariant : Obligations.StepKeepsMemoryInvariant := by
  unfold Obligations.StepKeepsMemoryInvariant
  intro s t hs hstep
  obtain ⟨hidle, rfl⟩ | ⟨x, rest, hscript, hx⟩ := step_cases hstep
  · exact ⟨hs, rfl, by simp [hidle], fun _ _ => rfl⟩
  · obtain ⟨hbytes, hrest⟩ := hostStep_memBytes_script hx
    refine ⟨hostStep_memInv hx (memInv_congr rfl rfl hs), hbytes, by simp [hscript, hrest],
      fun hreg hmem => ?_⟩
    simp only [hscript, List.head?_cons, ne_eq, Option.some.injEq] at hreg hmem
    rw [hostStep_reply hx hreg hmem, State.setScript_reply]

end Sys2Proof.Proofs

/-! ### The slots: what a command and a step can do to them (R26, R30 to R42) -/

namespace Sys2Proof.Proofs

open Sys2Proof.Machine Sys2Proof.Safety

/-- Check 2 of R251: a keyed command that passed its checks has a key of a legal size (R253). -/
theorem ksz_legal {s : State} {i : Instr} {k : Nat} (hf : firstFailure (checksOf s i) = none)
    (hk : i.ksz? = some k) : LegalKeySize k := by
  refine (keySizeCheck_passes k).1 (firstFailure_eq_none.1 hf _ ?_)
  cases i with
  | aesInit | cbcInitWithKey | cbcEncryptWithKey | cbcDecryptWithKey | ctrInitWithKey
  | ctrXorWithKey | ofbInitWithKey | ofbXorWithKey => cases hk; exact .head _
  | aesEncrypt | aesDecrypt | xorBuf | cbcInit | cbcEncrypt | cbcDecrypt | ctrInit
  | ctrSetStreamIndex | ctrXor | ctrOutput | ofbInit | ofbXor | ofbOutput | zeroize => cases hk

/-- Check 3 of R251: a command that passed its checks found the slot it needs valid (R254). -/
theorem contextPresent_of_checks {s : State} {i : Instr}
    (hf : firstFailure (checksOf s i) = none) : contextPresent s i = true := by
  have hpass := firstFailure_eq_none.1 hf
  cases i with
  | aesEncrypt | aesDecrypt | cbcInit | cbcEncrypt | cbcDecrypt | ctrInit | ctrSetStreamIndex
  | ctrXor | ctrOutput | ofbInit | ofbXor | ofbOutput => exact hpass _ (.head _)
  | aesInit | xorBuf | cbcInitWithKey | cbcEncryptWithKey | cbcDecryptWithKey | ctrInitWithKey
  | ctrXorWithKey | ofbInitWithKey | ofbXorWithKey | zeroize => rfl

/-- The context of a key of a legal size in memory is an expanded one (R143). -/
theorem expanded_keyBytes (s : State) {k : Nat} (hk : LegalKeySize k) :
    Expanded (expand (s.keyBytes k)) :=
  ⟨s.keyBytes k, by simpa only [State.keyBytes, State.memRead, Memory.length_readBytes], rfl⟩

/-- An invariant of the four slots, kept by every command that passed its checks and true after
reset, is kept by every step: nothing else a step can do changes a slot. -/
theorem step_keeps_slots {P : State → Prop}
    (hslots : ∀ {s t : State}, P s → t.aes = s.aes → t.cbc = s.cbc → t.ctr = s.ctr →
      t.ofb = s.ofb → P t)
    (hcommand : ∀ {s : State} {i : Instr}, firstFailure (checksOf s i) = none → P s →
      P (successOf s i))
    (hreset : P State.reset) {s t : State} (hs : P s) (hstep : step s = .next t) : P t := by
  obtain ⟨-, rfl⟩ | ⟨x, rest, -, hx⟩ := step_cases hstep
  · exact hs
  · have hs' : P (s.setScript rest) := hslots hs rfl rfl rfl rfl
    obtain ⟨v, -, hw⟩ | ⟨n, v, r, -, rfl⟩ | ⟨n, v, -, rfl⟩ | ⟨a, bs, -, -, rfl⟩ |
      ⟨a, n, v, -, rfl⟩ | ⟨-, rfl⟩ := hostStep_cases hx
    · obtain ⟨i, -, hexec⟩ | ⟨-, rfl⟩ := runWord_cases hw
      · have hcmd : P ((s.setScript rest).setCmd (v.setWidth 32)) := hslots hs' rfl rfl rfl rfl
        obtain ⟨hf, rfl⟩ | ⟨e, -, rfl⟩ := exec_cases hexec
        · exact hcommand hf hcmd
        · exact hslots hcmd rfl rfl rfl rfl
      · exact hslots hs' rfl rfl rfl rfl
    · exact hslots hs' rfl rfl rfl rfl
    · exact hslots hs' rfl rfl rfl rfl
    · exact hslots hs' rfl rfl rfl rfl
    · exact hslots hs' rfl rfl rfl rfl
    · exact hslots hreset rfl rfl rfl rfl

/-! #### The streams keep the mode state of R36 and R38 -/

/-- The block index of a stream index is below `2^60` (R36). -/
theorem ctrCached_bidx_lt {c : CtrSlot} (h : CtrCached c) : c.bidx.toNat < 2 ^ 60 := by
  have := c.sidx.isLt
  rw [h.1]
  omega

/-- Initialisation makes the first keystream block (R200). -/
theorem ctrCached_ctrInitSlot (ctx : CipherCtx) (iv : Block8) : CtrCached (ctrInitSlot ctx iv) :=
  ⟨by simp [ctrInitSlot], rfl⟩

/-- A seek keeps the cache right: it makes the block again when the block index changes (R207). -/
theorem ctrCached_ctrSeek {c : CtrSlot} (h : CtrCached c) (idx : Word64) :
    CtrCached (ctrSeek c idx) := by
  refine ⟨by simp, ?_⟩
  obtain ⟨-, hks⟩ := h
  rw [ctrSeek_ctx, ctrSeek_iv, ctrSeek_bidx]
  simp only [ctrSeek]
  split
  · next hsame => rw [hsame]; exact hks
  · rfl

/-- A CTR transform keeps the cache right: it seeks after each byte (R208). -/
theorem ctrCached_ctrXor {c : CtrSlot} (h : CtrCached c) (d : List Byte) :
    CtrCached (ctrXor c d).2 := by
  induction d generalizing c with
  | nil => exact h
  | cons b d ih => exact ih (ctrCached_ctrSeek h (c.sidx + 1))

/-- `n + 1` bytes consumed: the last one was byte `n mod 16` of block `n div 16` (R38). -/
theorem ofbConsumed_succ (o : OfbSlot) (iv : Block) (n : Nat) :
    OfbConsumed o iv (n + 1) ↔ o.ks = ofbBlock o.ctx iv (n / 16) ∧ o.off.val = n % 16 + 1 := by
  have hblock : (n + 1 + 15) / 16 - 1 = n / 16 := by omega
  have hoff : n + 1 - 16 * (n / 16) = n % 16 + 1 := by omega
  unfold OfbConsumed
  rw [if_neg (Nat.succ_ne_zero n), hblock, hoff]

/-- After a refill the next byte is byte `n mod 16` of block `n div 16`, `n` bytes consumed
(R38, R226). -/
theorem ofbRefill_of_consumed {o : OfbSlot} {iv : Block} {n : Nat} (h : OfbConsumed o iv n) :
    (ofbRefill o).ks = ofbBlock o.ctx iv (n / 16) ∧ (ofbRefill o).off.val = n % 16 := by
  unfold ofbRefill
  cases n with
  | zero =>
    obtain ⟨hks, hoff⟩ : o.ks = ofbBlock o.ctx iv 0 ∧ o.off.val = 0 := h
    rw [if_neg (fun h16 => by simp [h16] at hoff)]
    exact ⟨hks, hoff⟩
  | succ n =>
    obtain ⟨hks, hoff⟩ := (ofbConsumed_succ o iv n).1 h
    split
    · next hfull =>
      have hlast : n % 16 + 1 = 16 := by rw [← hoff, hfull]; rfl
      rw [show (n + 1) / 16 = n / 16 + 1 by omega, show (n + 1) % 16 = 0 by omega]
      exact ⟨congrArg (aesE o.ctx) hks, rfl⟩
    · next hrest =>
      have hnotlast : n % 16 + 1 ≠ 16 := fun h16 => hrest (Fin.ext (hoff.trans h16))
      rw [show (n + 1) / 16 = n / 16 by omega, show (n + 1) % 16 = n % 16 + 1 by omega]
      exact ⟨hks, hoff⟩

/-- Initialisation makes the first keystream block and uses none of it (R220). -/
theorem ofbConsumed_ofbInitSlot (ctx : CipherCtx) (iv : Block) :
    OfbConsumed (ofbInitSlot ctx iv) iv 0 :=
  ⟨rfl, rfl⟩

/-- Using one byte counts one byte (R226). -/
theorem ofbConsumed_advance {o : OfbSlot} {iv : Block} {n : Nat} (h : OfbConsumed o iv n) :
    OfbConsumed (ofbAdvance (ofbRefill o)) iv (n + 1) := by
  obtain ⟨hks, hoff⟩ := ofbRefill_of_consumed h
  have hlt : n % 16 + 1 < 17 := by omega
  refine (ofbConsumed_succ _ _ _).2 ⟨?_, ?_⟩
  · simpa [ofbAdvance] using hks
  · simp [ofbAdvance, hoff, Nat.mod_eq_of_lt hlt]

/-- An OFB transform counts the bytes of its data (R38, R226). -/
theorem ofbConsumed_ofbXor {o : OfbSlot} {iv : Block} {n : Nat} (h : OfbConsumed o iv n)
    (d : List Byte) : OfbConsumed (ofbXor o d).2 iv (n + d.length) := by
  induction d generalizing o n with
  | nil => exact h
  | cons b d ih =>
    rw [show n + (b :: d).length = n + 1 + d.length by rw [List.length_cons]; omega]
    exact ih (ofbConsumed_advance h)

/-! #### A command that passed its checks keeps the invariant of each slot -/

theorem successOf_aesInv {s : State} {i : Instr} (hf : firstFailure (checksOf s i) = none)
    (haes : AesInv s) : AesInv (successOf s i) := by
  cases i with
  | aesInit k => exact ⟨fun _ => expanded_keyBytes s (ksz_legal hf rfl), nofun⟩
  | zeroize sel =>
    simp only [AesInv, successOf, aesAfter]
    cases sel.getLsbD 0
    · exact haes
    · exact ⟨nofun, fun _ => rfl⟩
  | _ => exact haes

theorem successOf_cbcInv {s : State} {i : Instr} (hf : firstFailure (checksOf s i) = none)
    (haes : AesInv s) (hcbc : CbcInv s) : CbcInv (successOf s i) := by
  have hpresent := contextPresent_of_checks hf
  cases i with
  | cbcInit => exact ⟨fun _ => haes.1 hpresent, nofun⟩
  | cbcInitWithKey k => exact ⟨fun _ => expanded_keyBytes s (ksz_legal hf rfl), nofun⟩
  | cbcEncrypt | cbcDecrypt =>
    exact ⟨hcbc.1, fun hinvalid => absurd (hpresent.symm.trans hinvalid) nofun⟩
  | zeroize sel =>
    simp only [CbcInv, successOf, cbcAfter]
    cases sel.getLsbD 1
    · exact hcbc
    · exact ⟨nofun, fun _ => rfl⟩
  | _ => exact hcbc

/-- Every command keeps the cache of R36, whatever the contexts are. -/
theorem successOf_ctrCached {s : State} {i : Instr}
    (hctr : s.ctr.valid = true → CtrCached s.ctr) :
    (successOf s i).ctr.valid = true → CtrCached (successOf s i).ctr := by
  cases i with
  | ctrInit | ctrInitWithKey => exact fun _ => ctrCached_ctrInitSlot _ _
  | ctrSetStreamIndex =>
    exact fun hvalid => ctrCached_ctrSeek (hctr ((ctrSeek_valid _ _).symm.trans hvalid)) _
  | ctrXor | ctrOutput =>
    exact fun hvalid => ctrCached_ctrXor (hctr ((ctrXor_keeps _ _).1.symm.trans hvalid)) _
  | zeroize sel =>
    simp only [successOf, ctrAfter]
    cases sel.getLsbD 2
    · exact hctr
    · exact nofun
  | _ => exact hctr

/-- A valid slot with an expanded context and the right cache meets the CTR invariant. -/
theorem ctrInv_of_valid {t : State} (hvalid : t.ctr.valid = true) (hctx : Expanded t.ctr.ctx)
    (hcached : CtrCached t.ctr) : CtrInv t :=
  ⟨fun _ => ⟨hctx, hcached⟩, fun hinvalid => absurd (hvalid.symm.trans hinvalid) nofun⟩

theorem successOf_ctrInv {s : State} {i : Instr} (hf : firstFailure (checksOf s i) = none)
    (haes : AesInv s) (hctr : CtrInv s) : CtrInv (successOf s i) := by
  have hpresent := contextPresent_of_checks hf
  cases i with
  | ctrInit => exact ctrInv_of_valid rfl (haes.1 hpresent) (ctrCached_ctrInitSlot _ _)
  | ctrInitWithKey k =>
    exact ctrInv_of_valid rfl (expanded_keyBytes s (ksz_legal hf rfl)) (ctrCached_ctrInitSlot _ _)
  | ctrSetStreamIndex =>
    obtain ⟨hctx, hcached⟩ := hctr.1 hpresent
    exact ctrInv_of_valid ((ctrSeek_valid _ _).trans hpresent)
      ((congrArg Expanded (ctrSeek_ctx _ _)).mpr hctx) (ctrCached_ctrSeek hcached _)
  | ctrXor | ctrOutput =>
    obtain ⟨hctx, hcached⟩ := hctr.1 hpresent
    obtain ⟨hvalid, hsame, -⟩ := ctrXor_keeps s.ctr _
    exact ctrInv_of_valid (hvalid.trans hpresent) ((congrArg Expanded hsame).mpr hctx)
      (ctrCached_ctrXor hcached _)
  | zeroize sel =>
    simp only [CtrInv, successOf, ctrAfter]
    cases sel.getLsbD 2
    · exact hctr
    · exact ⟨nofun, fun _ => rfl⟩
  | _ => exact hctr

/-- A valid slot with an expanded context and some bytes consumed meets the OFB invariant. -/
theorem ofbInv_of_valid {t : State} {iv : Block} {n : Nat} (hvalid : t.ofb.valid = true)
    (hctx : Expanded t.ofb.ctx) (hused : OfbConsumed t.ofb iv n) : OfbInv t :=
  ⟨fun _ => ⟨hctx, iv, n, hused⟩, fun hinvalid => absurd (hvalid.symm.trans hinvalid) nofun⟩

theorem successOf_ofbInv {s : State} {i : Instr} (hf : firstFailure (checksOf s i) = none)
    (haes : AesInv s) (hofb : OfbInv s) : OfbInv (successOf s i) := by
  have hpresent := contextPresent_of_checks hf
  cases i with
  | ofbInit => exact ofbInv_of_valid rfl (haes.1 hpresent) (ofbConsumed_ofbInitSlot _ _)
  | ofbInitWithKey k =>
    exact ofbInv_of_valid rfl (expanded_keyBytes s (ksz_legal hf rfl)) (ofbConsumed_ofbInitSlot _ _)
  | ofbXor | ofbOutput =>
    obtain ⟨hctx, iv, n, hused⟩ := hofb.1 hpresent
    obtain ⟨hvalid, hsame⟩ := ofbXor_keeps s.ofb _
    exact ofbInv_of_valid (hvalid.trans hpresent) ((congrArg Expanded hsame).mpr hctx)
      (ofbConsumed_ofbXor hused _)
  | zeroize sel =>
    simp only [OfbInv, successOf, ofbAfter]
    cases sel.getLsbD 3
    · exact hofb
    · exact ⟨nofun, fun _ => rfl⟩
  | _ => exact hofb

/-! #### The invariants along steps -/

/-- Settles O16: nothing is listed in the memory at reset, and every slot is the zeroed one. -/
theorem resetMeetsInvariants : Obligations.ResetMeetsInvariants := by
  unfold Obligations.ResetMeetsInvariants
  have hmem : MemInv State.reset := ⟨State.reset_mem_wf, nofun, by decide⟩
  exact ⟨hmem, ⟨nofun, fun _ => rfl⟩, ⟨nofun, fun _ => rfl⟩, ⟨nofun, fun _ => rfl⟩,
    ⟨nofun, fun _ => rfl⟩⟩

/-- Settles O14: the conjunction of the four slot invariants holds after reset and is kept by every
command, so every step keeps it. -/
theorem stepKeepsSlotInvariants : Obligations.StepKeepsSlotInvariants := by
  unfold Obligations.StepKeepsSlotInvariants
  intro s t haes hcbc hctr hofb hstep
  refine step_keeps_slots (P := fun s => AesInv s ∧ CbcInv s ∧ CtrInv s ∧ OfbInv s) ?_ ?_ ?_
    ⟨haes, hcbc, hctr, hofb⟩ hstep
  · intro s t hs ha hc hr ho
    simpa only [AesInv, CbcInv, CtrInv, OfbInv, ha, hc, hr, ho] using hs
  · intro s i hf ⟨haes, hcbc, hctr, hofb⟩
    exact ⟨successOf_aesInv hf haes, successOf_cbcInv hf haes hcbc, successOf_ctrInv hf haes hctr,
      successOf_ofbInv hf haes hofb⟩
  · exact resetMeetsInvariants.2

/-- Settles O15: the cache clause alone is kept by every command, whatever the contexts are. -/
theorem stepKeepsCtrCache : Obligations.StepKeepsCtrCache := by
  unfold Obligations.StepKeepsCtrCache
  refine ⟨nofun, fun s t hs hstep hvalid => ?_⟩
  have hcached : CtrCached t.ctr := by
    refine step_keeps_slots (P := fun s => s.ctr.valid = true → CtrCached s.ctr) ?_ ?_ nofun
      hs hstep hvalid
    · intro s t hs _ _ hr _
      rwa [hr]
    · exact fun _ hs => successOf_ctrCached hs
  exact ⟨hcached, ctrCached_bidx_lt hcached⟩

/-! #### What a command changes of the slots (R26, R31, R33, R39) -/

/-- A valid flag is cleared by a command that has no check, so only by one that succeeds. -/
theorem checksOf_of_clearsFlag {s : State} {i : Instr} {k : Slot} (h : clearsFlag i k = true) :
    checksOf s i = [] := by
  cases i with
  | zeroize => rfl
  | _ => cases h

/-- The valid flags a command leaves when its checks pass (R26). -/
theorem validFlag_successOf (s : State) (i : Instr) (k : Slot) :
    validFlag (successOf s i) k =
      if clearsFlag i k then false else if setsFlag i k then true else validFlag s k := by
  cases k with
  | aes =>
    cases i with
    | zeroize sel => exact apply_ite AesSlot.valid (sel.getLsbD 0 = true) _ _
    | _ => rfl
  | cbc =>
    cases i with
    | zeroize sel => exact apply_ite CbcSlot.valid (sel.getLsbD 1 = true) _ _
    | _ => rfl
  | ctr =>
    cases i with
    | zeroize sel => exact apply_ite CtrSlot.valid (sel.getLsbD 2 = true) _ _
    | ctrSetStreamIndex => exact ctrSeek_valid s.ctr s.regs.idx
    | ctrXor | ctrOutput => exact (ctrXor_keeps s.ctr _).1
    | _ => rfl
  | ofb =>
    cases i with
    | zeroize sel => exact apply_ite OfbSlot.valid (sel.getLsbD 3 = true) _ _
    | ofbXor | ofbOutput => exact (ofbXor_keeps s.ofb _).1
    | _ => rfl

/-- An error result changes no valid flag (R258). -/
theorem validFlag_setResult (s : State) (e : ResultCode) (k : Slot) :
    validFlag (s.setResult e) k = validFlag s k := by
  cases k <;> rfl

/-- Settles O23: a command that succeeds leaves the flags of `validFlag_successOf`; one that fails is
no `ZEROIZE` and keeps them. -/
theorem validFlagsChangeOnlyAsListed : Obligations.ValidFlagsChangeOnlyAsListed := by
  unfold Obligations.ValidFlagsChangeOnlyAsListed
  intro i s t k h
  obtain ⟨-, rfl⟩ | ⟨e, hf, rfl⟩ := exec_cases h
  · have hok : ((successOf s i).result == .ok) = true := rfl
    rw [validFlag_successOf, hok, Bool.and_true]
  · have hclears : ¬ clearsFlag i k = true := fun hc => by
      rw [checksOf_of_clearsFlag hc] at hf
      cases hf
    have herror : ((s.setResult e).result == .ok) = false := beq_false_of_ne (firstFailure_ne_ok hf)
    rw [validFlag_setResult, if_neg hclears, herror, Bool.and_false, if_neg Bool.false_ne_true]

/-- Only `AES_INIT`, and `ZEROIZE` with bit 0 of `SEL`, change the AES slot (R31). -/
theorem aesAfter_of_not_writesSlot {s : State} {i : Instr} (h : writesSlot i .aes = false) :
    aesAfter s i = s.aes := by
  cases i with
  | aesInit => cases h
  | zeroize sel => exact if_neg (ne_true_of_eq_false h)
  | _ => rfl

theorem cbcAfter_of_not_writesSlot {s : State} {i : Instr} (h : writesSlot i .cbc = false) :
    cbcAfter s i = s.cbc := by
  cases i with
  | cbcInit | cbcInitWithKey | cbcEncrypt | cbcDecrypt => cases h
  | zeroize sel => exact if_neg (ne_true_of_eq_false h)
  | _ => rfl

theorem ctrAfter_of_not_writesSlot {s : State} {i : Instr} (h : writesSlot i .ctr = false) :
    ctrAfter s i = s.ctr := by
  cases i with
  | ctrInit | ctrInitWithKey | ctrSetStreamIndex | ctrXor | ctrOutput => cases h
  | zeroize sel => exact if_neg (ne_true_of_eq_false h)
  | _ => rfl

theorem ofbAfter_of_not_writesSlot {s : State} {i : Instr} (h : writesSlot i .ofb = false) :
    ofbAfter s i = s.ofb := by
  cases i with
  | ofbInit | ofbInitWithKey | ofbXor | ofbOutput => cases h
  | zeroize sel => exact if_neg (ne_true_of_eq_false h)
  | _ => rfl

/-- Settles O24: an error changes no slot, and a success changes a slot only where the command's rule
lists it. -/
theorem slotsChangeOnlyByTheirCommands : Obligations.SlotsChangeOnlyByTheirCommands := by
  unfold Obligations.SlotsChangeOnlyByTheirCommands
  intro i s t h
  obtain ⟨-, rfl⟩ | ⟨e, -, rfl⟩ := exec_cases h
  · exact ⟨aesAfter_of_not_writesSlot, cbcAfter_of_not_writesSlot, ctrAfter_of_not_writesSlot,
      ofbAfter_of_not_writesSlot⟩
  · exact ⟨fun _ => rfl, fun _ => rfl, fun _ => rfl, fun _ => rfl⟩

end Sys2Proof.Proofs

/-! ### Registers, `CMD` and the host's script (R20 to R28, R41, R245, R246) -/

namespace Sys2Proof.Proofs

open Sys2Proof.Machine Sys2Proof.Safety

/-- A command answers a next state in every state (R262). -/
theorem exec_total (i : Instr) (s : State) : ∃ t, exec i s = .next t := by
  rw [exec_eq]
  cases firstFailure (checksOf s i) with
  | none => exact ⟨_, rfl⟩
  | some e => exact ⟨_, rfl⟩

/-- No command writes an operand register or `CMD` (R22, R24). -/
theorem exec_regs_cmd {i : Instr} {s t : State} (h : exec i s = .next t) :
    t.regs = s.regs ∧ t.cmd = s.cmd := by
  obtain ⟨-, rfl⟩ | ⟨e, -, rfl⟩ := exec_cases h <;> exact ⟨rfl, rfl⟩

/-- A word that decodes runs as its command, with the word in `CMD` (R24). -/
theorem runWord_of_decode {w : CommandWord} {i : Instr} (h : decode w = .ok i) (s : State) :
    runWord w s = exec i (s.setCmd w) := by
  simp only [runWord, h]

/-- A word that does not decode only raises `IllegalCommand` (R96). -/
theorem runWord_of_illegal {w : CommandWord} {e : DecodeError} (h : decode w = .error e)
    (s : State) : runWord w s = .next ((s.setCmd w).setResult .illegalCommand) := by
  simp only [runWord, h]
  rfl

/-- Settles O17: a legal word is a command, which writes no register; an illegal one only raises. -/
theorem commandsWriteNoOperandRegister : Obligations.CommandsWriteNoOperandRegister := by
  unfold Obligations.CommandsWriteNoOperandRegister
  intro w s
  cases hd : decode w with
  | ok i =>
    obtain ⟨t, ht⟩ := exec_total i (s.setCmd w)
    obtain ⟨hregs, hcmd⟩ := exec_regs_cmd ht
    exact ⟨t, (runWord_of_decode hd s).trans ht, hregs, hcmd⟩
  | error e => exact ⟨_, runWord_of_illegal hd s, rfl, rfl⟩

/-- With a pending host step, the step of the machine is that one (R72). -/
theorem step_of_script_cons {s : State} {x : HostStep} {rest : List HostStep}
    (h : s.script = x :: rest) : step s = hostStep x (s.setScript rest) := by
  simp only [step, advance, h]

/-- A pending write of a legal word to `CMD` runs its command (R24, R72). -/
theorem step_of_pending_command {s : State} {v : Word64} {rest : List HostStep} {i : Instr}
    (hs : s.script = .regWrite 0x00 v :: rest) (hd : decode (v.setWidth 32) = .ok i) :
    step s = exec i ((s.setScript rest).setCmd (v.setWidth 32)) := by
  rw [step_of_script_cons hs, ← runWord_of_decode hd]
  rfl

/-- The 32 bits that `withFetchWord` puts in the script are those of the word. -/
theorem setWidth_fetchWord (w : Nat) :
    (BitVec.ofNat 64 (w % 2 ^ 32)).setWidth 32 = BitVec.ofNat 32 w := by
  apply BitVec.eq_of_toNat_eq
  simp only [BitVec.toNat_setWidth, BitVec.toNat_ofNat]
  omega

/-- Settles O6: the oldest pending host step is the step, and a write to `CMD` runs the word. -/
theorem stepRunsDecodedCommand : Obligations.StepRunsDecodedCommand := by
  unfold Obligations.StepRunsDecodedCommand
  refine ⟨fun s hs => by simp only [step, advance, hs], fun s x rest => step_of_script_cons,
    fun s v rest i => step_of_pending_command, fun s w i hd => ?_⟩
  have hword := setWidth_fetchWord w
  have hpending : (s.withFetchWord 32 w).script =
      .regWrite 0x00 (BitVec.ofNat 64 (w % 2 ^ 32)) :: s.script := rfl
  rw [step_of_pending_command hpending (by rw [hword, hd]), hword]
  rfl

/-- The value a read of `STATUS` returns fits its 32 bits (R25). -/
theorem statusWord_toNat (s : State) : (statusWord s).toNat = s.result.code
    + 16 * flagBit s.aes.valid + 32 * flagBit s.cbc.valid + 64 * flagBit s.ctr.valid
    + 128 * flagBit s.ofb.valid := by
  have hcode : ∀ r : ResultCode, r.code ≤ 6 := by
    intro r
    cases r <;> decide
  have hflag : ∀ b, flagBit b ≤ 1 := by decide
  have := hcode s.result
  have := hflag s.aes.valid
  have := hflag s.cbc.valid
  have := hflag s.ctr.valid
  have := hflag s.ofb.valid
  rw [statusWord, BitVec.toNat_ofNat]
  omega

/-- Numbers that name no register read 0 (R28). -/
theorem regReadValue_unnamed {n : Nat} (s : State) (hcmd : n ≠ 0x00) (hstatus : n ≠ 0x01)
    (hoperand : ¬ (0x10 ≤ n ∧ n ≤ 0x16)) : regReadValue n s = 0 := by
  have hnone : Reg.ofNumber? n = none := by
    unfold Reg.ofNumber?
    split
    case h_8 => rfl
    all_goals omega
  simp only [regReadValue, if_neg hcmd, if_neg hstatus, hnone]

/-- Settles O8: the value returned is `regReadValue`. -/
theorem regReadRule : Obligations.RegReadRule := by
  unfold Obligations.RegReadRule
  refine ⟨⟨rfl, rfl, rfl, rfl, rfl, rfl, rfl⟩, fun s n => ⟨regReadValue n s, rfl, ?_⟩⟩
  refine ⟨?_, ?_, ?_, ?_, ?_, ?_, ?_, ?_, ?_, regReadValue_unnamed s⟩ <;> rintro rfl
  · exact BitVec.toNat_setWidth_of_le (show 32 ≤ 64 by decide)
  · exact (BitVec.toNat_setWidth_of_le (show 32 ≤ 64 by decide)).trans (statusWord_toNat s)
  all_goals rfl

/-- Every round key of a zeroed schedule is the zero block (R41). -/
theorem roundKey_replicate_zero (r : Nat) :
    roundKey (Vector.replicate 15 Block.zero) r = Block.zero := by
  unfold roundKey Vector.getD Array.getD
  split <;> simp

/-- Settles O11: all four contexts of the reset state are the zeroed one. -/
theorem resetStateValues : Obligations.ResetStateValues := by
  unfold Obligations.ResetStateValues
  refine ⟨fun r => by cases r <;> rfl, rfl, rfl, fun k => by cases k <;> rfl, ?_, rfl, rfl, rfl,
    rfl, rfl, rfl, rfl⟩
  intro c hc
  have hzero : c = CipherCtx.zeroed := by
    simpa [State.reset, AesSlot.zeroed, CbcSlot.zeroed, CtrSlot.zeroed, OfbSlot.zeroed] using hc
  subst hzero
  exact ⟨rfl, fun r => ⟨roundKey_replicate_zero r, roundKey_replicate_zero r⟩⟩

/-- Every list of bytes is the content of a memory in canonical form, from address 0 on (R60). -/
theorem exists_memory_of_bytes (bs : List Byte) : ∃ m : Memory,
    Memory.wf m ∧ (∀ c ∈ m, c.1 < bs.length) ∧ ∀ a < bs.length, Memory.read m a = bs.getD a 0 := by
  refine ⟨Memory.writeBytes State.reset.mem 0 bs, Memory.wf_writeBytes State.reset_mem_wf 0 bs,
    fun c hc => ?_, fun a ha => ?_⟩
  · obtain ⟨-, hhi⟩ | hnil := Memory.addr_of_mem_writeBytes hc
    · rwa [Nat.zero_add] at hhi
    · cases hnil
  · have hread := Memory.read_writeBytes_inside State.reset.mem 0 bs a ha
    rwa [Nat.zero_add] at hread

/-- Settles O12, with the list of the first `n` bytes of the content. -/
theorem everyMemoryContentIsAState : Obligations.EveryMemoryContentIsAState := by
  unfold Obligations.EveryMemoryContentIsAState
  intro n f
  obtain ⟨m, hwf, hlisted, hread⟩ := exists_memory_of_bytes ((List.range n).map f)
  rw [List.length_map, List.length_range] at hlisted hread
  exact ⟨m, hwf, hlisted, fun a ha => by simp [hread a ha, ha]⟩

/-- A key of a legal size has at most 14 rounds, so that its schedules fit (R30, R136). -/
theorem keyNr_le {key : List Byte} (hkey : LegalKeySize key.length) : keyNr key ≤ 14 := by
  unfold keyNr keyNk
  obtain h | h | h := hkey <;> omega

/-- Encryption round key `r` of a context made from a key; zero above `Nr` (R30, R136). -/
theorem roundKey_expand_ek (key : List Byte) (r : Nat) : roundKey (expand key).ek r =
    if r < 15 ∧ r ≤ keyNr key then (keyExpansion key).getD r Block.zero else Block.zero := by
  rw [expand_ek, roundKey_padSchedule]

/-- Decryption round key `r` of a context made from a key; zero above `Nr` (R30, R137). -/
theorem roundKey_expand_dk (key : List Byte) (r : Nat) : roundKey (expand key).dk r =
    if r < 15 ∧ r ≤ keyNr key then decryptionKey (keyNr key) (keyExpansion key) r
    else Block.zero := by
  rw [expand_dk, roundKey_padSchedule]

/-- Settles O54: each clause reads `decryptionKey` at its index, or the padding above `Nr`. -/
theorem decryptionSchedule : Obligations.DecryptionSchedule := by
  unfold Obligations.DecryptionSchedule
  intro key hkey
  have hmax := keyNr_le hkey
  have hinside : ∀ {r}, r ≤ keyNr key → r < 15 ∧ r ≤ keyNr key := fun hr => ⟨by omega, hr⟩
  simp only [expand_nr, roundKey_expand_ek, roundKey_expand_dk]
  refine ⟨rfl, ?_, ?_, fun r hlo hhi => ?_, fun r hlo _ => ?_⟩
  · rw [if_pos (hinside (Nat.zero_le _)), if_pos (hinside le_rfl), decryptionKey, if_pos (.inl rfl),
      Nat.sub_zero]
  · rw [if_pos (hinside le_rfl), if_pos (hinside (Nat.zero_le _)), decryptionKey, if_pos (.inr rfl),
      Nat.sub_self]
  · rw [if_pos (hinside hhi.le), if_pos (hinside (Nat.sub_le _ _)), decryptionKey,
      if_neg (by omega)]
  · have hbeyond : ¬ (r < 15 ∧ r ≤ keyNr key) := by omega
    exact ⟨if_neg hbeyond, if_neg hbeyond⟩

end Sys2Proof.Proofs

/-! ### Operand registers a command does not read (R21, R94), and one-shot commands -/

namespace Sys2Proof.Proofs

open Sys2Proof.Machine Sys2Proof.Safety

/-- The operand registers `x` hold in every register that `i` reads what `s` holds there. -/
def AgreesOnRead (i : Instr) (s : State) (x : OperandRegs) : Prop :=
  ∀ r, readsReg i r = true → x.get r = s.regs.get r

/-- Writing a register that the command does not read. -/
theorem agreesOnRead_set {i : Instr} {r : Reg} (h : readsReg i r = false) (s : State)
    (v : Word64) : AgreesOnRead i s (s.regs.set r v) := fun q hq =>
  OperandRegs.get_set_other _ _ fun hqr => by simp [hqr, h] at hq

section
variable {i : Instr} {s : State} {x : OperandRegs} (h : AgreesOnRead i s x)
include h

theorem srcAddr_agrees (hr : readsReg i .src = true) : (s.setRegs x).srcAddr = s.srcAddr :=
  congrArg BitVec.toNat (h .src hr)

theorem src2Addr_agrees (hr : readsReg i .src2 = true) : (s.setRegs x).src2Addr = s.src2Addr :=
  congrArg BitVec.toNat (h .src2 hr)

theorem dstAddr_agrees (hr : readsReg i .dst = true) : (s.setRegs x).dstAddr = s.dstAddr :=
  congrArg BitVec.toNat (h .dst hr)

theorem dataLen_agrees (hr : readsReg i .len = true) : (s.setRegs x).dataLen = s.dataLen :=
  congrArg BitVec.toNat (h .len hr)

theorem keyAddr_agrees (hr : readsReg i .keya = true) : (s.setRegs x).keyAddr = s.keyAddr :=
  congrArg BitVec.toNat (h .keya hr)

theorem ivAddr_agrees (hr : readsReg i .iva = true) : (s.setRegs x).ivAddr = s.ivAddr :=
  congrArg BitVec.toNat (h .iva hr)

theorem idx_agrees (hr : readsReg i .idx = true) : (s.setRegs x).regs.idx = s.regs.idx :=
  h .idx hr

theorem keyRange_agrees (hr : readsReg i .keya = true) (k : Nat) :
    keyRange (s.setRegs x) k = keyRange s k := by
  rw [keyRange, keyAddr_agrees h hr, keyRange]

theorem ivRange_agrees (hr : readsReg i .iva = true) (n : Nat) :
    ivRange (s.setRegs x) n = ivRange s n := by
  rw [ivRange, ivAddr_agrees h hr, ivRange]

theorem srcRange_agrees (hr : readsReg i .src = true) (n : Nat) :
    srcRange (s.setRegs x) n = srcRange s n := by
  rw [srcRange, srcAddr_agrees h hr, srcRange]

theorem src2Range_agrees (hr : readsReg i .src2 = true) (n : Nat) :
    src2Range (s.setRegs x) n = src2Range s n := by
  rw [src2Range, src2Addr_agrees h hr, src2Range]

theorem dstRange_agrees (hr : readsReg i .dst = true) (n : Nat) :
    dstRange (s.setRegs x) n = dstRange s n := by
  rw [dstRange, dstAddr_agrees h hr, dstRange]

theorem keyBytes_agrees (hr : readsReg i .keya = true) (k : Nat) :
    (s.setRegs x).keyBytes k = s.keyBytes k :=
  congrArg (s.memRead · k) (keyAddr_agrees h hr)

theorem ivBlock_agrees (hr : readsReg i .iva = true) : (s.setRegs x).ivBlock = s.ivBlock :=
  congrArg (fun a => Block.ofList (s.memRead a Config.blockBytes)) (ivAddr_agrees h hr)

theorem nonce_agrees (hr : readsReg i .iva = true) : (s.setRegs x).nonce = s.nonce :=
  congrArg (fun a => Block8.ofList (s.memRead a Config.nonceBytes)) (ivAddr_agrees h hr)

theorem srcBlock_agrees (hr : readsReg i .src = true) : (s.setRegs x).srcBlock = s.srcBlock :=
  congrArg (fun a => Block.ofList (s.memRead a Config.blockBytes)) (srcAddr_agrees h hr)

theorem srcData_agrees (hr : readsReg i .src = true) (hl : readsReg i .len = true) :
    (s.setRegs x).srcData = s.srcData :=
  congrArg₂ s.memRead (srcAddr_agrees h hr) (dataLen_agrees h hl)

theorem src2Data_agrees (hr : readsReg i .src2 = true) (hl : readsReg i .len = true) :
    (s.setRegs x).src2Data = s.src2Data :=
  congrArg₂ s.memRead (src2Addr_agrees h hr) (dataLen_agrees h hl)

theorem zeros_agrees (hl : readsReg i .len = true) : zeros (s.setRegs x) = zeros s :=
  congrArg (List.replicate · 0) (dataLen_agrees h hl)

end

/-- Admission compares a range with `MEM_BYTES` only (R66). -/
theorem accessCheck_setRegs (s : State) (x : OperandRegs) (rs : List Range) :
    accessCheck (s.setRegs x) rs = accessCheck s rs := rfl

/-- The checks of a command depend on the registers it reads only. -/
theorem checksOf_setRegs {i : Instr} {s : State} {x : OperandRegs} (h : AgreesOnRead i s x) :
    checksOf (s.setRegs x) i = checksOf s i := by
  cases i with
  | aesInit => simp only [checksOf, accessCheck_setRegs, keyRange_agrees h rfl]
  | aesEncrypt | aesDecrypt =>
    simp only [checksOf, blockChecks, accessCheck_setRegs, State.setRegs_aes, srcRange_agrees h rfl,
      dstRange_agrees h rfl, srcAddr_agrees h rfl, dstAddr_agrees h rfl]
  | xorBuf =>
    simp only [checksOf, accessCheck_setRegs, dataLen_agrees h rfl, srcRange_agrees h rfl,
      src2Range_agrees h rfl, dstRange_agrees h rfl, srcAddr_agrees h rfl, src2Addr_agrees h rfl,
      dstAddr_agrees h rfl]
  | cbcInit | ctrInit | ofbInit =>
    simp only [checksOf, accessCheck_setRegs, State.setRegs_aes, ivRange_agrees h rfl]
  | cbcInitWithKey | ctrInitWithKey | ofbInitWithKey =>
    simp only [checksOf, accessCheck_setRegs, keyRange_agrees h rfl, ivRange_agrees h rfl]
  | cbcEncrypt | cbcDecrypt | ctrXor | ofbXor =>
    simp only [checksOf, cbcChecks, alignCheck, accessCheck_setRegs, State.setRegs_cbc,
      State.setRegs_ctr, State.setRegs_ofb, dataLen_agrees h rfl, srcRange_agrees h rfl,
      dstRange_agrees h rfl, srcAddr_agrees h rfl, dstAddr_agrees h rfl]
  | ctrOutput | ofbOutput =>
    simp only [checksOf, accessCheck_setRegs, State.setRegs_ctr, State.setRegs_ofb,
      dataLen_agrees h rfl, dstRange_agrees h rfl]
  | cbcEncryptWithKey | cbcDecryptWithKey | ctrXorWithKey | ofbXorWithKey =>
    simp only [checksOf, cbcOneShotChecks, alignCheck, accessCheck_setRegs, dataLen_agrees h rfl,
      keyRange_agrees h rfl, ivRange_agrees h rfl, srcRange_agrees h rfl, dstRange_agrees h rfl,
      srcAddr_agrees h rfl, dstAddr_agrees h rfl]
  | ctrSetStreamIndex | zeroize => rfl

/-- The effect of a command depends on the registers it reads only. -/
theorem successOf_setRegs {i : Instr} {s : State} {x : OperandRegs} (h : AgreesOnRead i s x) :
    successOf (s.setRegs x) i = (successOf s i).setRegs x := by
  cases i with
  | aesInit => simp only [successOf, aesAfter, keyBytes_agrees h rfl]; rfl
  | aesEncrypt | aesDecrypt =>
    simp only [successOf, outputOf, dstAddr_agrees h rfl, srcBlock_agrees h rfl]; rfl
  | xorBuf =>
    simp only [successOf, outputOf, dstAddr_agrees h rfl, srcData_agrees h rfl rfl,
      src2Data_agrees h rfl rfl]; rfl
  | cbcInit | ofbInit =>
    simp only [successOf, cbcAfter, ofbAfter, ivBlock_agrees h rfl]; rfl
  | ctrInit => simp only [successOf, ctrAfter, nonce_agrees h rfl]; rfl
  | cbcInitWithKey | ofbInitWithKey =>
    simp only [successOf, cbcAfter, ofbAfter, keyBytes_agrees h rfl, ivBlock_agrees h rfl]; rfl
  | ctrInitWithKey =>
    simp only [successOf, ctrAfter, keyBytes_agrees h rfl, nonce_agrees h rfl]; rfl
  | ctrSetStreamIndex => simp only [successOf, ctrAfter, idx_agrees h rfl]; rfl
  | cbcEncrypt | cbcDecrypt | ctrXor | ofbXor =>
    simp only [successOf, outputOf, cbcAfter, ctrAfter, ofbAfter, dstAddr_agrees h rfl,
      srcData_agrees h rfl rfl]; rfl
  | ctrOutput | ofbOutput =>
    simp only [successOf, outputOf, ctrAfter, ofbAfter, dstAddr_agrees h rfl,
      zeros_agrees h rfl]; rfl
  | cbcEncryptWithKey | cbcDecryptWithKey | ofbXorWithKey =>
    simp only [successOf, outputOf, dstAddr_agrees h rfl, keyBytes_agrees h rfl,
      ivBlock_agrees h rfl, srcData_agrees h rfl rfl]; rfl
  | ctrXorWithKey =>
    simp only [successOf, outputOf, dstAddr_agrees h rfl, keyBytes_agrees h rfl,
      nonce_agrees h rfl, srcData_agrees h rfl rfl]; rfl
  | zeroize => rfl

/-- Settles O22, for every change of the registers that agrees on those the command reads. -/
theorem unreadRegistersAreIgnored : Obligations.UnreadRegistersAreIgnored := by
  unfold Obligations.UnreadRegistersAreIgnored
  intro i s r v hr
  have hagrees := agreesOnRead_set hr s v
  rw [exec_eq, exec_eq, checksOf_setRegs hagrees, successOf_setRegs hagrees]
  cases firstFailure (checksOf s i) with
  | none => exact ⟨_, rfl, rfl⟩
  | some e => exact ⟨_, rfl, rfl⟩

/-! #### A one-shot command is its init and then its transform (R184, R185, R205, R224) -/

/-- No check fails: the first passes, and none of the others fails. -/
theorem firstFailure_cons_eq_none {c : Check} {cs : List Check} :
    firstFailure (c :: cs) = none ↔ c.passes = true ∧ firstFailure cs = none := by
  rw [firstFailure_eq_none, firstFailure_eq_none, List.forall_mem_cons]

/-- The access check of a one-shot is that of its init and that of its transform (R256). -/
theorem accessCheck_append_passes (s : State) (rs rs' : List Range) :
    (accessCheck s (rs ++ rs')).passes = true ↔
      (accessCheck s rs).passes = true ∧ (accessCheck s rs').passes = true := by
  simp only [accessCheck, List.all_append, Bool.and_eq_true]

/-- The checks of a CBC one-shot are those of the init with key, and of a transform after it. -/
theorem cbcOneShotChecks_pass {k : Nat} {s : State}
    (hf : firstFailure (cbcOneShotChecks k s) = none) :
    firstFailure (checksOf s (.cbcInitWithKey k)) = none ∧
      firstFailure (cbcChecks (successOf s (.cbcInitWithKey k))) = none := by
  simp only [cbcOneShotChecks, checksOf, cbcChecks, firstFailure_cons_eq_none] at hf ⊢
  obtain ⟨hkey, halign, haccess, halias, hnil⟩ := hf
  obtain ⟨hin, hbuf⟩ :=
    (accessCheck_append_passes s [keyRange s k, ivRange s Config.blockBytes] _).1 haccess
  exact ⟨⟨hkey, hin, hnil⟩, rfl, halign, hbuf, halias, hnil⟩

/-- The checks of the CTR one-shot are those of the init with key, and of the transform after it. -/
theorem ctrOneShotChecks_pass {k : Nat} {s : State}
    (hf : firstFailure (checksOf s (.ctrXorWithKey k)) = none) :
    firstFailure (checksOf s (.ctrInitWithKey k)) = none ∧
      firstFailure (checksOf (successOf s (.ctrInitWithKey k)) .ctrXor) = none := by
  simp only [checksOf, firstFailure_cons_eq_none] at hf ⊢
  obtain ⟨hkey, haccess, halias, hnil⟩ := hf
  obtain ⟨hin, hbuf⟩ := (accessCheck_append_passes s [keyRange s k, ivRange s 8] _).1 haccess
  exact ⟨⟨hkey, hin, hnil⟩, rfl, hbuf, halias, hnil⟩

/-- The checks of the OFB one-shot are those of the init with key, and of the transform after it. -/
theorem ofbOneShotChecks_pass {k : Nat} {s : State}
    (hf : firstFailure (checksOf s (.ofbXorWithKey k)) = none) :
    firstFailure (checksOf s (.ofbInitWithKey k)) = none ∧
      firstFailure (checksOf (successOf s (.ofbInitWithKey k)) .ofbXor) = none := by
  simp only [checksOf, firstFailure_cons_eq_none] at hf ⊢
  obtain ⟨hkey, haccess, halias, hnil⟩ := hf
  obtain ⟨hin, hbuf⟩ := (accessCheck_append_passes s [keyRange s k, ivRange s 16] _).1 haccess
  exact ⟨⟨hkey, hin, hnil⟩, rfl, hbuf, halias, hnil⟩

/-- When an init and then a transform pass their checks, they run one after the other. -/
theorem exec_exec_of_checks {s : State} {init transform : Instr}
    (h : firstFailure (checksOf s init) = none ∧
      firstFailure (checksOf (successOf s init) transform) = none) :
    exec init s = .next (successOf s init) ∧
      exec transform (successOf s init) = .next (successOf (successOf s init) transform) := by
  obtain ⟨hinit, htransform⟩ := h
  exact ⟨by rw [exec_eq, hinit], by rw [exec_eq, htransform]⟩

/-- Settles O59: the one-shot's checks are those of the two commands, and the transform reads in the
slot the context and the IV that the one-shot makes itself, so that it stores the same bytes. -/
theorem oneShotIsInitThenTransform : Obligations.OneShotIsInitThenTransform := by
  unfold Obligations.OneShotIsInitThenTransform
  intro k s t oneShot init transform hmem hexec hok
  obtain ⟨hf, rfl⟩ := exec_ok hexec hok
  simp only [List.mem_cons, Prod.mk.injEq, List.not_mem_nil, or_false] at hmem
  obtain ⟨rfl, rfl, rfl⟩ | ⟨rfl, rfl, rfl⟩ | ⟨rfl, rfl, rfl⟩ | ⟨rfl, rfl, rfl⟩ := hmem
  · obtain ⟨hinit, htransform⟩ :=
      exec_exec_of_checks (transform := .cbcEncrypt) (cbcOneShotChecks_pass hf)
    exact ⟨_, _, hinit, rfl, htransform, rfl, rfl⟩
  · obtain ⟨hinit, htransform⟩ :=
      exec_exec_of_checks (transform := .cbcDecrypt) (cbcOneShotChecks_pass hf)
    exact ⟨_, _, hinit, rfl, htransform, rfl, rfl⟩
  · obtain ⟨hinit, htransform⟩ := exec_exec_of_checks (ctrOneShotChecks_pass hf)
    exact ⟨_, _, hinit, rfl, htransform, rfl, rfl⟩
  · obtain ⟨hinit, htransform⟩ := exec_exec_of_checks (ofbOneShotChecks_pass hf)
    exact ⟨_, _, hinit, rfl, htransform, rfl, rfl⟩

end Sys2Proof.Proofs

/-! ### The ranges of memory that a step reads and writes (R62, R65 to R69, R247) -/

namespace Sys2Proof.Proofs

open Sys2Proof.Machine Sys2Proof.Safety

/-- A state whose memory is that of `s` after `MemWrite` stores the bytes written (R62). -/
theorem stores_of_writeBytes {s t : State} {a : Nat} {bs : List Byte}
    (hm : t.mem = Memory.writeBytes s.mem a bs) : Stores s t a bs := by
  unfold Stores SameOutside byteAt State.memRead
  rw [hm]
  exact ⟨Memory.readBytes_writeBytes s.mem a bs, Memory.read_writeBytes_outside s.mem a bs⟩

/-! #### The host's access to the buffer memory (R247) -/

theorem hostStep_memWrite_of_admitted {s : State} {a : Word64} {bs : List Byte}
    (hadm : Admitted s a.toNat bs.length) (hlen : bs.length < 2 ^ 64) :
    hostStep (.memWrite a bs) s = .next (s.memWrite a.toNat bs) :=
  if_pos ((hostRangeOk_iff _ _ _).2 ⟨hlen, hadm⟩)

theorem hostStep_memWrite_of_not_admitted {s : State} {a : Word64} {bs : List Byte}
    (h : ¬ (Admitted s a.toNat bs.length ∧ bs.length < 2 ^ 64)) :
    hostStep (.memWrite a bs) s = .refused .hostRangeNotAdmitted :=
  if_neg fun hok => h ((hostRangeOk_iff _ _ _).1 hok).symm

theorem hostStep_memRead_of_admitted {s : State} {a n : Word64} (h : Admitted s a.toNat n.toNat) :
    hostStep (.memRead a n) s = .next (s.setReply (.bytes (s.memRead a.toNat n.toNat))) :=
  if_pos ((hostRangeOk_iff _ _ _).2 ⟨n.isLt, h⟩)

theorem hostStep_memRead_of_not_admitted {s : State} {a n : Word64}
    (h : ¬ Admitted s a.toNat n.toNat) :
    hostStep (.memRead a n) s = .refused .hostRangeNotAdmitted :=
  if_neg fun hok => h ((hostRangeOk_iff _ _ _).1 hok).2

/-- Settles O9: an admitted range is `MemWrite` or `MemRead` of it, any other is refused. -/
theorem hostMemoryRule : Obligations.HostMemoryRule := by
  unfold Obligations.HostMemoryRule
  refine ⟨fun s a bytes => ⟨fun hadm hlen => ?_, hostStep_memWrite_of_not_admitted⟩,
    fun s a n => ⟨fun hadm => ?_, hostStep_memRead_of_not_admitted⟩⟩
  · exact ⟨_, hostStep_memWrite_of_admitted hadm hlen, stores_of_writeBytes rfl, rfl⟩
  · exact ⟨_, hostStep_memRead_of_admitted hadm, Memory.length_readBytes _ _ _,
      fun i => Memory.getD_readBytes s.mem a.toNat n.toNat i⟩

/-! #### The bytes a command writes (R65, R67) -/

/-- The output range is the `outputSize` bytes at `x[DST]`. -/
theorem mem_outputRanges {s : State} {i : Instr} {r : Range} :
    r ∈ outputRanges s i ↔ ∃ n, outputSize s i = some n ∧ r = ⟨s.dstAddr, n⟩ := by
  simp only [outputRanges, Option.mem_toList, Option.map_eq_some_iff, eq_comm (b := r)]

/-- The bytes a command that passed its checks writes fill its output range. -/
theorem outputOf_length_of_outputSize {s : State} {i : Instr} {n : Nat}
    (hf : firstFailure (checksOf s i) = none) (hn : outputSize s i = some n) :
    (outputOf s i).length = n := by
  rw [outputOf_length hf, hn, Option.getD_some]

/-- An address outside the output range is none of those a command stores at. -/
theorem not_stored_of_not_mem_outputRanges {s : State} {i : Instr} {x : Nat}
    (hf : firstFailure (checksOf s i) = none)
    (hx : ∀ r ∈ outputRanges s i, ¬ (r.addr ≤ x ∧ x < r.addr + r.size)) :
    ¬ (s.dstAddr ≤ x ∧ x < s.dstAddr + (outputOf s i).length) := by
  rw [outputOf_length hf]
  cases hn : outputSize s i with
  | none => rw [Option.getD_none]; omega
  | some n => exact hx ⟨s.dstAddr, n⟩ (mem_outputRanges.2 ⟨n, hn, rfl⟩)

/-- Settles O20: on success the command stores its output range and nothing else; an error stores
nothing. -/
theorem commandWritesOnlyItsOutputRange : Obligations.CommandWritesOnlyItsOutputRange := by
  unfold Obligations.CommandWritesOnlyItsOutputRange
  intro i s t hexec x hx
  obtain ⟨hf, rfl⟩ | ⟨e, -, rfl⟩ := exec_cases hexec
  · exact Memory.read_writeBytes_outside _ _ _ _ (not_stored_of_not_mem_outputRanges hf hx)
  · rfl

/-! #### The bytes a command reads (R65, R69) -/

/-- The memory `m` holds in the input ranges of `i` the bytes that `s` holds there. -/
def AgreesOnInputs (i : Instr) (s : State) (m : Memory) : Prop :=
  ∀ r ∈ inputRanges s i, ∀ x, r.addr ≤ x → x < r.addr + r.size → Memory.read m x = byteAt s x

section
variable {i : Instr} {s : State} {m : Memory} (h : AgreesOnInputs i s m)
include h

/-- Every read of an input range returns the same bytes in `m`. -/
theorem memRead_setMem {a n : Nat} (hr : ⟨a, n⟩ ∈ inputRanges s i) :
    (s.setMem m).memRead a n = s.memRead a n :=
  Memory.readBytes_congr (h _ hr)

theorem keyBytes_setMem {k : Nat} (hr : keyRange s k ∈ inputRanges s i) :
    (s.setMem m).keyBytes k = s.keyBytes k :=
  memRead_setMem h hr

theorem ivBlock_setMem (hr : ivRange s 16 ∈ inputRanges s i) :
    (s.setMem m).ivBlock = s.ivBlock :=
  congrArg Block.ofList (memRead_setMem h hr)

theorem nonce_setMem (hr : ivRange s 8 ∈ inputRanges s i) : (s.setMem m).nonce = s.nonce :=
  congrArg Block8.ofList (memRead_setMem h hr)

theorem srcBlock_setMem (hr : srcRange s 16 ∈ inputRanges s i) :
    (s.setMem m).srcBlock = s.srcBlock :=
  congrArg Block.ofList (memRead_setMem h hr)

theorem srcData_setMem (hr : srcRange s s.dataLen ∈ inputRanges s i) :
    (s.setMem m).srcData = s.srcData :=
  memRead_setMem h hr

theorem src2Data_setMem (hr : src2Range s s.dataLen ∈ inputRanges s i) :
    (s.setMem m).src2Data = s.src2Data :=
  memRead_setMem h hr

/-- The effect of a command depends on the bytes of its input ranges only: on a memory that agrees
there it sets the same fields and writes the same bytes. -/
theorem successOf_setMem : successOf (s.setMem m) i =
    (successOf s i).setMem (Memory.writeBytes m s.dstAddr (outputOf s i)) := by
  cases i with
  | aesInit => simp only [successOf, aesAfter, keyBytes_setMem h (.head _)]; rfl
  | aesEncrypt | aesDecrypt => simp only [successOf, outputOf, srcBlock_setMem h (.head _)]; rfl
  | xorBuf =>
    simp only [successOf, outputOf, srcData_setMem h (.head _),
      src2Data_setMem h (.tail _ (.head _))]; rfl
  | cbcInit | ofbInit => simp only [successOf, cbcAfter, ofbAfter, ivBlock_setMem h (.head _)]; rfl
  | ctrInit => simp only [successOf, ctrAfter, nonce_setMem h (.head _)]; rfl
  | cbcInitWithKey | ofbInitWithKey =>
    simp only [successOf, cbcAfter, ofbAfter, keyBytes_setMem h (.head _),
      ivBlock_setMem h (.tail _ (.head _))]; rfl
  | ctrInitWithKey =>
    simp only [successOf, ctrAfter, keyBytes_setMem h (.head _),
      nonce_setMem h (.tail _ (.head _))]; rfl
  | cbcEncrypt | cbcDecrypt | ctrXor | ofbXor =>
    simp only [successOf, outputOf, cbcAfter, ctrAfter, ofbAfter, srcData_setMem h (.head _)]; rfl
  | cbcEncryptWithKey | cbcDecryptWithKey | ofbXorWithKey =>
    simp only [successOf, outputOf, keyBytes_setMem h (.head _),
      ivBlock_setMem h (.tail _ (.head _)), srcData_setMem h (.tail _ (.tail _ (.head _)))]; rfl
  | ctrXorWithKey =>
    simp only [successOf, outputOf, keyBytes_setMem h (.head _),
      nonce_setMem h (.tail _ (.head _)), srcData_setMem h (.tail _ (.tail _ (.head _)))]; rfl
  | ctrSetStreamIndex | ctrOutput | ofbOutput | zeroize => rfl

end

/-- No check of a command reads the buffer memory. -/
theorem checksOf_setMem (i : Instr) (s : State) (m : Memory) :
    checksOf (s.setMem m) i = checksOf s i := by
  cases i <;> rfl

/-- Inside its range `MemWrite` leaves the same bytes, whatever the memory held before. -/
theorem read_writeBytes_congr (m m' : Memory) {a x : Nat} {bs : List Byte} (hlo : a ≤ x)
    (hhi : x < a + bs.length) :
    Memory.read (Memory.writeBytes m a bs) x = Memory.read (Memory.writeBytes m' a bs) x := by
  obtain ⟨k, rfl⟩ := Nat.exists_eq_add_of_le hlo
  rw [Memory.read_writeBytes_inside m a bs k (by omega),
    Memory.read_writeBytes_inside m' a bs k (by omega)]

/-- Settles O21: the checks read no memory, and the effect reads the input ranges only, so that both
runs raise the same error or write the same bytes. -/
theorem commandReadsOnlyItsInputRanges : Obligations.CommandReadsOnlyItsInputRanges := by
  unfold Obligations.CommandReadsOnlyItsInputRanges
  intro i s t m hagrees hexec
  rw [exec_eq, checksOf_setMem, successOf_setMem hagrees]
  obtain ⟨hf, rfl⟩ | ⟨e, he, rfl⟩ := exec_cases hexec
  · rw [hf]
    refine ⟨_, rfl, rfl, rfl, rfl, rfl, rfl, fun _ r hr x hlo hhi => ?_⟩
    obtain ⟨n, hn, rfl⟩ := mem_outputRanges.1 hr
    refine read_writeBytes_congr m s.mem hlo ?_
    rwa [outputOf_length_of_outputSize hf hn]
  · rw [he]
    exact ⟨_, rfl, rfl, rfl, rfl, rfl, rfl, fun hok => absurd hok (firstFailure_ne_ok he)⟩

/-! #### The destination only says where the output goes (R69) -/

/-- With another destination a command sets the same fields and writes the same bytes, there. -/
theorem successOf_setDst (i : Instr) (s : State) (v : Word64) :
    successOf (s.setRegs { s.regs with dst := v }) i =
      ((successOf s i).setRegs { s.regs with dst := v }).setMem
        (Memory.writeBytes s.mem v.toNat (outputOf s i)) := by
  cases i <;> rfl

/-- Settles O25: both runs write the bytes of `outputOf`, each at its own destination. -/
theorem inPlaceGivesTheSameBytes : Obligations.InPlaceGivesTheSameBytes := by
  unfold Obligations.InPlaceGivesTheSameBytes
  intro i s t u v n hn hs hsok hu huok
  obtain ⟨hf, rfl⟩ := exec_ok hs hsok
  obtain ⟨-, rfl⟩ := exec_ok hu huok
  rw [successOf_setDst]
  refine ⟨?_, rfl, rfl, rfl, rfl⟩
  rw [← outputOf_length_of_outputSize hf hn]
  exact (Memory.readBytes_writeBytes s.mem v.toNat (outputOf s i)).trans
    (Memory.readBytes_writeBytes s.mem s.dstAddr (outputOf s i)).symm

end Sys2Proof.Proofs

/-! ### Command words: fields, decoding, encoding and the opcode table (R91, R94 to R96) -/

namespace Sys2Proof.Proofs

open Sys2Proof.Machine

/-! #### The four fields of a command word (R91) -/

theorem fieldOp_toNat (w : CommandWord) : (fieldOp w).toNat = w.toNat % 256 := by
  simp [fieldOp]

theorem fieldKsz_toNat (w : CommandWord) : (fieldKsz w).toNat = w.toNat / 256 % 256 := by
  simp [fieldKsz, Nat.shiftRight_eq_div_pow]

theorem fieldSel_toNat (w : CommandWord) : (fieldSel w).toNat = w.toNat / 65536 % 16 := by
  simp [fieldSel, Nat.shiftRight_eq_div_pow]

theorem fieldRsv_toNat (w : CommandWord) : (fieldRsv w).toNat = w.toNat / 1048576 % 4096 := by
  simp [fieldRsv, Nat.shiftRight_eq_div_pow]

/-- The fields leave out no bit of a word. -/
theorem toNat_eq_fields (w : CommandWord) :
    w.toNat = (fieldOp w).toNat + 256 * (fieldKsz w).toNat + 65536 * (fieldSel w).toNat
      + 1048576 * (fieldRsv w).toNat := by
  have := w.isLt
  rw [fieldOp_toNat, fieldKsz_toNat, fieldSel_toNat, fieldRsv_toNat]
  omega

/-- Two words are equal exactly when their fields are. -/
theorem word_eq_iff_fields (w v : CommandWord) :
    w = v ↔ fieldOp w = fieldOp v ∧ fieldKsz w = fieldKsz v ∧ fieldSel w = fieldSel v ∧
      fieldRsv w = fieldRsv v := by
  constructor
  · rintro rfl
    exact ⟨rfl, rfl, rfl, rfl⟩
  · rintro ⟨hop, hksz, hsel, hrsv⟩
    apply BitVec.eq_of_toNat_eq
    rw [toNat_eq_fields w, toNat_eq_fields v, hop, hksz, hsel, hrsv]

/-! #### The word of a command: `decode` and `encode` are inverse to each other -/

/-- The four fields of `w` spell the command `i` (R91): zero in `RSV` and in the fields that `i`
does not use. -/
def Spells (w : CommandWord) (i : Instr) : Prop :=
  (fieldOp w).toNat = i.opcode ∧ (fieldKsz w).toNat = i.ksz?.getD 0 ∧ fieldSel w = i.selField ∧
    fieldRsv w = 0

theorem opcode_le (i : Instr) : i.opcode ≤ 0x7F := by
  cases i <;> simp [Instr.opcode]

theorem wellFormed_iff (i : Instr) : i.wellFormed = true ↔ i.ksz?.getD 0 ≤ 255 := by
  unfold Instr.wellFormed
  cases i.ksz? <;> simp

/-- Every command but `ZEROIZE` carries the slot mask zero (R93). -/
theorem selField_of_not_usesSel {i : Instr} (h : i.usesSel = false) : i.selField = 0 := by
  cases i with
  | zeroize => cases h
  | _ => rfl

/-- The encoding of a command that fits the format is the number of R91: it does not overflow. -/
theorem encode_toNat {i : Instr} (h : i.wellFormed = true) :
    (encode i).toNat = i.opcode + 256 * i.ksz?.getD 0 + 65536 * i.selField.toNat := by
  have := opcode_le i
  have := (wellFormed_iff i).1 h
  have := i.selField.isLt
  rw [encode, BitVec.toNat_ofNat]
  omega

theorem spells_encode {i : Instr} (h : i.wellFormed = true) : Spells (encode i) i := by
  have := opcode_le i
  have := (wellFormed_iff i).1 h
  have := i.selField.isLt
  have hword := encode_toNat h
  refine ⟨?_, ?_, BitVec.eq_of_toNat_eq ?_, BitVec.eq_of_toNat_eq ?_⟩
  · rw [fieldOp_toNat]; omega
  · rw [fieldKsz_toNat]; omega
  · rw [fieldSel_toNat]; omega
  · rw [fieldRsv_toNat]; show _ = 0; omega

theorem wellFormed_of_spells {w : CommandWord} {i : Instr} (h : Spells w i) :
    i.wellFormed = true := by
  obtain ⟨-, hksz, -, -⟩ := h
  have := (fieldKsz w).isLt
  rw [wellFormed_iff]
  omega

theorem encode_of_spells {w : CommandWord} {i : Instr} (h : Spells w i) : encode i = w := by
  have hwf := wellFormed_of_spells h
  obtain ⟨hop, hksz, hsel, hrsv⟩ := h
  apply BitVec.eq_of_toNat_eq
  rw [encode_toNat hwf, toNat_eq_fields w, hop, hksz, hsel, hrsv]
  rfl

/-- What an opcode selects (R94): the command with this opcode, whose fields, where it has them, are
the ones given. -/
theorem instrOfOpcode_eq_some_iff {op k : Nat} {sel : BitVec 4} {i : Instr} :
    instrOfOpcode op k sel = some i ↔
      i.opcode = op ∧ (∀ n ∈ i.ksz?, n = k) ∧ (i.usesSel = true → i.selField = sel) := by
  constructor
  · intro h
    unfold instrOfOpcode at h
    split at h <;> cases h <;> simp [Instr.opcode, Instr.ksz?, Instr.usesSel, Instr.selField]
  · rintro ⟨rfl, hk, hsel⟩
    cases i with
    | aesInit | cbcInitWithKey | cbcEncryptWithKey | cbcDecryptWithKey | ctrInitWithKey
    | ctrXorWithKey | ofbInitWithKey | ofbXorWithKey => cases hk _ rfl; rfl
    | zeroize => cases hsel rfl; rfl
    | aesEncrypt | aesDecrypt | xorBuf | cbcInit | cbcEncrypt | cbcDecrypt | ctrInit
    | ctrSetStreamIndex | ctrXor | ctrOutput | ofbInit | ofbXor | ofbOutput => rfl

/-- A field is refused as stray when it is not zero and the command does not use it. -/
theorem stray_iff {n : Nat} (x : BitVec n) (used : Bool) :
    (!used && x != 0) = true ↔ ¬ (x = 0 ∨ used = true) := by
  cases used <;> simp

/-- A word decodes to a command exactly when the opcode selects it and the checks of R95 pass. -/
theorem decode_eq_ok_iff_checks {w : CommandWord} {i : Instr} :
    decode w = .ok i ↔ fieldRsv w = 0 ∧
      instrOfOpcode (fieldOp w).toNat (fieldKsz w).toNat (fieldSel w) = some i ∧
      (fieldKsz w = 0 ∨ i.isKeyed = true) ∧ (fieldSel w = 0 ∨ i.usesSel = true) := by
  simp only [decode, stray_iff, ne_eq, ite_not]
  constructor
  · intro h
    split_ifs at h with hrsv
    split at h
    · cases h
    · next j hinstr =>
      split_ifs at h with hksz hsel
      cases h
      exact ⟨hrsv, hinstr, hksz, hsel⟩
  · rintro ⟨hrsv, hinstr, hksz, hsel⟩
    simp only [if_pos hrsv, hinstr, if_pos hksz, if_pos hsel]

/-- The two facts R95 asks of a `KSZ` field, as one: it spells the key size, or zero for none. -/
theorem ksz_check_iff (i : Instr) (k : BitVec 8) :
    ((k = 0 ∨ i.isKeyed = true) ∧ ∀ n ∈ i.ksz?, n = k.toNat) ↔ k.toNat = i.ksz?.getD 0 := by
  unfold Instr.isKeyed
  cases i.ksz? with
  | none => simp [BitVec.toNat_eq]
  | some n => simpa using eq_comm

/-- The same for the `SEL` field. -/
theorem sel_check_iff (i : Instr) (sel : BitVec 4) :
    ((sel = 0 ∨ i.usesSel = true) ∧ (i.usesSel = true → i.selField = sel)) ↔
      sel = i.selField := by
  cases huses : i.usesSel with
  | false => simp [selField_of_not_usesSel huses]
  | true => simpa using eq_comm

/-- A word decodes to the command its fields spell, and to no other. -/
theorem decode_eq_ok_iff {w : CommandWord} {i : Instr} : decode w = .ok i ↔ Spells w i := by
  rw [decode_eq_ok_iff_checks, instrOfOpcode_eq_some_iff, Spells, ← ksz_check_iff, ← sel_check_iff]
  tauto

/-- Settles O2: the encoding of a command spells that command. -/
theorem decodeOfEncode : Obligations.DecodeOfEncode := by
  unfold Obligations.DecodeOfEncode
  exact fun i h => decode_eq_ok_iff.2 (spells_encode h)

/-- Settles O3: a word is determined by the command it spells. -/
theorem encodeOfDecode : Obligations.EncodeOfDecode := by
  unfold Obligations.EncodeOfDecode
  intro w i h
  have hspells := decode_eq_ok_iff.1 h
  exact ⟨encode_of_spells hspells, wellFormed_of_spells hspells⟩

/-! #### The legal words and the rows of the opcode table (R94, R95) -/

/-- The opcodes of the table of R94. -/
def tableOpcodes : List Nat :=
  [0x01, 0x02, 0x03, 0x04, 0x10, 0x11, 0x12, 0x13, 0x14, 0x15, 0x20, 0x21,
    0x22, 0x23, 0x24, 0x25, 0x30, 0x31, 0x32, 0x33, 0x34, 0x7F]

/-- The keyed opcodes of R94. -/
def keyedOpcodes : List Nat := [0x01, 0x11, 0x14, 0x15, 0x21, 0x25, 0x31, 0x34]

/-- The four conditions of R95. -/
def LegalFields (w : CommandWord) : Prop :=
  (fieldOp w).toNat ∈ tableOpcodes ∧ fieldRsv w = 0 ∧
    (fieldKsz w = 0 ∨ (fieldOp w).toNat ∈ keyedOpcodes) ∧
    (fieldSel w = 0 ∨ (fieldOp w).toNat = 0x7F)

theorem opcode_mem_tableOpcodes (i : Instr) : i.opcode ∈ tableOpcodes := by
  cases i <;> simp [Instr.opcode, tableOpcodes]

/-- Every opcode of the table selects a command. -/
theorem exists_instrOfOpcode {op : Nat} (h : op ∈ tableOpcodes) (k : Nat) (sel : BitVec 4) :
    ∃ i, instrOfOpcode op k sel = some i := by
  revert op
  simp [tableOpcodes, instrOfOpcode]

theorem isKeyed_iff (i : Instr) : i.isKeyed = true ↔ i.opcode ∈ keyedOpcodes := by
  cases i <;> simp [Instr.isKeyed, Instr.ksz?, Instr.opcode, keyedOpcodes]

theorem usesSel_iff (i : Instr) : i.usesSel = true ↔ i.opcode = 0x7F := beq_iff_eq

/-- The checks of `decode` are the conditions of R95, which ask the opcode, not the command. -/
theorem exists_decode_iff (w : CommandWord) : (∃ i, decode w = .ok i) ↔ LegalFields w := by
  constructor
  · rintro ⟨i, h⟩
    obtain ⟨hrsv, hinstr, hksz, hsel⟩ := decode_eq_ok_iff_checks.1 h
    obtain ⟨hop, -, -⟩ := instrOfOpcode_eq_some_iff.1 hinstr
    rw [isKeyed_iff, hop] at hksz
    rw [usesSel_iff, hop] at hsel
    exact ⟨hop ▸ opcode_mem_tableOpcodes i, hrsv, hksz, hsel⟩
  · rintro ⟨hop, hrsv, hksz, hsel⟩
    obtain ⟨i, hinstr⟩ := exists_instrOfOpcode hop (fieldKsz w).toNat (fieldSel w)
    obtain ⟨hop, -, -⟩ := instrOfOpcode_eq_some_iff.1 hinstr
    rw [← hop, ← isKeyed_iff] at hksz
    rw [← hop, ← usesSel_iff] at hsel
    exact ⟨i, decode_eq_ok_iff_checks.2 ⟨hrsv, hinstr, hksz, hsel⟩⟩

/-- A word selects a row field by field. -/
theorem selects_iff_fields (r : OpcodeRow) (w : CommandWord) :
    r.selects w = true ↔
      fieldOp w &&& fieldOp r.mask = fieldOp r.pattern ∧
      fieldKsz w &&& fieldKsz r.mask = fieldKsz r.pattern ∧
      fieldSel w &&& fieldSel r.mask = fieldSel r.pattern ∧
      fieldRsv w &&& fieldRsv r.mask = fieldRsv r.pattern := by
  rw [OpcodeRow.selects, beq_iff_eq, word_eq_iff_fields]
  simp only [fieldOp, fieldKsz, fieldSel, fieldRsv, BitVec.extractLsb'_and]

/-- The patterns of the rows are the opcodes of the table, in order. -/
theorem patterns_opcodeRows :
    opcodeRows.map (fun r => (fieldOp r.pattern).toNat) = tableOpcodes := by decide

/-- What a row asks of a word: its opcode, and zero in the fields its mask keeps (R95). -/
theorem row_fields : ∀ r ∈ opcodeRows,
    fieldOp r.mask = BitVec.allOnes 8 ∧ fieldRsv r.mask = BitVec.allOnes 12 ∧
    fieldKsz r.mask =
      (if (fieldOp r.pattern).toNat ∈ keyedOpcodes then 0 else BitVec.allOnes 8) ∧
    fieldSel r.mask = (if (fieldOp r.pattern).toNat = 0x7F then 0 else BitVec.allOnes 4) ∧
    fieldKsz r.pattern = 0 ∧ fieldSel r.pattern = 0 ∧ fieldRsv r.pattern = 0 := by decide

/-- A field under a mask of all zeros or all ones is zero when the mask is, or the field is. -/
theorem and_ite_allOnes_eq_zero {n : Nat} (x : BitVec n) (p : Prop) [Decidable p] :
    (x &&& if p then 0 else BitVec.allOnes n) = 0 ↔ x = 0 ∨ p := by
  by_cases h : p <;> simp [h]

/-- A word selects a row exactly when it has the row's opcode and is legal. -/
theorem selects_iff {r : OpcodeRow} (hr : r ∈ opcodeRows) (w : CommandWord) :
    r.selects w = true ↔ fieldOp w = fieldOp r.pattern ∧ LegalFields w := by
  obtain ⟨hop, hrsv, hksz, hsel, hpksz, hpsel, hprsv⟩ := row_fields r hr
  have hmem : (fieldOp r.pattern).toNat ∈ tableOpcodes :=
    patterns_opcodeRows ▸ List.mem_map_of_mem hr
  rw [selects_iff_fields, hop, hrsv, hksz, hsel, hpksz, hpsel, hprsv, and_ite_allOnes_eq_zero,
    and_ite_allOnes_eq_zero, BitVec.and_allOnes, BitVec.and_allOnes, LegalFields]
  constructor
  · rintro ⟨heq, hk, hs, h0⟩
    rw [heq]
    exact ⟨rfl, hmem, h0, hk, hs⟩
  · rintro ⟨heq, -, h0, hk, hs⟩
    rw [heq] at hk hs
    exact ⟨heq, hk, hs, h0⟩

theorem legalFields_iff_selects (w : CommandWord) :
    LegalFields w ↔ ∃ r ∈ opcodeRows, r.selects w = true := by
  constructor
  · intro h
    have hop := h.1
    rw [← patterns_opcodeRows] at hop
    obtain ⟨r, hr, hpattern⟩ := List.mem_map.1 hop
    exact ⟨r, hr, (selects_iff hr w).2 ⟨BitVec.eq_of_toNat_eq hpattern.symm, h⟩⟩
  · rintro ⟨r, hr, hsel⟩
    exact ((selects_iff hr w).1 hsel).2

/-- No two rows of the table have the same opcode. -/
theorem row_eq_of_opcode_eq {r r' : OpcodeRow} (hr : r ∈ opcodeRows) (hr' : r' ∈ opcodeRows)
    (h : fieldOp r.pattern = fieldOp r'.pattern) : r = r' := by
  have hnodup : (opcodeRows.map fun r => (fieldOp r.pattern).toNat).Nodup := by decide
  exact List.inj_on_of_nodup_map hnodup hr hr' (congrArg BitVec.toNat h)

/-- Settles O4: the checks of `decode` and the rows of the table both say the four conditions of
R95, and the opcode of a word fixes the row. -/
theorem legalWordsAreTheTableRows : Obligations.LegalWordsAreTheTableRows := by
  unfold Obligations.LegalWordsAreTheTableRows
  refine fun w => ⟨exists_decode_iff w, (exists_decode_iff w).trans (legalFields_iff_selects w),
    fun r hr r' hr' h h' => row_eq_of_opcode_eq hr hr' ?_⟩
  obtain ⟨hop, -⟩ := (selects_iff hr w).1 h
  obtain ⟨hop', -⟩ := (selects_iff hr' w).1 h'
  exact hop.symm.trans hop'

/-- Settles O5: a word that selects no row does not decode, so that it only raises. -/
theorem illegalWordOnlySetsResult : Obligations.IllegalWordOnlySetsResult := by
  unfold Obligations.IllegalWordOnlySetsResult
  intro w s hnone
  cases hd : decode w with
  | ok i =>
    obtain ⟨r, hr, hsel⟩ := (legalFields_iff_selects w).1 ((exists_decode_iff w).1 ⟨i, hd⟩)
    simp [hnone r hr] at hsel
  | error e => exact runWord_of_illegal hd s

/-- Settles O1: the decoder computes each of the thirteen words. -/
theorem wordsFromTheSpecDecode : Obligations.WordsFromTheSpecDecode := by
  unfold Obligations.WordsFromTheSpecDecode
  decide

end Sys2Proof.Proofs

/-! ### The field: `xtime`, `gmul` and `ginv` (R120 to R126) -/

namespace Sys2Proof.Proofs

open Sys2Proof.Machine Sys2Proof.Safety

/-- A byte is the exclusive-or of its powers of two. -/
theorem xor_bits : ∀ a : Byte,
    (((List.range 8).filter a.getLsbD).map (BitVec.twoPow 8)).foldr (· ^^^ ·) 0 = a := by
  decide +kernel

/-- What holds of zero and the powers of two, and of an exclusive-or when it holds of both sides,
holds of every byte. -/
theorem byte_induction {P : Byte → Prop} (hzero : P 0) (hxor : ∀ a b, P a → P b → P (a ^^^ b))
    (hbit : ∀ i < 8, P (BitVec.twoPow 8 i)) (a : Byte) : P a := by
  rw [← xor_bits a]
  have hbits : ∀ i ∈ (List.range 8).filter a.getLsbD, i < 8 := fun i hi =>
    List.mem_range.1 (List.mem_of_mem_filter hi)
  generalize (List.range 8).filter a.getLsbD = bits at hbits
  induction bits with
  | nil => exact hzero
  | cons i bits ih =>
    exact hxor _ _ (hbit i (hbits i (.head _))) (ih fun j hj => hbits j (.tail _ hj))

/-- `xtime` is doubling modulo 0x11B (R121). -/
theorem xtime_toNat : ∀ a : Byte, (xtime a).toNat =
    if 2 * a.toNat < 256 then 2 * a.toNat else (2 * a.toNat ^^^ 0x11B) % 256 := by
  decide +kernel

theorem gmul_zero (a : Byte) : gmul a 0 = 0 := rfl

theorem gmul_one (a : Byte) : gmul a 1 = a := BitVec.zero_xor

theorem gmul_two (a : Byte) : gmul a 2 = xtime a := BitVec.zero_xor

theorem gmul_three (a : Byte) : gmul a 3 = xtime a ^^^ a := by
  rw [BitVec.xor_comm]
  exact congrArg (· ^^^ xtime a) BitVec.zero_xor

theorem zero_gmul (a : Byte) : gmul 0 a = 0 := by
  simpa using gmul_xor 0 0 a

/-- The loop of `gmul` adds what the bits of the multiplier select, so that it distributes over
exclusive-or of its multiplier. -/
theorem gmulLoop_xor_right (k : Nat) (p q a b c : Byte) :
    gmulLoop k (p ^^^ q) a (b ^^^ c) = gmulLoop k p a b ^^^ gmulLoop k q a c := by
  induction k generalizing p q a b c with
  | zero => rfl
  | succ k ih =>
    simp only [gmulLoop, BitVec.ushiftRight_xor_distrib, BitVec.getLsbD_xor]
    rw [← ih]
    congr 1
    have hcancel : p ^^^ a ^^^ (q ^^^ a) = p ^^^ q := by
      rw [show p ^^^ a ^^^ (q ^^^ a) = p ^^^ q ^^^ (a ^^^ a) by ac_rfl, BitVec.xor_self,
        BitVec.xor_zero]
    cases b.getLsbD 0 <;> cases c.getLsbD 0
    · rfl
    · exact BitVec.xor_assoc p q a
    · change p ^^^ q ^^^ a = p ^^^ a ^^^ q
      ac_rfl
    · exact hcancel.symm

theorem gmul_xor_right (a b c : Byte) : gmul a (b ^^^ c) = gmul a b ^^^ gmul a c :=
  gmulLoop_xor_right 8 0 0 a b c

theorem gmul_comm (a b : Byte) : gmul a b = gmul b a := by
  induction a using byte_induction with
  | hzero => exact zero_gmul b
  | hxor a a' ha ha' => rw [gmul_xor, gmul_xor_right, ha, ha']
  | hbit i hi =>
    induction b using byte_induction with
    | hzero => exact (zero_gmul _).symm
    | hxor b b' hb hb' => rw [gmul_xor, gmul_xor_right, hb, hb']
    | hbit j hj =>
      revert i j
      decide

theorem gmul_assoc (a b c : Byte) : gmul (gmul a b) c = gmul a (gmul b c) := by
  induction a using byte_induction with
  | hzero => simp only [zero_gmul]
  | hxor a a' ha ha' => simp only [gmul_xor, ha, ha']
  | hbit i hi =>
    induction b using byte_induction with
    | hzero => simp only [zero_gmul, gmul_zero]
    | hxor b b' hb hb' => simp only [gmul_xor, gmul_xor_right, hb, hb']
    | hbit j hj =>
      induction c using byte_induction with
      | hzero => simp only [gmul_zero]
      | hxor c c' hc hc' => simp only [gmul_xor_right, hc, hc']
      | hbit k hk =>
        revert i j k
        decide +kernel

/-- Settles O51: the laws of `gmul` follow from distributivity and the products of powers of two. -/
theorem fieldProductLaws : Obligations.FieldProductLaws := by
  unfold Obligations.FieldProductLaws
  exact ⟨xtime_toNat, gmul_comm, gmul_assoc, gmul_xor_right,
    fun a => ⟨gmul_one a, gmul_zero a, gmul_two a, gmul_three a⟩⟩

theorem gpow_one (a : Byte) : gpow a 1 = a := by
  rw [gpow, gpow, gmul_comm, gmul_one]

theorem gmul_gpow (a : Byte) (m n : Nat) : gmul (gpow a m) (gpow a n) = gpow a (m + n) := by
  induction n with
  | zero => exact gmul_one _
  | succ n ih => rw [gpow, ← gmul_assoc, ih]; rfl

/-- The squarings and products of `ginv` make the power 254 (R123). -/
theorem ginv_eq_gpow (a : Byte) : ginv a = gpow a 254 := by
  conv_lhs => rw [← gpow_one a]
  simp only [ginv, gmul_gpow, Nat.reduceAdd]

theorem ginv_zero : ginv 0 = 0 := by
  simp only [ginv, gmul_zero]

theorem gmul_ginv : ∀ a : Byte, a ≠ 0 → gmul a (ginv a) = 1 := by decide +kernel

/-- The inverse is unique: multiply `a * b = 1` by `ginv a`. -/
theorem gmul_eq_one_iff {a : Byte} (ha : a ≠ 0) (b : Byte) : gmul a b = 1 ↔ b = ginv a := by
  constructor
  · intro hab
    calc b = gmul b (gmul a (ginv a)) := by rw [gmul_ginv a ha, gmul_one]
      _ = gmul (gmul a b) (ginv a) := by rw [← gmul_assoc, gmul_comm b a]
      _ = ginv a := by rw [hab, gmul_comm, gmul_one]
  · rintro rfl
    exact gmul_ginv a ha

/-- Settles O52: uniqueness from associativity, the power from the exponents of the squarings. -/
theorem fieldInverseLaws : Obligations.FieldInverseLaws := by
  unfold Obligations.FieldInverseLaws
  exact ⟨ginv_zero, fun a b ha => gmul_eq_one_iff ha b,
    fun a => ⟨ginv_eq_gpow a, sbox_eq_formula a⟩⟩

end Sys2Proof.Proofs

/-! ### The round functions byte by byte, and the rounds (R127 to R134, R138, R139) -/

namespace Sys2Proof.Proofs

open Sys2Proof.Machine Sys2Proof.Safety

/-- Row `r` of a column (R127). -/
def colRow (a : Col) : Nat → Byte
  | 0 => a.r0
  | 1 => a.r1
  | 2 => a.r2
  | _ => a.r3

/-- Column `c` of a block (R127). -/
def blockCol (s : Block) : Nat → Col
  | 0 => s.c0
  | 1 => s.c1
  | 2 => s.c2
  | _ => s.c3

/-- Byte `r + 4c` of a block is row `r` of column `c` (R127). -/
theorem byte_eq (s : Block) {r c : Nat} (hr : r < 4) (hc : c < 4) :
    s.byte (r + 4 * c) = colRow (blockCol s c) r := by
  interval_cases c <;> interval_cases r <;> rfl

theorem byte_ofList (l : List Byte) {i : Nat} (hi : i < 16) :
    (Block.ofList l).byte i = l.getD i 0 := by
  obtain ⟨r, c, hr, hc, rfl⟩ : ∃ r c, r < 4 ∧ c < 4 ∧ i = r + 4 * c :=
    ⟨i % 4, i / 4, by omega, by omega, by omega⟩
  have hcol : blockCol (Block.ofList l) c = Col.ofList (l.drop (4 * c)) := by
    interval_cases c <;> rfl
  rw [byte_eq _ hr hc, hcol, Nat.add_comm]
  interval_cases r <;> simp [colRow, Col.ofList]

theorem blockCol_mapBlock (f : Byte → Byte) (s : Block) {c : Nat} (hc : c < 4) :
    blockCol (mapBlock f s) c = mapCol f (blockCol s c) := by
  interval_cases c <;> rfl

theorem colRow_mapCol (f : Byte → Byte) (a : Col) {r : Nat} (hr : r < 4) :
    colRow (mapCol f a) r = f (colRow a r) := by
  interval_cases r <;> rfl

theorem byte_mapBlock (f : Byte → Byte) (s : Block) {r c : Nat} (hr : r < 4) (hc : c < 4) :
    (mapBlock f s).byte (r + 4 * c) = f (s.byte (r + 4 * c)) := by
  rw [byte_eq _ hr hc, blockCol_mapBlock f s hc, colRow_mapCol f _ hr, byte_eq s hr hc]

theorem byte_shiftRows (s : Block) {r c : Nat} (hr : r < 4) (hc : c < 4) :
    (shiftRows s).byte (r + 4 * c) = s.byte (r + 4 * ((c + r) % 4)) := by
  interval_cases c <;> interval_cases r <;> rfl

theorem byte_invShiftRows (s : Block) {r c : Nat} (hr : r < 4) (hc : c < 4) :
    (invShiftRows s).byte (r + 4 * c) = s.byte (r + 4 * ((c + 4 - r) % 4)) := by
  interval_cases c <;> interval_cases r <;> rfl

theorem byte_mapCols (f : Col → Col) (s : Block) {r c : Nat} (hr : r < 4) (hc : c < 4) :
    (mapCols f s).byte (r + 4 * c) = colRow (f (blockCol s c)) r := by
  rw [byte_eq _ hr hc]
  interval_cases c <;> rfl

/-- The coefficients of each row of `MixColumns` are those of row 0, shifted by the row (R132). -/
theorem colRow_mixColumn (a : Col) {r : Nat} (hr : r < 4) :
    colRow (mixColumn a) r = gmul (colRow a r) 2 ^^^ gmul (colRow a ((r + 1) % 4)) 3 ^^^
      colRow a ((r + 2) % 4) ^^^ colRow a ((r + 3) % 4) := by
  interval_cases r <;> simp only [mixColumn, colRow, Nat.reduceAdd, Nat.reduceMod] <;> ac_rfl

/-- The same of `InvMixColumns` (R133). -/
theorem colRow_invMixColumn (a : Col) {r : Nat} (hr : r < 4) :
    colRow (invMixColumn a) r = gmul (colRow a r) 14 ^^^ gmul (colRow a ((r + 1) % 4)) 11 ^^^
      gmul (colRow a ((r + 2) % 4)) 13 ^^^ gmul (colRow a ((r + 3) % 4)) 9 := by
  interval_cases r <;> simp only [invMixColumn, colRow, Nat.reduceAdd, Nat.reduceMod] <;> ac_rfl

theorem byte_mixColumns (s : Block) {r c : Nat} (hr : r < 4) (hc : c < 4) :
    (mixColumns s).byte (r + 4 * c) =
      gmul (s.byte (r + 4 * c)) 2 ^^^ gmul (s.byte ((r + 1) % 4 + 4 * c)) 3 ^^^
        s.byte ((r + 2) % 4 + 4 * c) ^^^ s.byte ((r + 3) % 4 + 4 * c) := by
  rw [mixColumns, byte_mapCols _ s hr hc, colRow_mixColumn _ hr]
  simp only [byte_eq s hr hc, byte_eq s (Nat.mod_lt _ four_pos) hc]

theorem byte_invMixColumns (s : Block) {r c : Nat} (hr : r < 4) (hc : c < 4) :
    (invMixColumns s).byte (r + 4 * c) =
      gmul (s.byte (r + 4 * c)) 14 ^^^ gmul (s.byte ((r + 1) % 4 + 4 * c)) 11 ^^^
        gmul (s.byte ((r + 2) % 4 + 4 * c)) 13 ^^^ gmul (s.byte ((r + 3) % 4 + 4 * c)) 9 := by
  rw [invMixColumns, byte_mapCols _ s hr hc, colRow_invMixColumn _ hr]
  simp only [byte_eq s hr hc, byte_eq s (Nat.mod_lt _ four_pos) hc]

/-- After one more inner round: the round comes last (R138, R139). -/
theorem innerRounds_succ (round : Block → Block → Block) (ks : Vector Block 15) (n r : Nat)
    (s : Block) : innerRounds round ks (n + 1) r s =
      round (innerRounds round ks n r s) (roundKey ks (r + n)) := by
  induction n generalizing r s with
  | zero => rfl
  | succ n ih =>
    rw [innerRounds, ih, innerRounds, Nat.add_right_comm, Nat.add_assoc]

/-- The block after inner round `r`, from the block before it. -/
theorem innerRounds_pred (round : Block → Block → Block) (ks : Vector Block 15) {r : Nat}
    (hr : 1 ≤ r) (s : Block) : innerRounds round ks r 1 s =
      round (innerRounds round ks (r - 1) 1 s) (roundKey ks r) := by
  obtain ⟨n, rfl⟩ := Nat.exists_eq_add_of_le' hr
  rw [innerRounds_succ, Nat.add_sub_cancel, Nat.add_comm 1 n]

/-- Settles O55: each byte by the row and column it stands in; the block before round `r + 1` is
what `r` inner rounds leave. -/
theorem roundsOfTheCipher : Obligations.RoundsOfTheCipher := by
  unfold Obligations.RoundsOfTheCipher
  refine ⟨fun l i hi => byte_ofList l hi, fun s k r c hr hc => ?_, fun nr ks b => ⟨?_, ?_⟩⟩
  · exact ⟨byte_mapBlock sbox s hr hc, byte_mapBlock invSbox s hr hc, byte_shiftRows s hr hc,
      byte_invShiftRows s hr hc, byte_mixColumns s hr hc, byte_invMixColumns s hr hc,
      Block.byte_xor s k _ (by omega)⟩
  · exact ⟨fun r => innerRounds cipherRound ks r 1 (addRoundKey b (roundKey ks 0)), rfl,
      fun r hr _ => innerRounds_pred cipherRound ks hr _, rfl⟩
  · exact ⟨fun r => innerRounds invCipherRound ks r 1 (addRoundKey b (roundKey ks 0)), rfl,
      fun r hr _ => innerRounds_pred invCipherRound ks hr _, rfl⟩

/-! ### The inverse round functions undo the round functions (R126, R129, R131, R133) -/

theorem mapBlock_mapBlock_cancel {f g : Byte → Byte} (h : ∀ a, f (g a) = a) (s : Block) :
    mapBlock f (mapBlock g s) = s := by
  simp only [mapBlock, mapCol, h]

theorem mapCols_mapCols_cancel {f g : Col → Col} (h : ∀ a, f (g a) = a) (s : Block) :
    mapCols f (mapCols g s) = s := by
  simp only [mapCols, h]

@[simp] theorem invSubBytes_subBytes (s : Block) : invSubBytes (subBytes s) = s :=
  mapBlock_mapBlock_cancel invSbox_sbox s

@[simp] theorem subBytes_invSubBytes (s : Block) : subBytes (invSubBytes s) = s :=
  mapBlock_mapBlock_cancel sbox_invSbox s

@[simp] theorem invShiftRows_shiftRows (s : Block) : invShiftRows (shiftRows s) = s := rfl

@[simp] theorem shiftRows_invShiftRows (s : Block) : shiftRows (invShiftRows s) = s := rfl

/-- The product of a row of coefficients and a column, in the field. -/
def rowDot (k a : Col) : Byte :=
  gmul a.r0 k.r0 ^^^ gmul a.r1 k.r1 ^^^ gmul a.r2 k.r2 ^^^ gmul a.r3 k.r3

/-- The product of a matrix, given by its rows, and a column. -/
def matMul (m : Fin 4 → Col) (a : Col) : Col :=
  ⟨rowDot (m 0) a, rowDot (m 1) a, rowDot (m 2) a, rowDot (m 3) a⟩

/-- The product of a row of coefficients and a matrix, given by its rows. -/
def rowMul (k : Col) (m : Fin 4 → Col) : Col :=
  ⟨gmul (m 0).r0 k.r0 ^^^ gmul (m 1).r0 k.r1 ^^^ gmul (m 2).r0 k.r2 ^^^ gmul (m 3).r0 k.r3,
   gmul (m 0).r1 k.r0 ^^^ gmul (m 1).r1 k.r1 ^^^ gmul (m 2).r1 k.r2 ^^^ gmul (m 3).r1 k.r3,
   gmul (m 0).r2 k.r0 ^^^ gmul (m 1).r2 k.r1 ^^^ gmul (m 2).r2 k.r2 ^^^ gmul (m 3).r2 k.r3,
   gmul (m 0).r3 k.r0 ^^^ gmul (m 1).r3 k.r1 ^^^ gmul (m 2).r3 k.r2 ^^^ gmul (m 3).r3 k.r3⟩

/-- The product of a row, a matrix and a column is associative. -/
theorem rowDot_matMul (k : Col) (m : Fin 4 → Col) (a : Col) :
    rowDot k (matMul m a) = rowDot (rowMul k m) a := by
  simp only [rowDot, matMul, rowMul, gmul_xor, gmul_xor_right, gmul_assoc]
  ac_rfl

/-- The rows of the identity matrix. -/
def unitRows : Fin 4 → Col := ![⟨1, 0, 0, 0⟩, ⟨0, 1, 0, 0⟩, ⟨0, 0, 1, 0⟩, ⟨0, 0, 0, 1⟩]

/-- The coefficients of `MixColumns` (R132). -/
def mixRows : Fin 4 → Col := ![⟨2, 3, 1, 1⟩, ⟨1, 2, 3, 1⟩, ⟨1, 1, 2, 3⟩, ⟨3, 1, 1, 2⟩]

/-- The coefficients of `InvMixColumns` (R133). -/
def invMixRows : Fin 4 → Col :=
  ![⟨14, 11, 13, 9⟩, ⟨9, 14, 11, 13⟩, ⟨13, 9, 14, 11⟩, ⟨11, 13, 9, 14⟩]

theorem matMul_unitRows (a : Col) : matMul unitRows a = a := by
  simp only [matMul, unitRows, rowDot, Matrix.cons_val, gmul_one, gmul_zero]
  simp

theorem mixColumn_eq_matMul (a : Col) : mixColumn a = matMul mixRows a := by
  simp only [mixColumn, matMul, mixRows, rowDot, Matrix.cons_val, gmul_one]

theorem invMixColumn_eq_matMul (a : Col) : invMixColumn a = matMul invMixRows a := rfl

/-- Matrices whose product is the identity undo each other. -/
theorem matMul_matMul_cancel {m n : Fin 4 → Col} (h : ∀ i, rowMul (m i) n = unitRows i) (a : Col) :
    matMul m (matMul n a) = a := by
  rw [matMul]
  simp only [rowDot_matMul, h]
  exact matMul_unitRows a

theorem invMixColumn_mixColumn (a : Col) : invMixColumn (mixColumn a) = a := by
  rw [mixColumn_eq_matMul, invMixColumn_eq_matMul]
  exact matMul_matMul_cancel (by decide) a

theorem mixColumn_invMixColumn (a : Col) : mixColumn (invMixColumn a) = a := by
  rw [mixColumn_eq_matMul, invMixColumn_eq_matMul]
  exact matMul_matMul_cancel (by decide) a

@[simp] theorem invMixColumns_mixColumns (s : Block) : invMixColumns (mixColumns s) = s :=
  mapCols_mapCols_cancel invMixColumn_mixColumn s

@[simp] theorem mixColumns_invMixColumns (s : Block) : mixColumns (invMixColumns s) = s :=
  mapCols_mapCols_cancel mixColumn_invMixColumn s

theorem rowDot_xor (k a b : Col) : rowDot k (a.xor b) = rowDot k a ^^^ rowDot k b := by
  simp only [rowDot, Col.xor, gmul_xor]
  ac_rfl

theorem invMixColumn_xor (a b : Col) :
    invMixColumn (a.xor b) = (invMixColumn a).xor (invMixColumn b) := by
  simp only [invMixColumn_eq_matMul, matMul, rowDot_xor]
  rfl

theorem invMixColumns_xor (s t : Block) :
    invMixColumns (s.xor t) = (invMixColumns s).xor (invMixColumns t) := by
  simp only [invMixColumns, mapCols, Block.xor, invMixColumn_xor]

/-- Settles O50: byte by byte for the S-boxes, and by the products of the two coefficient matrices
for the column mixes. -/
theorem roundFunctionsInvert : Obligations.RoundFunctionsInvert := by
  unfold Obligations.RoundFunctionsInvert
  exact ⟨fun s => ⟨invSubBytes_subBytes s, invShiftRows_shiftRows s, invMixColumns_mixColumns s,
    mixColumns_invMixColumns s⟩, invMixColumns_xor⟩

end Sys2Proof.Proofs

/-! ### The inverse ciphers undo the cipher (R138 to R142) -/

namespace Sys2Proof.Proofs

open Sys2Proof.Machine Sys2Proof.Safety

@[simp] theorem addRoundKey_addRoundKey (s k : Block) : addRoundKey (addRoundKey s k) k = s :=
  Block.xor_xor_cancel s k

/-- `InvSubBytes` works on each byte alone, `InvShiftRows` only moves bytes. -/
theorem invShiftRows_invSubBytes (s : Block) :
    invShiftRows (invSubBytes s) = invSubBytes (invShiftRows s) := rfl

/-- One round of `InvCipherDirect` (R140). -/
def directRound (s k : Block) : Block :=
  invMixColumns (addRoundKey (invSubBytes (invShiftRows s)) k)

theorem directRounds_succ (ek : Vector Block 15) (n : Nat) (s : Block) :
    directRounds ek (n + 1) s = directRounds ek n (directRound s (roundKey ek (n + 1))) := rfl

/-! #### `InvCipherDirect` and `Cipher` undo each other, with any round keys -/

/-- Between the substitution layers, a round of the direct inverse undoes a round of the cipher. -/
theorem directRound_cipherRound (s k : Block) :
    directRound (shiftRows (subBytes (cipherRound s k))) k = shiftRows (subBytes s) := by
  simp only [directRound, cipherRound, invShiftRows_shiftRows, invSubBytes_subBytes,
    addRoundKey_addRoundKey, invMixColumns_mixColumns]

theorem cipherRound_directRound (s k : Block) :
    cipherRound (invSubBytes (invShiftRows (directRound s k))) k =
      invSubBytes (invShiftRows s) := by
  simp only [directRound, cipherRound, subBytes_invSubBytes, shiftRows_invShiftRows,
    mixColumns_invMixColumns, addRoundKey_addRoundKey]

theorem directRounds_innerRounds (ek : Vector Block 15) (n : Nat) (s : Block) :
    directRounds ek n (shiftRows (subBytes (innerRounds cipherRound ek n 1 s))) =
      shiftRows (subBytes s) := by
  induction n with
  | zero => rfl
  | succ n ih =>
    rw [directRounds_succ, innerRounds_succ, Nat.add_comm 1 n, directRound_cipherRound, ih]

theorem innerRounds_directRounds (ek : Vector Block 15) (n : Nat) (s : Block) :
    innerRounds cipherRound ek n 1 (invSubBytes (invShiftRows (directRounds ek n s))) =
      invSubBytes (invShiftRows s) := by
  induction n generalizing s with
  | zero => rfl
  | succ n ih =>
    rw [directRounds_succ, innerRounds_succ, Nat.add_comm 1 n, ih, cipherRound_directRound]

theorem invCipherDirect_cipher (nr : Nat) (ek : Vector Block 15) (b : Block) :
    invCipherDirect nr ek (cipher nr ek b) = b := by
  simp only [invCipherDirect, cipher, addRoundKey_addRoundKey, directRounds_innerRounds,
    invShiftRows_shiftRows, invSubBytes_subBytes]

theorem cipher_invCipherDirect (nr : Nat) (ek : Vector Block 15) (b : Block) :
    cipher nr ek (invCipherDirect nr ek b) = b := by
  simp only [invCipherDirect, cipher, addRoundKey_addRoundKey, innerRounds_directRounds,
    subBytes_invSubBytes, shiftRows_invShiftRows]

/-! #### `InvCipher` with the decryption schedule is `InvCipherDirect` (R137, R140) -/

/-- `dk` is the decryption schedule of `ek` (R137). -/
def IsDecryptionSchedule (nr : Nat) (ek dk : Vector Block 15) : Prop :=
  roundKey dk 0 = roundKey ek nr ∧ roundKey dk nr = roundKey ek 0 ∧
    ∀ r, 1 ≤ r → r < nr → roundKey dk r = invMixColumns (roundKey ek (nr - r))

/-- `InvMixColumns` is linear: mixing the round key and the block is mixing their sum. -/
theorem invCipherRound_invMixColumns (s k : Block) :
    invCipherRound s (invMixColumns k) = directRound s k := by
  rw [invCipherRound, directRound, invShiftRows_invSubBytes, addRoundKey, addRoundKey,
    invMixColumns_xor]

/-- The `n` inner rounds still to go use the round keys `n`, ..., 1 of the encryption schedule. -/
theorem innerRounds_invCipherRound {nr : Nat} {ek dk : Vector Block 15}
    (h : IsDecryptionSchedule nr ek dk) {n : Nat} (hn : n < nr) (s : Block) :
    innerRounds invCipherRound dk n (nr - n) s = directRounds ek n s := by
  obtain ⟨-, -, hinner⟩ := h
  induction n generalizing s with
  | zero => rfl
  | succ n ih =>
    have hkey : roundKey dk (nr - (n + 1)) = invMixColumns (roundKey ek (n + 1)) := by
      rw [hinner _ (by omega) (by omega), Nat.sub_sub_self hn.le]
    rw [innerRounds, hkey, invCipherRound_invMixColumns, directRounds_succ,
      show nr - (n + 1) + 1 = nr - n by omega, ih (by omega)]

theorem invCipher_eq_invCipherDirect {nr : Nat} {ek dk : Vector Block 15} (hnr : 0 < nr)
    (h : IsDecryptionSchedule nr ek dk) (b : Block) :
    invCipher nr dk b = invCipherDirect nr ek b := by
  have hrounds := innerRounds_invCipherRound h (Nat.sub_one_lt_of_lt hnr)
  obtain ⟨hfirst, hlast, -⟩ := h
  rw [Nat.sub_sub_self hnr] at hrounds
  simp only [invCipher, invCipherDirect, hrounds, hfirst, hlast, invShiftRows_invSubBytes]

/-- `Expand` makes the decryption schedule of its round keys (R143), as O54 says. -/
theorem expand_isDecryptionSchedule {key : List Byte} (h : LegalKeySize key.length) :
    IsDecryptionSchedule (expand key).nr (expand key).ek (expand key).dk := by
  obtain ⟨-, hfirst, hlast, hinner, -⟩ := decryptionSchedule key h
  exact ⟨hfirst, hlast, hinner⟩

/-- For a context made from a key, `D` is the direct inverse cipher (R140). -/
theorem aesD_expand {key : List Byte} (h : LegalKeySize key.length) (b : Block) :
    aesD (expand key) b = invCipherDirect (expand key).nr (expand key).ek b :=
  invCipher_eq_invCipherDirect (Nat.succ_pos _) (expand_isDecryptionSchedule h) b

/-- Settles O49: `Expand` makes a decryption schedule, and `InvMixColumns` is linear. -/
theorem directInverseIsInvCipher : Obligations.DirectInverseIsInvCipher := by
  unfold Obligations.DirectInverseIsInvCipher
  exact fun key b h => (aesD_expand h b).symm

/-- Settles O48: for an expanded context `D` is the direct inverse, which undoes `E` round by
round. -/
theorem decryptionInvertsEncryption : Obligations.DecryptionInvertsEncryption := by
  unfold Obligations.DecryptionInvertsEncryption
  rintro ctx b ⟨key, hkey, rfl⟩
  refine ⟨rfl, ?_, ?_⟩
  · rw [aesD_expand hkey, aesE, invCipherDirect_cipher]
  · rw [aesD_expand hkey, aesE, cipher_invCipherDirect]

end Sys2Proof.Proofs

/-! ### Key expansion (R135, R136) -/

namespace Sys2Proof.Proofs

open Sys2Proof.Machine Sys2Proof.Safety

/-- Word `w[i]` of a list of words, `w[0]` first. -/
def wordAt (ws : List Col) (i : Nat) : Col := ws.getD i Col.zero

theorem wordAt_append_left {ws vs : List Col} {i : Nat} (h : i < ws.length) :
    wordAt (ws ++ vs) i = wordAt ws i := List.getD_append _ _ _ _ h

/-! #### The recurrence -/

/-- The word that the recurrence of R136 gives for `w[i]` from the words before it. -/
def recurrenceWord (nk : Nat) (ws : List Col) (i : Nat) : Col :=
  (wordAt ws (i - nk)).xor (scheduleWord nk i (wordAt ws (i - 1)))

/-- Every word from `w[nk]` on follows the recurrence of R136. -/
def FollowsRecurrence (nk : Nat) (ws : List Col) : Prop :=
  ∀ i, nk ≤ i → i < ws.length → wordAt ws i = recurrenceWord nk ws i

/-- The recurrence looks only at earlier words. -/
theorem recurrenceWord_append {nk i : Nat} {ws vs : List Col} (hnk : 0 < nk) (hi : nk ≤ i)
    (h : i ≤ ws.length) : recurrenceWord nk (ws ++ vs) i = recurrenceWord nk ws i := by
  rw [recurrenceWord, recurrenceWord, wordAt_append_left (by omega),
    wordAt_append_left (by omega)]

theorem followsRecurrence_append {nk : Nat} {ws : List Col} (hnk : 0 < nk)
    (h : FollowsRecurrence nk ws) :
    FollowsRecurrence nk (ws ++ [recurrenceWord nk ws ws.length]) := by
  intro i hi hlt
  rw [List.length_append, List.length_singleton] at hlt
  rw [recurrenceWord_append hnk hi (by omega)]
  obtain hold | rfl : i < ws.length ∨ i = ws.length := by omega
  · rw [wordAt_append_left hold, h i hi hold]
  · simp [wordAt]

/-- `expandWords` holds the words last first: its next word is the one of the recurrence. -/
theorem nextWord_eq_recurrenceWord {nk : Nat} {ws : List Col} (hnk : 0 < nk)
    (hlen : nk ≤ ws.length) :
    (ws.getD (nk - 1) Col.zero).xor (scheduleWord nk ws.length (ws.getD 0 Col.zero)) =
      recurrenceWord nk ws.reverse ws.reverse.length := by
  rw [recurrenceWord, wordAt, wordAt, List.length_reverse, List.getD_reverse _ (by omega),
    List.getD_reverse _ (by omega), Nat.sub_self,
    show ws.length - 1 - (ws.length - nk) = nk - 1 by omega]

theorem length_expandWords (nk k i : Nat) (ws : List Col) :
    (expandWords nk k i ws).length = ws.length + k := by
  induction k generalizing i ws with
  | zero => rfl
  | succ k ih => rw [expandWords, ih, List.length_cons, Nat.add_right_comm, Nat.add_assoc]

/-- `expandWords` only puts new words after those it is given. -/
theorem suffix_expandWords (nk k i : Nat) (ws : List Col) : ws <:+ expandWords nk k i ws := by
  induction k generalizing i ws with
  | zero => exact List.suffix_rfl
  | succ k ih => exact (List.suffix_cons _ ws).trans (ih _ _)

theorem followsRecurrence_expandWords {nk : Nat} (hnk : 0 < nk) (k : Nat) {ws : List Col}
    (hlen : nk ≤ ws.length) (h : FollowsRecurrence nk ws.reverse) :
    FollowsRecurrence nk (expandWords nk k ws.length ws).reverse := by
  induction k generalizing ws with
  | zero => exact h
  | succ k ih =>
    rw [expandWords, nextWord_eq_recurrenceWord hnk hlen]
    refine ih (ws := _ :: ws) (Nat.le_succ_of_le hlen) ?_
    rw [List.reverse_cons]
    exact followsRecurrence_append hnk h

/-- `RotWord`, `SubWord` and the round constant written out (R136). -/
theorem scheduleWord_eq (nk i : Nat) (t : Col) : scheduleWord nk i t =
    if i % nk = 0 then ⟨sbox t.r1 ^^^ rcon (i / nk), sbox t.r2, sbox t.r3, sbox t.r0⟩
    else if nk = 8 ∧ i % nk = 4 then ⟨sbox t.r0, sbox t.r1, sbox t.r2, sbox t.r3⟩
    else t := by
  simp [scheduleWord, subWord, rotWord, mapCol, Col.xor]

/-! #### The words of a key -/

theorem reverse_keyWords (key : List Byte) (k : Nat) :
    (keyWords key k).reverse = (List.range k).map fun i => Col.ofList (key.drop (4 * i)) := by
  induction k with
  | zero => rfl
  | succ k ih => rw [keyWords, List.reverse_cons, ih, List.range_succ, List.map_append]; rfl

theorem length_keyWords (key : List Byte) (k : Nat) : (keyWords key k).length = k := by
  rw [← List.length_reverse, reverse_keyWords, List.length_map, List.length_range]

theorem wordAt_keyWords (key : List Byte) {k i : Nat} (h : i < k) :
    wordAt (keyWords key k).reverse i = Col.ofList (key.drop (4 * i)) := by
  simp [wordAt, reverse_keyWords, h]

theorem length_scheduleWords {key : List Byte} :
    (scheduleWords key).length = 4 * (keyNr key + 1) := by
  rw [scheduleWords, List.length_reverse, length_expandWords, length_keyWords]
  unfold keyNr
  omega

theorem wordAt_scheduleWords (key : List Byte) {i : Nat} (h : i < keyNk key) :
    wordAt (scheduleWords key) i = Col.ofList (key.drop (4 * i)) := by
  obtain ⟨vs, hvs⟩ := suffix_expandWords (keyNk key) (4 * (keyNr key + 1) - keyNk key) (keyNk key)
    (keyWords key (keyNk key))
  rw [scheduleWords, ← hvs, List.reverse_append, wordAt_append_left, wordAt_keyWords key h]
  rwa [List.length_reverse, length_keyWords]

theorem followsRecurrence_scheduleWords {key : List Byte} (hnk : 0 < keyNk key) :
    FollowsRecurrence (keyNk key) (scheduleWords key) := by
  have hlen := length_keyWords key (keyNk key)
  have hnone : FollowsRecurrence (keyNk key) (keyWords key (keyNk key)).reverse := by
    intro i hi hlt
    rw [List.length_reverse, hlen] at hlt
    omega
  have h := followsRecurrence_expandWords hnk (4 * (keyNr key + 1) - keyNk key) hlen.ge hnone
  rwa [hlen] at h

/-! #### The round keys -/

/-- Round key `r` is the words `4r` to `4r + 3` (R136). -/
theorem roundKeys_getD {ws : List Col} {n r : Nat} (hlen : ws.length = 4 * n) (hr : r < n) :
    (roundKeys ws).getD r Block.zero =
      ⟨wordAt ws (4 * r), wordAt ws (4 * r + 1), wordAt ws (4 * r + 2), wordAt ws (4 * r + 3)⟩ := by
  induction ws using roundKeys.induct generalizing n r with
  | case1 a b c d ws ih =>
    simp only [List.length_cons] at hlen
    cases r with
    | zero => rfl
    | succ r => exact ih (n := n - 1) (by omega) (by omega)
  | case2 ws hshort =>
    match ws, hshort with
    | [], _ => simp at hlen; omega
    | [_], _ | [_, _], _ | [_, _, _], _ => simp at hlen; omega
    | a :: b :: c :: d :: ws, h => exact (h a b c d ws rfl).elim

theorem roundKey_expand_ek_eq_words {key : List Byte} (h : LegalKeySize key.length) {r : Nat}
    (hr : r ≤ keyNr key) :
    roundKey (expand key).ek r =
      ⟨wordAt (scheduleWords key) (4 * r), wordAt (scheduleWords key) (4 * r + 1),
        wordAt (scheduleWords key) (4 * r + 2), wordAt (scheduleWords key) (4 * r + 3)⟩ := by
  have hmax := keyNr_le h
  rw [roundKey_expand_ek, if_pos (by omega), keyExpansion,
    roundKeys_getD length_scheduleWords (by omega)]

theorem rcon_succ {j : Nat} (h : 1 ≤ j) : rcon (j + 1) = xtime (rcon j) := by
  obtain ⟨j, rfl⟩ := Nat.exists_eq_add_of_le' h
  rfl

/-- Settles O53: every word that `expandWords` adds is the one of the recurrence, after the words of
the key. -/
theorem keyExpansionRecurrence : Obligations.KeyExpansionRecurrence := by
  unfold Obligations.KeyExpansionRecurrence
  refine ⟨⟨rfl, fun j => rcon_succ, by decide⟩, fun key hkey => ?_⟩
  have hnk : 0 < keyNk key := by unfold keyNk; omega
  refine ⟨length_scheduleWords, fun i hi => wordAt_scheduleWords key hi, fun i hi hlt => ?_,
    rfl, fun r hr => roundKey_expand_ek_eq_words hkey hr⟩
  have hword := followsRecurrence_scheduleWords hnk i hi (length_scheduleWords ▸ hlt)
  rwa [recurrenceWord, scheduleWord_eq] at hword

end Sys2Proof.Proofs

/-! ### The AES core commands (R160 to R163) -/

namespace Sys2Proof.Proofs

open Sys2Proof.Machine Sys2Proof.Safety

/-! #### A command's checks in order, and the two ways it ends (R251, R258) -/

theorem exec_of_check_fails {i : Instr} {s : State} {e : ResultCode}
    (h : firstFailure (checksOf s i) = some e) : exec i s = .next (s.setResult e) := by
  rw [exec_eq, h]

theorem exec_of_checks_pass {i : Instr} {s : State} (h : firstFailure (checksOf s i) = none) :
    exec i s = .next (successOf s i) := by
  rw [exec_eq, h]

/-- The first failure, with the condition of the first check written out. -/
theorem firstFailure_cons_of_iff {c : Check} {cs : List Check} {P : Prop} [Decidable P]
    (h : c.passes = true ↔ P) :
    firstFailure (c :: cs) = if P then firstFailure cs else some c.error := by
  simp only [firstFailure_cons, h]

/-- The overlap check is the condition of R68: ranges of length 0 are disjoint. -/
theorem overlapCheck_passes_iff (a b n : Nat) :
    (overlapCheck a b n).passes = true ↔ AliasOk a b n := by
  rw [overlapCheck_passes]
  unfold AliasOk
  omega

/-! #### The bytes a command stored -/

theorem stores_successOf (s : State) (i : Instr) :
    Stores s (successOf s i) s.dstAddr (outputOf s i) :=
  stores_of_writeBytes rfl

section
variable {s : State} {i : Instr} {n : Nat} (hf : firstFailure (checksOf s i) = none)
  (hn : outputSize s i = some n)
include hf hn

/-- A command that passed its checks changes no byte outside its output range. -/
theorem sameOutside_successOf : SameOutside s (successOf s i) s.dstAddr n :=
  outputOf_length_of_outputSize hf hn ▸ (stores_successOf s i).2

/-- A command that passed its checks leaves the bytes of `outputOf` in its output range. -/
theorem byteAt_successOf {j : Nat} (hj : j < n) :
    byteAt (successOf s i) (s.dstAddr + j) = (outputOf s i).getD j 0 :=
  Memory.read_writeBytes_inside _ _ _ _ (by rwa [outputOf_length_of_outputSize hf hn])

end

theorem blockAt_of_stores {s t : State} {a : Nat} {b : Block} (h : Stores s t a b.toList) :
    blockAt t a 0 = b := by
  obtain ⟨hread, -⟩ := h
  exact congrArg Block.ofList hread

/-! #### `AES_INIT` (R160) -/

theorem firstFailure_aesInit (k : Nat) (s : State) :
    firstFailure (checksOf s (.aesInit k)) =
      if LegalKeySize k then if Admitted s s.keyAddr k then none else some .accessFault
      else some .invalidKeySize := by
  have haccess : (accessCheck s [keyRange s k]).passes = true ↔ Admitted s s.keyAddr k := by
    rw [accessCheck_passes, List.forall_mem_singleton]; rfl
  rw [checksOf, firstFailure_cons_of_iff (keySizeCheck_passes k),
    firstFailure_cons_of_iff haccess]
  rfl

/-- Settles O26: the two checks in order; on success only the AES slot is set. -/
theorem aesInitRule : Obligations.AesInitRule := by
  unfold Obligations.AesInitRule
  refine ⟨rfl, rfl, rfl, fun k s => ⟨fun hk => ?_, fun hk hadm => ?_, fun hk hadm => ?_⟩⟩
  · exact exec_of_check_fails (by rw [firstFailure_aesInit, if_neg hk])
  · exact exec_of_check_fails (by rw [firstFailure_aesInit, if_pos hk, if_neg hadm])
  · exact exec_of_checks_pass (by rw [firstFailure_aesInit, if_pos hk, if_pos hadm])

/-! #### `AES_ENCRYPT` and `AES_DECRYPT` (R161, R162) -/

theorem firstFailure_blockChecks (s : State) :
    firstFailure (blockChecks s) =
      if s.aes.valid = true then
        if Admitted s s.srcAddr 16 ∧ Admitted s s.dstAddr 16 then
          if AliasOk s.srcAddr s.dstAddr 16 then none else some .overlapFault
        else some .accessFault
      else some .noContext := by
  have haccess : (accessCheck s [srcRange s Config.blockBytes,
      dstRange s Config.blockBytes]).passes = true ↔
      Admitted s s.srcAddr 16 ∧ Admitted s s.dstAddr 16 := by
    rw [accessCheck_passes, List.forall_mem_cons, List.forall_mem_singleton]; rfl
  rw [blockChecks, firstFailure_cons_of_iff Iff.rfl, firstFailure_cons_of_iff haccess,
    firstFailure_cons_of_iff (overlapCheck_passes_iff _ _ _)]
  rfl

/-- The rule that the two block commands share: a command with the checks of `blockChecks` that on
success stores `f` of the context and the input block, and sets nothing else. -/
theorem blockCommand_rule (s : State) {i : Instr} {f : CipherCtx → Block → Block}
    (hchecks : checksOf s i = blockChecks s) (hsize : outputSize s i = some 16)
    (houtput : outputOf s i = (f s.aes.ctx (blockAt s s.srcAddr 0)).toList)
    (honly : OnlyMemory s (successOf s i)) :
    (s.aes.valid = false → exec i s = .next (s.setResult .noContext)) ∧
    (s.aes.valid = true → ¬ (Admitted s s.srcAddr 16 ∧ Admitted s s.dstAddr 16) →
      exec i s = .next (s.setResult .accessFault)) ∧
    (s.aes.valid = true → Admitted s s.srcAddr 16 → Admitted s s.dstAddr 16 →
      ¬ AliasOk s.srcAddr s.dstAddr 16 → exec i s = .next (s.setResult .overlapFault)) ∧
    (s.aes.valid = true → Admitted s s.srcAddr 16 → Admitted s s.dstAddr 16 →
      AliasOk s.srcAddr s.dstAddr 16 →
      ∃ t, exec i s = .next t ∧ blockAt t s.dstAddr 0 = f s.aes.ctx (blockAt s s.srcAddr 0) ∧
        SameOutside s t s.dstAddr 16 ∧ OnlyMemory s t) := by
  have hfirst := firstFailure_blockChecks s
  rw [← hchecks] at hfirst
  refine ⟨fun hv => ?_, fun hv hadm => ?_, fun hv hsrc hdst halias => ?_,
    fun hv hsrc hdst halias => ?_⟩
  · exact exec_of_check_fails (by rw [hfirst, if_neg (by simp [hv])])
  · exact exec_of_check_fails (by rw [hfirst, if_pos hv, if_neg hadm])
  · exact exec_of_check_fails (by rw [hfirst, if_pos hv, if_pos ⟨hsrc, hdst⟩, if_neg halias])
  · have hpass : firstFailure (checksOf s i) = none := by
      rw [hfirst, if_pos hv, if_pos ⟨hsrc, hdst⟩, if_pos halias]
    exact ⟨_, exec_of_checks_pass hpass, blockAt_of_stores (houtput ▸ stores_successOf s i),
      sameOutside_successOf hpass hsize, honly⟩

/-- Settles O27: the rule of a block command, with `E`. -/
theorem aesEncryptRule : Obligations.AesEncryptRule := by
  unfold Obligations.AesEncryptRule
  exact ⟨rfl, fun s => blockCommand_rule s rfl rfl rfl rfl⟩

/-- Settles O28: the rule of a block command, with `D`. -/
theorem aesDecryptRule : Obligations.AesDecryptRule := by
  unfold Obligations.AesDecryptRule
  exact ⟨rfl, fun s => blockCommand_rule s rfl rfl rfl rfl⟩

/-! #### `XOR_BUF` (R163) -/

theorem firstFailure_xorBuf (s : State) :
    firstFailure (checksOf s .xorBuf) =
      if Admitted s s.srcAddr s.dataLen ∧ Admitted s s.src2Addr s.dataLen ∧
          Admitted s s.dstAddr s.dataLen then
        if AliasOk s.srcAddr s.dstAddr s.dataLen ∧ AliasOk s.src2Addr s.dstAddr s.dataLen then none
        else some .overlapFault
      else some .accessFault := by
  have haccess : (accessCheck s
        [srcRange s s.dataLen, src2Range s s.dataLen, dstRange s s.dataLen]).passes = true ↔
      Admitted s s.srcAddr s.dataLen ∧ Admitted s s.src2Addr s.dataLen ∧
        Admitted s s.dstAddr s.dataLen := by
    rw [accessCheck_passes, List.forall_mem_cons, List.forall_mem_cons,
      List.forall_mem_singleton]; rfl
  rw [checksOf, firstFailure_cons_of_iff haccess,
    firstFailure_cons_of_iff (overlapCheck_passes_iff _ _ _),
    firstFailure_cons_of_iff (overlapCheck_passes_iff _ _ _),
    ite_and (AliasOk s.srcAddr s.dstAddr s.dataLen)]
  rfl

theorem getD_xorBytes {as bs : List Byte} {i : Nat} (ha : i < as.length) (hb : i < bs.length) :
    (xorBytes as bs).getD i 0 = as.getD i 0 ^^^ bs.getD i 0 := by
  simp [xorBytes, ha, hb]

theorem length_srcData (s : State) : s.srcData.length = s.dataLen :=
  Memory.length_readBytes _ _ _

theorem length_src2Data (s : State) : s.src2Data.length = s.dataLen :=
  Memory.length_readBytes _ _ _

theorem getD_srcData {s : State} {i : Nat} (hi : i < s.dataLen) :
    s.srcData.getD i 0 = byteAt s (s.srcAddr + i) :=
  Memory.getD_readBytes _ _ _ _ hi

theorem getD_src2Data {s : State} {i : Nat} (hi : i < s.dataLen) :
    s.src2Data.getD i 0 = byteAt s (s.src2Addr + i) :=
  Memory.getD_readBytes _ _ _ _ hi

/-- Byte `i` of the output of `XOR_BUF`, from the memory before the command. -/
theorem getD_outputOf_xorBuf {s : State} {i : Nat} (hi : i < s.dataLen) :
    (outputOf s .xorBuf).getD i 0 = byteAt s (s.srcAddr + i) ^^^ byteAt s (s.src2Addr + i) := by
  rw [outputOf, getD_xorBytes (by rwa [length_srcData]) (by rwa [length_src2Data]),
    getD_srcData hi, getD_src2Data hi]

/-- Settles O29: the checks in order, the pairs of R68 together; on success the bytes of
`getD_outputOf_xorBuf` stand at `x[DST]`. -/
theorem xorBufRule : Obligations.XorBufRule := by
  unfold Obligations.XorBufRule
  refine ⟨rfl, fun s => ⟨fun hadm => ?_, fun hsrc hsrc2 hdst halias => ?_,
    fun hsrc hsrc2 hdst halias halias2 => ?_⟩⟩
  · exact exec_of_check_fails (by rw [firstFailure_xorBuf, if_neg hadm])
  · exact exec_of_check_fails
      (by rw [firstFailure_xorBuf, if_pos ⟨hsrc, hsrc2, hdst⟩, if_neg halias])
  · have hpass : firstFailure (checksOf s .xorBuf) = none := by
      rw [firstFailure_xorBuf, if_pos ⟨hsrc, hsrc2, hdst⟩, if_pos ⟨halias, halias2⟩]
    refine ⟨_, exec_of_checks_pass hpass, fun i hi => ?_, sameOutside_successOf hpass rfl, rfl⟩
    rw [byteAt_successOf hpass rfl hi, getD_outputOf_xorBuf hi]

end Sys2Proof.Proofs

/-! ### The CBC commands (R180 to R187) -/

namespace Sys2Proof.Proofs

open Sys2Proof.Machine Sys2Proof.Safety

/-! #### The init commands, from the AES slot and with key (R180, R181) -/

section
variable (s : State) {i : Instr} {n : Nat}

/-- The rule of an init from the AES slot, with an IV of `n` bytes: its two checks in order. -/
theorem init_rule
    (hchecks : checksOf s i = [contextCheck s.aes.valid, accessCheck s [ivRange s n]]) :
    (s.aes.valid = false → exec i s = .next (s.setResult .noContext)) ∧
    (s.aes.valid = true → ¬ Admitted s s.ivAddr n → exec i s = .next (s.setResult .accessFault)) ∧
    (s.aes.valid = true → Admitted s s.ivAddr n → exec i s = .next (successOf s i)) := by
  have haccess : (accessCheck s [ivRange s n]).passes = true ↔ Admitted s s.ivAddr n := by
    rw [accessCheck_passes, List.forall_mem_singleton]; rfl
  have hfirst : firstFailure (checksOf s i) =
      if s.aes.valid = true then if Admitted s s.ivAddr n then none else some .accessFault
      else some .noContext := by
    rw [hchecks, firstFailure_cons_of_iff Iff.rfl, firstFailure_cons_of_iff haccess]; rfl
  refine ⟨fun hv => ?_, fun hv hiv => ?_, fun hv hiv => ?_⟩
  · exact exec_of_check_fails (by rw [hfirst, if_neg (ne_true_of_eq_false hv)])
  · exact exec_of_check_fails (by rw [hfirst, if_pos hv, if_neg hiv])
  · exact exec_of_checks_pass (by rw [hfirst, if_pos hv, if_pos hiv])

/-- The rule of an init with key, with an IV of `n` bytes: its two checks in order. -/
theorem initWithKey_rule {k : Nat}
    (hchecks : checksOf s i = [keySizeCheck k, accessCheck s [keyRange s k, ivRange s n]]) :
    (¬ LegalKeySize k → exec i s = .next (s.setResult .invalidKeySize)) ∧
    (LegalKeySize k → ¬ (Admitted s s.keyAddr k ∧ Admitted s s.ivAddr n) →
      exec i s = .next (s.setResult .accessFault)) ∧
    (LegalKeySize k → Admitted s s.keyAddr k → Admitted s s.ivAddr n →
      exec i s = .next (successOf s i)) := by
  have haccess : (accessCheck s [keyRange s k, ivRange s n]).passes = true ↔
      Admitted s s.keyAddr k ∧ Admitted s s.ivAddr n := by
    rw [accessCheck_passes, List.forall_mem_cons, List.forall_mem_singleton]; rfl
  have hfirst : firstFailure (checksOf s i) =
      if LegalKeySize k then
        if Admitted s s.keyAddr k ∧ Admitted s s.ivAddr n then none else some .accessFault
      else some .invalidKeySize := by
    rw [hchecks, firstFailure_cons_of_iff (keySizeCheck_passes k),
      firstFailure_cons_of_iff haccess]; rfl
  refine ⟨fun hk => ?_, fun hk hadm => ?_, fun hk hkey hiv => ?_⟩
  · exact exec_of_check_fails (by rw [hfirst, if_neg hk])
  · exact exec_of_check_fails (by rw [hfirst, if_pos hk, if_neg hadm])
  · exact exec_of_checks_pass (by rw [hfirst, if_pos hk, if_pos ⟨hkey, hiv⟩])

end

/-- Settles O30: the rule of an init from the AES slot; the effect sets the CBC slot only. -/
theorem cbcInitRule : Obligations.CbcInitRule := by
  unfold Obligations.CbcInitRule
  exact ⟨rfl, fun s => init_rule s (i := .cbcInit) rfl⟩

/-- Settles O31: the rule of an init with key; the effect sets the CBC slot only. -/
theorem cbcInitWithKeyRule : Obligations.CbcInitWithKeyRule := by
  unfold Obligations.CbcInitWithKeyRule
  exact ⟨rfl, rfl, rfl, fun k s => initWithKey_rule s (i := .cbcInitWithKey k) rfl⟩

/-! #### Blocks of a buffer -/

theorem blocksOf_append {k₁ : Nat} {d₁ : List Byte} (k₂ : Nat) (d₂ : List Byte)
    (h : d₁.length = 16 * k₁) :
    blocksOf (k₁ + k₂) (d₁ ++ d₂) = blocksOf k₁ d₁ ++ blocksOf k₂ d₂ := by
  induction k₁ generalizing d₁ with
  | zero => rw [List.length_eq_zero_iff.1 h, Nat.zero_add]; rfl
  | succ k₁ ih =>
    have hd : 16 ≤ d₁.length := by omega
    rw [Nat.succ_add, blocksOf, blocksOf, List.drop_append_of_le_length hd,
      ih (by rw [List.length_drop]; omega), List.cons_append,
      ← Block.toList_ofList_append_drop hd, List.append_assoc, Block.ofList_toList_append,
      Block.ofList_toList_append, Block.drop_toList_append]

theorem bytesOfBlocks_append (bs bs' : List Block) :
    bytesOfBlocks (bs ++ bs') = bytesOfBlocks bs ++ bytesOfBlocks bs' := by
  induction bs with
  | nil => rfl
  | cons b bs ih => simp only [List.cons_append, bytesOfBlocks, ih, List.append_assoc]

/-- The `k` blocks at `a`. -/
def blocksAt (s : State) (a k : Nat) : List Block := blocksOf k (s.memRead a (16 * k))

theorem length_blocksAt (s : State) (a k : Nat) : (blocksAt s a k).length = k :=
  length_blocksOf _ _

theorem blocksAt_succ (s : State) (a k : Nat) :
    blocksAt s a (k + 1) = blockAt s a 0 :: blocksAt s (a + 16) k := by
  have hsplit : s.memRead a (16 * (1 + k)) = s.memRead a 16 ++ s.memRead (a + 16) (16 * k) := by
    rw [Nat.mul_add]; exact Memory.readBytes_add _ _ _ _
  rw [blocksAt, Nat.add_comm k 1, hsplit]
  exact blocksOf_append (k₁ := 1) k _ (Memory.length_readBytes s.mem a 16)

theorem getD_blocksAt (s : State) (a : Nat) {k j : Nat} (hj : j < k) :
    (blocksAt s a k).getD j Block.zero = blockAt s a j := by
  induction k generalizing a j with
  | zero => omega
  | succ k ih =>
    rw [blocksAt_succ]
    cases j with
    | zero => rfl
    | succ j =>
      rw [List.getD_cons_succ, ih _ (by omega), blockAt, blockAt, Nat.mul_succ, Nat.add_assoc,
        Nat.add_comm 16]

/-- The blocks of an output are those stored. -/
theorem blocksAt_of_stores {s t : State} {a : Nat} {bs : List Block}
    (h : Stores s t a (bytesOfBlocks bs)) : blocksAt t a bs.length = bs := by
  obtain ⟨hread, -⟩ := h
  rw [length_bytesOfBlocks] at hread
  rw [blocksAt, hread, blocksOf_bytesOfBlocks]

/-- A transform of blocks on input data of whole blocks. -/
theorem onBlocks_srcData (f : List Block → List Block × Block) {s : State}
    (h : s.dataLen % 16 = 0) : onBlocks f s.srcData =
      (bytesOfBlocks (f (blocksAt s s.srcAddr (s.dataLen / 16))).1,
        (f (blocksAt s s.srcAddr (s.dataLen / 16))).2) := by
  rw [onBlocks, length_srcData, State.srcData, blocksAt,
    Nat.mul_div_cancel' (Nat.dvd_of_mod_eq_zero h)]

/-! #### The chaining of blocks (R186, R187) -/

section
variable (ctx : CipherCtx) (prev : Block)

/-- Each ciphertext block encrypts its plaintext block combined with the block of the chain,
which is the chain of the ciphertext (R186). -/
theorem getD_cbcEncryptBlocks {ps : List Block} {j : Nat} (hj : j < ps.length) :
    (cbcEncryptBlocks ctx prev ps).1.getD j Block.zero =
      aesE ctx ((ps.getD j Block.zero).xor
        ((prev :: (cbcEncryptBlocks ctx prev ps).1).getD j Block.zero)) := by
  induction ps generalizing prev j with
  | nil => exact absurd hj (Nat.not_lt_zero j)
  | cons p ps ih =>
    cases j with
    | zero => exact congrArg (aesE ctx) (Block.xor_comm prev p)
    | succ j => exact ih _ (Nat.lt_of_succ_lt_succ hj)

/-- The last chaining value of an encryption is its last output block (R186). -/
theorem cbcEncryptBlocks_prev (ps : List Block) :
    (cbcEncryptBlocks ctx prev ps).2 =
      (prev :: (cbcEncryptBlocks ctx prev ps).1).getD ps.length Block.zero := by
  induction ps generalizing prev with
  | nil => rfl
  | cons p ps ih => exact ih _

/-- Each plaintext block is the decrypted ciphertext block combined with the block of the
chain, which is the chain of the ciphertext (R187). -/
theorem getD_cbcDecryptBlocks {cs : List Block} {j : Nat} (hj : j < cs.length) :
    (cbcDecryptBlocks ctx prev cs).1.getD j Block.zero =
      (aesD ctx (cs.getD j Block.zero)).xor ((prev :: cs).getD j Block.zero) := by
  induction cs generalizing prev j with
  | nil => exact absurd hj (Nat.not_lt_zero j)
  | cons c cs ih =>
    cases j with
    | zero => rfl
    | succ j => exact ih _ (Nat.lt_of_succ_lt_succ hj)

/-- The last chaining value of a decryption is its last input block (R187). -/
theorem cbcDecryptBlocks_prev (cs : List Block) :
    (cbcDecryptBlocks ctx prev cs).2 = (prev :: cs).getD cs.length Block.zero := by
  induction cs generalizing prev with
  | nil => rfl
  | cons c cs ih => exact ih _

end

/-- Block `j` of the chain whose blocks stand at `a`. -/
theorem getD_chain_blocksAt (prev : Block) (s : State) (a : Nat) {k j : Nat} (hj : j ≤ k) :
    (prev :: blocksAt s a k).getD j Block.zero =
      if j = 0 then prev else blockAt s a (j - 1) := by
  cases j with
  | zero => rfl
  | succ j => exact getD_blocksAt s a hj

/-! #### A CBC transform of the input, stored at `x[DST]` (R182 to R185) -/

/-- The blocks a transform of whole blocks leaves at `x[DST]`. -/
theorem blocksAt_of_stores_onBlocks {f : List Block → List Block × Block} {s t : State}
    (hlen : ∀ bs, (f bs).1.length = bs.length) (hdiv : s.dataLen % 16 = 0)
    (hst : Stores s t s.dstAddr (onBlocks f s.srcData).1) :
    blocksAt t s.dstAddr (s.dataLen / 16) = (f (blocksAt s s.srcAddr (s.dataLen / 16))).1 := by
  rw [onBlocks_srcData f hdiv] at hst
  have hout := blocksAt_of_stores hst
  rwa [hlen, length_blocksAt] at hout

section
variable {s t : State} {ctx : CipherCtx} {prev : Block} (hdiv : s.dataLen % 16 = 0)
include hdiv

/-- The chaining value after the data of a command, when its chain stands at `a`. -/
theorem getD_chain_end (u : State) (a : Nat) :
    (prev :: blocksAt u a (s.dataLen / 16)).getD (s.dataLen / 16) Block.zero =
      if s.dataLen = 0 then prev else blockAt u a (s.dataLen / 16 - 1) := by
  have hzero : s.dataLen / 16 = 0 ↔ s.dataLen = 0 := by omega
  rw [getD_chain_blocksAt _ _ _ le_rfl, if_congr hzero rfl rfl]

/-- An encryption stored at `x[DST]`, block by block: the chain is the output. -/
theorem blockAt_of_stores_cbcEncrypt
    (hst : Stores s t s.dstAddr (cbcEncrypt ctx prev s.srcData).1) {j : Nat}
    (hj : j < s.dataLen / 16) : blockAt t s.dstAddr j =
      aesE ctx ((blockAt s s.srcAddr j).xor
        (if j = 0 then prev else blockAt t s.dstAddr (j - 1))) := by
  have hout := blocksAt_of_stores_onBlocks (cbcEncryptBlocks_length ctx prev) hdiv hst
  rw [← getD_blocksAt t _ hj, hout, getD_cbcEncryptBlocks _ _ (by rwa [length_blocksAt]), ← hout,
    getD_blocksAt s _ hj, getD_chain_blocksAt _ _ _ hj.le]

/-- The chaining value an encryption stored at `x[DST]` leaves. -/
theorem cbcEncrypt_prev_of_stores (hst : Stores s t s.dstAddr (cbcEncrypt ctx prev s.srcData).1) :
    (cbcEncrypt ctx prev s.srcData).2 =
      if s.dataLen = 0 then prev else blockAt t s.dstAddr (s.dataLen / 16 - 1) := by
  have hout := blocksAt_of_stores_onBlocks (cbcEncryptBlocks_length ctx prev) hdiv hst
  rw [cbcEncrypt, onBlocks_srcData _ hdiv, cbcEncryptBlocks_prev, ← hout, length_blocksAt,
    getD_chain_end hdiv]

/-- A decryption stored at `x[DST]`, block by block: the chain is the input. -/
theorem blockAt_of_stores_cbcDecrypt
    (hst : Stores s t s.dstAddr (cbcDecrypt ctx prev s.srcData).1) {j : Nat}
    (hj : j < s.dataLen / 16) : blockAt t s.dstAddr j =
      (aesD ctx (blockAt s s.srcAddr j)).xor
        (if j = 0 then prev else blockAt s s.srcAddr (j - 1)) := by
  have hout := blocksAt_of_stores_onBlocks (cbcDecryptBlocks_length ctx prev) hdiv hst
  rw [← getD_blocksAt t _ hj, hout, getD_cbcDecryptBlocks _ _ (by rwa [length_blocksAt]),
    getD_blocksAt s _ hj, getD_chain_blocksAt _ _ _ hj.le]

/-- The chaining value a decryption leaves. -/
theorem cbcDecrypt_prev : (cbcDecrypt ctx prev s.srcData).2 =
    if s.dataLen = 0 then prev else blockAt s s.srcAddr (s.dataLen / 16 - 1) := by
  rw [cbcDecrypt, onBlocks_srcData _ hdiv, cbcDecryptBlocks_prev, length_blocksAt,
    getD_chain_end hdiv]

end

/-! #### The four CBC transforms: checks in order, then the effect (R182 to R185) -/

/-- The rule that the CBC transforms share: `P` is the check of the context or of the key size, with
error `e`, and `A` the admission of the ranges; `Q` is what the command does when it succeeds. -/
theorem cbcTransform_rule {s : State} {i : Instr} {P A : Prop} [Decidable P] [Decidable A]
    {e : ResultCode} {Q : State → Prop}
    (hfirst : firstFailure (checksOf s i) =
      if P then
        if s.dataLen % 16 = 0 then
          if A then if AliasOk s.srcAddr s.dstAddr s.dataLen then none else some .overlapFault
          else some .accessFault
        else some .sizeNotBlockAligned
      else some e)
    (hQ : P → s.dataLen % 16 = 0 → firstFailure (checksOf s i) = none → Q (successOf s i)) :
    (¬ P → exec i s = .next (s.setResult e)) ∧
    (P → s.dataLen % 16 ≠ 0 → exec i s = .next (s.setResult .sizeNotBlockAligned)) ∧
    (P → s.dataLen % 16 = 0 → ¬ A → exec i s = .next (s.setResult .accessFault)) ∧
    (P → s.dataLen % 16 = 0 → A → ¬ AliasOk s.srcAddr s.dstAddr s.dataLen →
      exec i s = .next (s.setResult .overlapFault)) ∧
    (P → s.dataLen % 16 = 0 → A → AliasOk s.srcAddr s.dstAddr s.dataLen →
      ∃ t, exec i s = .next t ∧ Q t) := by
  refine ⟨fun hp => ?_, fun hp hdiv => ?_, fun hp hdiv hadm => ?_, fun hp hdiv hadm halias => ?_,
    fun hp hdiv hadm halias => ?_⟩
  · exact exec_of_check_fails (by rw [hfirst, if_neg hp])
  · exact exec_of_check_fails (by rw [hfirst, if_pos hp, if_neg hdiv])
  · exact exec_of_check_fails (by rw [hfirst, if_pos hp, if_pos hdiv, if_neg hadm])
  · exact exec_of_check_fails
      (by rw [hfirst, if_pos hp, if_pos hdiv, if_pos hadm, if_neg halias])
  · have hpass : firstFailure (checksOf s i) = none := by
      rw [hfirst, if_pos hp, if_pos hdiv, if_pos hadm, if_pos halias]
    exact ⟨_, exec_of_checks_pass hpass, hQ hp hdiv hpass⟩

/-- The rule of the two streaming transforms. -/
theorem cbcStream_rule {s : State} {i : Instr} {Q : State → Prop}
    (hchecks : checksOf s i = cbcChecks s)
    (hQ : s.cbc.valid = true → s.dataLen % 16 = 0 → firstFailure (checksOf s i) = none →
      Q (successOf s i)) :
    (s.cbc.valid = false → exec i s = .next (s.setResult .noContext)) ∧
    (s.cbc.valid = true → s.dataLen % 16 ≠ 0 →
      exec i s = .next (s.setResult .sizeNotBlockAligned)) ∧
    (s.cbc.valid = true → s.dataLen % 16 = 0 →
      ¬ (Admitted s s.srcAddr s.dataLen ∧ Admitted s s.dstAddr s.dataLen) →
      exec i s = .next (s.setResult .accessFault)) ∧
    (s.cbc.valid = true → s.dataLen % 16 = 0 → Admitted s s.srcAddr s.dataLen →
      Admitted s s.dstAddr s.dataLen → ¬ AliasOk s.srcAddr s.dstAddr s.dataLen →
      exec i s = .next (s.setResult .overlapFault)) ∧
    (s.cbc.valid = true → s.dataLen % 16 = 0 → Admitted s s.srcAddr s.dataLen →
      Admitted s s.dstAddr s.dataLen → AliasOk s.srcAddr s.dstAddr s.dataLen →
      ∃ t, exec i s = .next t ∧ Q t) := by
  have haccess : (accessCheck s [srcRange s s.dataLen, dstRange s s.dataLen]).passes = true ↔
      Admitted s s.srcAddr s.dataLen ∧ Admitted s s.dstAddr s.dataLen := by
    rw [accessCheck_passes, List.forall_mem_cons, List.forall_mem_singleton]; rfl
  obtain ⟨hinvalid, hsize, hrefused, hoverlap, hsuccess⟩ :=
    cbcTransform_rule (i := i) (e := .noContext) (by
      rw [hchecks, cbcChecks, firstFailure_cons_of_iff Iff.rfl,
        firstFailure_cons_of_iff (alignCheck_passes s), firstFailure_cons_of_iff haccess,
        firstFailure_cons_of_iff (overlapCheck_passes_iff _ _ _)]; rfl) hQ
  exact ⟨fun hv => hinvalid (ne_true_of_eq_false hv), hsize, hrefused,
    fun hv hdiv hsrc hdst => hoverlap hv hdiv ⟨hsrc, hdst⟩,
    fun hv hdiv hsrc hdst => hsuccess hv hdiv ⟨hsrc, hdst⟩⟩

/-- The rule of the two one-shot transforms. -/
theorem cbcOneShot_rule {s : State} {i : Instr} {k : Nat} {Q : State → Prop}
    (hchecks : checksOf s i = cbcOneShotChecks k s)
    (hQ : LegalKeySize k → s.dataLen % 16 = 0 → firstFailure (checksOf s i) = none →
      Q (successOf s i)) :
    (¬ LegalKeySize k → exec i s = .next (s.setResult .invalidKeySize)) ∧
    (LegalKeySize k → s.dataLen % 16 ≠ 0 →
      exec i s = .next (s.setResult .sizeNotBlockAligned)) ∧
    (LegalKeySize k → s.dataLen % 16 = 0 →
      ¬ (Admitted s s.keyAddr k ∧ Admitted s s.ivAddr 16 ∧ Admitted s s.srcAddr s.dataLen ∧
        Admitted s s.dstAddr s.dataLen) →
      exec i s = .next (s.setResult .accessFault)) ∧
    (LegalKeySize k → s.dataLen % 16 = 0 → Admitted s s.keyAddr k → Admitted s s.ivAddr 16 →
      Admitted s s.srcAddr s.dataLen → Admitted s s.dstAddr s.dataLen →
      ¬ AliasOk s.srcAddr s.dstAddr s.dataLen →
      exec i s = .next (s.setResult .overlapFault)) ∧
    (LegalKeySize k → s.dataLen % 16 = 0 → Admitted s s.keyAddr k → Admitted s s.ivAddr 16 →
      Admitted s s.srcAddr s.dataLen → Admitted s s.dstAddr s.dataLen →
      AliasOk s.srcAddr s.dstAddr s.dataLen →
      ∃ t, exec i s = .next t ∧ Q t) := by
  have haccess : (accessCheck s [keyRange s k, ivRange s Config.blockBytes, srcRange s s.dataLen,
        dstRange s s.dataLen]).passes = true ↔
      Admitted s s.keyAddr k ∧ Admitted s s.ivAddr 16 ∧ Admitted s s.srcAddr s.dataLen ∧
        Admitted s s.dstAddr s.dataLen := by
    rw [accessCheck_passes, List.forall_mem_cons, List.forall_mem_cons, List.forall_mem_cons,
      List.forall_mem_singleton]; rfl
  obtain ⟨hkey, hsize, hrefused, hoverlap, hsuccess⟩ :=
    cbcTransform_rule (i := i) (e := .invalidKeySize) (by
      rw [hchecks, cbcOneShotChecks, firstFailure_cons_of_iff (keySizeCheck_passes k),
        firstFailure_cons_of_iff (alignCheck_passes s), firstFailure_cons_of_iff haccess,
        firstFailure_cons_of_iff (overlapCheck_passes_iff _ _ _)]; rfl) hQ
  exact ⟨hkey, hsize, hrefused,
    fun hk hdiv ha hb hc hd => hoverlap hk hdiv ⟨ha, hb, hc, hd⟩,
    fun hk hdiv ha hb hc hd => hsuccess hk hdiv ⟨ha, hb, hc, hd⟩⟩

/-- A streaming transform stores its output and sets the chaining value of the CBC slot; every other
field stays as it is. -/
theorem successOf_cbcStream_frame {s : State} {i : Instr} (hi : i = .cbcEncrypt ∨ i = .cbcDecrypt)
    (hv : s.cbc.valid = true) : successOf s i =
      ((s.setMem (successOf s i).mem).setCbc
        ⟨true, s.cbc.ctx, (successOf s i).cbc.prev⟩).setResult .ok := by
  rw [← hv]
  obtain rfl | rfl := hi <;> rfl

/-- Settles O32: the rule of a streaming transform; the output stored is the encryption under the
slot's context and chaining value. -/
theorem cbcEncryptRule : Obligations.CbcEncryptRule := by
  unfold Obligations.CbcEncryptRule
  refine ⟨rfl, fun s => cbcStream_rule (i := .cbcEncrypt) rfl fun hv hdiv hf => ?_⟩
  have hst := stores_successOf s .cbcEncrypt
  exact ⟨fun j hj => blockAt_of_stores_cbcEncrypt hdiv hst hj, sameOutside_successOf hf rfl,
    cbcEncrypt_prev_of_stores hdiv hst, successOf_cbcStream_frame (.inl rfl) hv⟩

/-- Settles O33: the rule of a streaming transform; the output stored is the decryption under the
slot's context and chaining value. -/
theorem cbcDecryptRule : Obligations.CbcDecryptRule := by
  unfold Obligations.CbcDecryptRule
  refine ⟨rfl, fun s => cbcStream_rule (i := .cbcDecrypt) rfl fun hv hdiv hf => ?_⟩
  have hst := stores_successOf s .cbcDecrypt
  exact ⟨fun j hj => blockAt_of_stores_cbcDecrypt hdiv hst hj, sameOutside_successOf hf rfl,
    cbcDecrypt_prev hdiv, successOf_cbcStream_frame (.inr rfl) hv⟩

/-- Settles O34: the rule of a one-shot; the output stored is the encryption under the key and
the IV that the memory held before. -/
theorem cbcEncryptWithKeyRule : Obligations.CbcEncryptWithKeyRule := by
  unfold Obligations.CbcEncryptWithKeyRule
  refine ⟨rfl, rfl, rfl, fun k s =>
    cbcOneShot_rule (i := .cbcEncryptWithKey k) rfl fun _ hdiv hf => ?_⟩
  have hst := stores_successOf s (.cbcEncryptWithKey k)
  exact ⟨fun j hj => blockAt_of_stores_cbcEncrypt hdiv hst hj, sameOutside_successOf hf rfl, rfl⟩

/-- Settles O35: the rule of a one-shot; the output stored is the decryption under the key and
the IV that the memory held before. -/
theorem cbcDecryptWithKeyRule : Obligations.CbcDecryptWithKeyRule := by
  unfold Obligations.CbcDecryptWithKeyRule
  refine ⟨rfl, rfl, rfl, fun k s =>
    cbcOneShot_rule (i := .cbcDecryptWithKey k) rfl fun _ hdiv hf => ?_⟩
  have hst := stores_successOf s (.cbcDecryptWithKey k)
  exact ⟨fun j hj => blockAt_of_stores_cbcDecrypt hdiv hst hj, sameOutside_successOf hf rfl, rfl⟩

end Sys2Proof.Proofs

/-! ### The laws of the CBC functions, and one-shots that undo each other (R188, R210, R227) -/

namespace Sys2Proof.Proofs

open Sys2Proof.Machine Sys2Proof.Safety

/-! #### Data in two parts, and the round trip (R188) -/

/-- A transform of blocks with a chaining value gives on two parts of the data, one after the other,
what it gives on the whole. -/
def Streams (f : Block → List Block → List Block × Block) : Prop :=
  ∀ prev bs bs', f prev (bs ++ bs') =
    ((f prev bs).1 ++ (f (f prev bs).2 bs').1, (f (f prev bs).2 bs').2)

theorem streams_cbcEncryptBlocks (ctx : CipherCtx) : Streams (cbcEncryptBlocks ctx) := by
  intro prev bs bs'
  induction bs generalizing prev with
  | nil => rfl
  | cons b bs ih => simp only [List.cons_append, cbcEncryptBlocks, ih]

theorem streams_cbcDecryptBlocks (ctx : CipherCtx) : Streams (cbcDecryptBlocks ctx) := by
  intro prev bs bs'
  induction bs generalizing prev with
  | nil => rfl
  | cons b bs ih => simp only [List.cons_append, cbcDecryptBlocks, ih]

/-- On buffers of whole blocks, a streaming transform of blocks streams bytes. -/
theorem onBlocks_append {f : Block → List Block → List Block × Block} (hf : Streams f)
    (prev : Block) {d₁ d₂ : List Byte} (h₁ : d₁.length % 16 = 0) :
    onBlocks (f prev) (d₁ ++ d₂) =
      ((onBlocks (f prev) d₁).1 ++ (onBlocks (f (onBlocks (f prev) d₁).2) d₂).1,
        (onBlocks (f (onBlocks (f prev) d₁).2) d₂).2) := by
  have hcount : (d₁ ++ d₂).length / 16 = d₁.length / 16 + d₂.length / 16 := by
    rw [List.length_append]; omega
  have hblocks := blocksOf_append (k₁ := d₁.length / 16) (d₂.length / 16) d₂
    (Nat.mul_div_cancel' (Nat.dvd_of_mod_eq_zero h₁)).symm
  simp only [onBlocks, hcount, hblocks, hf prev, bytesOfBlocks_append]

/-- Under an expanded context `D` undoes `E`, and the same chain is combined in and out. -/
theorem cbcDecryptBlocks_cbcEncryptBlocks {ctx : CipherCtx} (hctx : Expanded ctx) (iv : Block)
    (ps : List Block) : (cbcDecryptBlocks ctx iv (cbcEncryptBlocks ctx iv ps).1).1 = ps := by
  induction ps generalizing iv with
  | nil => rfl
  | cons p ps ih =>
    obtain ⟨-, hinverse, -⟩ := decryptionInvertsEncryption ctx (iv.xor p) hctx
    have hfirst : (aesD ctx (aesE ctx (iv.xor p))).xor iv = p := by
      rw [hinverse, Block.xor_comm iv p, Block.xor_xor_cancel]
    simp only [cbcEncryptBlocks, cbcDecryptBlocks, ih, hfirst]

theorem cbcDecrypt_cbcEncrypt {ctx : CipherCtx} (hctx : Expanded ctx) (iv : Block) {p : List Byte}
    (hp : p.length % 16 = 0) : (cbcDecrypt ctx iv (cbcEncrypt ctx iv p).1).1 = p := by
  have hblocks : blocksOf ((cbcEncrypt ctx iv p).1.length / 16) (cbcEncrypt ctx iv p).1 =
      (cbcEncryptBlocks ctx iv (blocksOf (p.length / 16) p)).1 := by
    rw [cbcEncrypt, onBlocks, length_bytesOfBlocks, Nat.mul_div_cancel_left _ (by omega),
      blocksOf_bytesOfBlocks]
  rw [cbcDecrypt, onBlocks, hblocks, cbcDecryptBlocks_cbcEncryptBlocks hctx]
  exact bytesOfBlocks_blocksOf _ p (by omega)

/-- Settles O56: both directions stream block by block, and decryption undoes encryption block by
block. -/
theorem cbcLaws : Obligations.CbcLaws := by
  unfold Obligations.CbcLaws
  exact ⟨fun ctx prev d₁ d₂ h₁ _ => ⟨onBlocks_append (streams_cbcEncryptBlocks ctx) prev h₁,
      onBlocks_append (streams_cbcDecryptBlocks ctx) prev h₁⟩,
    fun ctx iv p hctx hp => cbcDecrypt_cbcEncrypt hctx iv hp⟩

/-! #### One-shots that undo each other, in place (R185, R205, R224) -/

/-- The keystream of a CTR transform does not depend on the data: twice, it is gone (R210). -/
theorem ctrXor_ctrXor (c : CtrSlot) (d : List Byte) : (ctrXor c (ctrXor c d).1).1 = d := by
  induction d generalizing c with
  | nil => rfl
  | cons b d ih => simp only [ctrXor, ih, BitVec.xor_assoc, BitVec.xor_self, BitVec.xor_zero]

/-- The keystream of an OFB transform does not depend on the data: twice, it is gone (R227). -/
theorem ofbXor_ofbXor (o : OfbSlot) (d : List Byte) : (ofbXor o (ofbXor o d).1).1 = d := by
  induction d generalizing o with
  | nil => rfl
  | cons b d ih => simp only [ofbXor, ih, BitVec.xor_assoc, BitVec.xor_self, BitVec.xor_zero]

/-- A range disjoint from the bytes that may have changed reads as before. -/
theorem memRead_of_sameOutside {s t : State} {a n b m : Nat} (h : SameOutside s t a n)
    (hdisjoint : b + m ≤ a ∨ a + n ≤ b) : t.memRead b m = s.memRead b m :=
  Memory.readBytes_congr fun x hlo hhi => h x (by omega)

section
variable {s : State} {forth : Instr} (hf : firstFailure (checksOf s forth) = none)
  (hn : outputSize s forth = some s.dataLen)
include hf hn

/-- In place, the data of the next command is the output of this one. -/
theorem srcData_successOf (hplace : s.srcAddr = s.dstAddr) :
    (successOf s forth).srcData = outputOf s forth := by
  obtain ⟨hread, -⟩ := stores_successOf s forth
  rw [outputOf_length_of_outputSize hf hn, ← hplace] at hread
  exact hread

theorem keyBytes_successOf {k : Nat}
    (hkey : s.keyAddr + k ≤ s.dstAddr ∨ s.dstAddr + s.dataLen ≤ s.keyAddr) :
    (successOf s forth).keyBytes k = s.keyBytes k :=
  memRead_of_sameOutside (sameOutside_successOf hf hn) hkey

theorem ivBlock_successOf
    (hiv : s.ivAddr + 16 ≤ s.dstAddr ∨ s.dstAddr + s.dataLen ≤ s.ivAddr) :
    (successOf s forth).ivBlock = s.ivBlock :=
  congrArg Block.ofList (memRead_of_sameOutside (sameOutside_successOf hf hn) hiv)

theorem nonce_successOf
    (hiv : s.ivAddr + 8 ≤ s.dstAddr ∨ s.dstAddr + s.dataLen ≤ s.ivAddr) :
    (successOf s forth).nonce = s.nonce :=
  congrArg Block8.ofList (memRead_of_sameOutside (sameOutside_successOf hf hn) hiv)

/-- A command run after another with the same checks, in place, that writes the data there was
before the first, restores every byte. -/
theorem restores_of_outputOf {back : Instr} (hplace : s.srcAddr = s.dstAddr)
    (hchecks : checksOf (successOf s forth) back = checksOf s forth)
    (hsize : outputSize (successOf s forth) back = some s.dataLen)
    (hdata : outputOf (successOf s forth) back = s.srcData) :
    ∃ u, exec back (successOf s forth) = .next u ∧ u.result = .ok ∧
      ∀ x, byteAt u x = byteAt s x := by
  have hpass : firstFailure (checksOf (successOf s forth) back) = none := hchecks ▸ hf
  refine ⟨_, exec_of_checks_pass hpass, rfl, fun x => ?_⟩
  by_cases hx : s.dstAddr ≤ x ∧ x < s.dstAddr + s.dataLen
  · obtain ⟨j, rfl⟩ := Nat.exists_eq_add_of_le hx.1
    have hj : j < s.dataLen := by omega
    calc byteAt (successOf (successOf s forth) back) (s.dstAddr + j)
        = (outputOf (successOf s forth) back).getD j 0 := byteAt_successOf hpass hsize hj
      _ = byteAt s (s.dstAddr + j) := by rw [hdata, getD_srcData hj, hplace]
  · exact (sameOutside_successOf hpass hsize x hx).trans (sameOutside_successOf hf hn x hx)

end

/-- Settles O60: the second command reads the same key and IV and the output of the first, which its
transform undoes. -/
theorem oneShotsRestoreTheBuffer : Obligations.OneShotsRestoreTheBuffer := by
  unfold Obligations.OneShotsRestoreTheBuffer
  intro k ivSize s t forth back hmem hplace hkey hiv hexec hok
  obtain ⟨hf, rfl⟩ := exec_ok hexec hok
  simp only [List.mem_cons, Prod.mk.injEq, List.not_mem_nil, or_false] at hmem
  obtain ⟨rfl, rfl, rfl⟩ | ⟨rfl, rfl, rfl⟩ | ⟨rfl, rfl, rfl⟩ := hmem
  · refine restores_of_outputOf hf rfl hplace rfl rfl ?_
    have hdiv : s.dataLen % 16 = 0 :=
      (alignCheck_passes s).1 (firstFailure_eq_none.1 hf _ (.tail _ (.head _)))
    rw [outputOf, keyBytes_successOf hf rfl hkey, ivBlock_successOf hf rfl hiv,
      srcData_successOf hf rfl hplace]
    exact cbcDecrypt_cbcEncrypt (expanded_keyBytes s (ksz_legal hf rfl)) _
      (by rwa [length_srcData])
  · refine restores_of_outputOf hf rfl hplace rfl rfl ?_
    rw [outputOf, keyBytes_successOf hf rfl hkey, nonce_successOf hf rfl hiv,
      srcData_successOf hf rfl hplace]
    exact ctrXor_ctrXor _ _
  · refine restores_of_outputOf hf rfl hplace rfl rfl ?_
    rw [outputOf, keyBytes_successOf hf rfl hkey, ivBlock_successOf hf rfl hiv,
      srcData_successOf hf rfl hplace]
    exact ofbXor_ofbXor _ _

end Sys2Proof.Proofs

/-! ### The CTR functions and their laws (R206 to R210) -/

namespace Sys2Proof.Proofs

open Sys2Proof.Machine Sys2Proof.Safety

/-! #### The counter block (R206) -/

/-- The first half of a block made of two 8-byte sequences. -/
theorem byte_append (a b : Block8) {i : Nat} (hi : i < 8) :
    (a.append b).byte i = a.toList.getD i 0 := by
  interval_cases i <;> rfl

/-- The second half of a block made of two 8-byte sequences. -/
theorem byte_append_add (a b : Block8) {i : Nat} (hi : i < 8) :
    (a.append b).byte (8 + i) = b.toList.getD i 0 := by
  interval_cases i <;> rfl

theorem getD_toList_be64 (v : Word64) {i : Nat} (hi : i < 8) :
    (be64 v).toList.getD i 0 = be64Byte v i := by
  interval_cases i <;> rfl

theorem toNat_be64Byte (v : Word64) (i : Nat) :
    (be64Byte v i).toNat = v.toNat / 2 ^ (8 * (7 - i)) % 256 :=
  BitVec.toNat_ofNat _ _

theorem getD_toList_ofList (l : List Byte) {i : Nat} (hi : i < 8) :
    (Block8.ofList l).toList.getD i 0 = l.getD i 0 := by
  interval_cases i <;> simp [Block8.ofList, Block8.toList, Col.ofList, Col.toList]

/-- The block index of a stream position is a value of 64 bits (R206). -/
theorem toNat_ofNat_div (p : Word64) : (BitVec.ofNat 64 (p.toNat / 16)).toNat = p.toNat / 16 := by
  rw [BitVec.toNat_ofNat, Nat.mod_eq_of_lt (by omega)]

/-- `KB` of block `p div 16` is the encryption of the nonce and then the bytes of the index (R206). -/
theorem ctrKs_eq_counterBytes (ctx : CipherCtx) (iv : Block8) (p : Word64) :
    ctrKs ctx iv p = (aesE ctx (Block.ofList (iv.toList ++ (List.range 8).map fun i =>
      BitVec.ofNat 8 (p.toNat / 16 / 2 ^ (8 * (7 - i)))))).byte (p.toNat % 16) := by
  have hblock : iv.append (be64 (BitVec.ofNat 64 (p.toNat / 16))) =
      Block.ofList (iv.toList ++ (List.range 8).map (be64Byte (BitVec.ofNat 64 (p.toNat / 16)))) :=
    rfl
  unfold be64Byte at hblock
  rw [toNat_ofNat_div] at hblock
  rw [ctrKs, hblock]

/-! #### A slot that meets R36 -/

theorem blockIndex_eq_ofNat (idx : Word64) : blockIndex idx = BitVec.ofNat 64 (idx.toNat / 16) :=
  BitVec.eq_of_toNat_eq (by rw [blockIndex_toNat, toNat_ofNat_div])

/-- The cached byte under the stream index is the keystream byte of that position (R36, R206). -/
theorem byte_of_ctrCached {c : CtrSlot} (h : CtrCached c) :
    c.ks.byte (c.sidx.toNat % 16) = ctrKs c.ctx c.iv c.sidx := by
  obtain ⟨hbidx, hks⟩ := h
  rw [hks, ctrKs, ← hbidx, BitVec.ofNat_toNat, BitVec.setWidth_eq]

/-- A seek from a cached slot leaves the same fields whether or not it makes the block again (R207). -/
theorem ctrSeek_of_ctrCached {c : CtrSlot} (h : CtrCached c) (idx : Word64) :
    ctrSeek c idx = ⟨c.valid, c.ctx, c.iv, idx, BitVec.ofNat 64 (idx.toNat / 16),
      aesE c.ctx (c.iv.append (be64 (BitVec.ofNat 64 (idx.toNat / 16))))⟩ := by
  obtain ⟨-, hks⟩ := ctrCached_ctrSeek h idx
  rw [ctrSeek_ctx, ctrSeek_iv, ctrSeek_bidx, blockIndex_eq_ofNat] at hks
  calc ctrSeek c idx
      = ⟨(ctrSeek c idx).valid, (ctrSeek c idx).ctx, (ctrSeek c idx).iv, (ctrSeek c idx).sidx,
          (ctrSeek c idx).bidx, (ctrSeek c idx).ks⟩ := rfl
    _ = _ := by
      rw [hks, ctrSeek_valid, ctrSeek_ctx, ctrSeek_iv, ctrSeek_sidx, ctrSeek_bidx,
        blockIndex_eq_ofNat]

/-! #### The transform (R208, R209) -/

theorem add_one_add_ofNat (p : Word64) (n : Nat) :
    p + 1 + BitVec.ofNat 64 n = p + BitVec.ofNat 64 (n + 1) := by
  rw [BitVec.add_assoc, Nat.add_comm n 1, BitVec.ofNat_add]
  rfl

/-- A transform moves the stream on by the length of its data, modulo `2^64` (R208, R209). -/
theorem ctrXor_sidx (c : CtrSlot) (d : List Byte) :
    (ctrXor c d).2.sidx = c.sidx + BitVec.ofNat 64 d.length := by
  induction d generalizing c with
  | nil => exact (BitVec.add_zero _).symm
  | cons b d ih =>
    rw [ctrXor, ih, ctrSeek_sidx, List.length_cons, add_one_add_ofNat]

/-- From a cached slot, output byte `i` is data byte `i` with the keystream byte of position
`SIDX + i` (R208). -/
theorem getD_ctrXor {c : CtrSlot} (h : CtrCached c) {d : List Byte} {i : Nat} (hi : i < d.length) :
    (ctrXor c d).1.getD i 0 = d.getD i 0 ^^^ ctrKs c.ctx c.iv (c.sidx + BitVec.ofNat 64 i) := by
  induction d generalizing c i with
  | nil => exact absurd hi (Nat.not_lt_zero i)
  | cons b d ih =>
    rw [ctrXor]
    cases i with
    | zero =>
      rw [List.getD_cons_zero, List.getD_cons_zero, byte_of_ctrCached h]
      exact congrArg (b ^^^ ctrKs c.ctx c.iv ·) (BitVec.add_zero c.sidx).symm
    | succ i =>
      rw [List.getD_cons_succ, List.getD_cons_succ,
        ih (ctrCached_ctrSeek h _) (Nat.lt_of_succ_lt_succ hi), ctrSeek_ctx, ctrSeek_iv,
        ctrSeek_sidx, add_one_add_ofNat]

/-- A transform of data in two parts is the transform of the first, and then of the second (R210). -/
theorem ctrXor_append (c : CtrSlot) (d₁ d₂ : List Byte) :
    ctrXor c (d₁ ++ d₂) =
      ((ctrXor c d₁).1 ++ (ctrXor (ctrXor c d₁).2 d₂).1, (ctrXor (ctrXor c d₁).2 d₂).2) := by
  induction d₁ generalizing c with
  | nil => rfl
  | cons b d₁ ih => simp only [List.cons_append, ctrXor, ih]

/-- Settles O57: the counter block by its two halves; the keystream of a transform is one byte per data
byte, so that it cancels and streams; and a seek leaves a cached slot at `k`. -/
theorem ctrLaws : Obligations.CtrLaws := by
  unfold Obligations.CtrLaws
  refine ⟨fun iv j i hi => ⟨byte_append _ _ hi, ?_⟩, fun l i => getD_toList_ofList l,
    ctrKs_eq_counterBytes, ctrXor_ctrXor, ctrXor_append, fun c k d hc i hi => ?_⟩
  · rw [byte_append_add _ _ hi, getD_toList_be64 _ hi, toNat_be64Byte]
  · rw [getD_ctrXor (ctrCached_ctrSeek hc k) hi, ctrSeek_ctx, ctrSeek_iv, ctrSeek_sidx]

end Sys2Proof.Proofs

/-! ### The CTR commands (R200 to R205) -/

namespace Sys2Proof.Proofs

open Sys2Proof.Machine Sys2Proof.Safety

/-! #### The checks of the commands of a stream, in order (R251) -/

/-- The checks that the transforms of a stream share, each error in order, and none when all pass: `P`
is the check of the context or of the key size, with error `e`, and `A` the admission of the ranges. -/
theorem streamTransform_rule {s : State} {i : Instr} {P A : Prop} [Decidable P] [Decidable A]
    {e : ResultCode}
    (hfirst : firstFailure (checksOf s i) =
      if P then
        if A then if AliasOk s.srcAddr s.dstAddr s.dataLen then none else some .overlapFault
        else some .accessFault
      else some e) :
    (¬ P → exec i s = .next (s.setResult e)) ∧
    (P → ¬ A → exec i s = .next (s.setResult .accessFault)) ∧
    (P → A → ¬ AliasOk s.srcAddr s.dstAddr s.dataLen →
      exec i s = .next (s.setResult .overlapFault)) ∧
    (P → A → AliasOk s.srcAddr s.dstAddr s.dataLen → firstFailure (checksOf s i) = none) := by
  refine ⟨fun hp => ?_, fun hp hadm => ?_, fun hp hadm halias => ?_, fun hp hadm halias => ?_⟩
  · exact exec_of_check_fails (by rw [hfirst, if_neg hp])
  · exact exec_of_check_fails (by rw [hfirst, if_pos hp, if_neg hadm])
  · exact exec_of_check_fails (by rw [hfirst, if_pos hp, if_pos hadm, if_neg halias])
  · rw [hfirst, if_pos hp, if_pos hadm, if_pos halias]

section
variable (s : State) {i : Instr}

/-- The checks of a transform in a stream slot, whose valid flag is `valid` (R203, R222). -/
theorem streamXor_rule {valid : Bool}
    (hchecks : checksOf s i = [contextCheck valid,
      accessCheck s [srcRange s s.dataLen, dstRange s s.dataLen],
      overlapCheck s.srcAddr s.dstAddr s.dataLen]) :
    (valid = false → exec i s = .next (s.setResult .noContext)) ∧
    (valid = true → ¬ (Admitted s s.srcAddr s.dataLen ∧ Admitted s s.dstAddr s.dataLen) →
      exec i s = .next (s.setResult .accessFault)) ∧
    (valid = true → Admitted s s.srcAddr s.dataLen → Admitted s s.dstAddr s.dataLen →
      ¬ AliasOk s.srcAddr s.dstAddr s.dataLen → exec i s = .next (s.setResult .overlapFault)) ∧
    (valid = true → Admitted s s.srcAddr s.dataLen → Admitted s s.dstAddr s.dataLen →
      AliasOk s.srcAddr s.dstAddr s.dataLen → firstFailure (checksOf s i) = none) := by
  have haccess : (accessCheck s [srcRange s s.dataLen, dstRange s s.dataLen]).passes = true ↔
      Admitted s s.srcAddr s.dataLen ∧ Admitted s s.dstAddr s.dataLen := by
    rw [accessCheck_passes, List.forall_mem_cons, List.forall_mem_singleton]; rfl
  obtain ⟨hinvalid, hrefused, hoverlap, hpass⟩ :=
    streamTransform_rule (s := s) (i := i) (e := .noContext) (by
      rw [hchecks, firstFailure_cons_of_iff Iff.rfl, firstFailure_cons_of_iff haccess,
        firstFailure_cons_of_iff (overlapCheck_passes_iff _ _ _)]; rfl)
  exact ⟨fun hv => hinvalid (ne_true_of_eq_false hv), hrefused,
    fun hv hsrc hdst => hoverlap hv ⟨hsrc, hdst⟩, fun hv hsrc hdst => hpass hv ⟨hsrc, hdst⟩⟩

/-- The checks of a command that outputs keystream from a slot, whose valid flag is `valid` (R204,
R223). -/
theorem streamOutput_rule {valid : Bool}
    (hchecks : checksOf s i = [contextCheck valid, accessCheck s [dstRange s s.dataLen]]) :
    (valid = false → exec i s = .next (s.setResult .noContext)) ∧
    (valid = true → ¬ Admitted s s.dstAddr s.dataLen →
      exec i s = .next (s.setResult .accessFault)) ∧
    (valid = true → Admitted s s.dstAddr s.dataLen → firstFailure (checksOf s i) = none) := by
  have haccess : (accessCheck s [dstRange s s.dataLen]).passes = true ↔
      Admitted s s.dstAddr s.dataLen := by
    rw [accessCheck_passes, List.forall_mem_singleton]; rfl
  have hfirst : firstFailure (checksOf s i) =
      if valid = true then
        if Admitted s s.dstAddr s.dataLen then none else some .accessFault
      else some .noContext := by
    rw [hchecks, firstFailure_cons_of_iff Iff.rfl, firstFailure_cons_of_iff haccess]; rfl
  refine ⟨fun hv => ?_, fun hv hdst => ?_, fun hv hdst => ?_⟩
  · exact exec_of_check_fails (by rw [hfirst, if_neg (ne_true_of_eq_false hv)])
  · exact exec_of_check_fails (by rw [hfirst, if_pos hv, if_neg hdst])
  · rw [hfirst, if_pos hv, if_pos hdst]

/-- The checks of a one-shot of a stream, with an IV of `n` bytes (R205, R224). -/
theorem streamXorWithKey_rule {k n : Nat}
    (hchecks : checksOf s i = [keySizeCheck k,
      accessCheck s [keyRange s k, ivRange s n, srcRange s s.dataLen, dstRange s s.dataLen],
      overlapCheck s.srcAddr s.dstAddr s.dataLen]) :
    (¬ LegalKeySize k → exec i s = .next (s.setResult .invalidKeySize)) ∧
    (LegalKeySize k →
      ¬ (Admitted s s.keyAddr k ∧ Admitted s s.ivAddr n ∧ Admitted s s.srcAddr s.dataLen ∧
        Admitted s s.dstAddr s.dataLen) →
      exec i s = .next (s.setResult .accessFault)) ∧
    (LegalKeySize k → Admitted s s.keyAddr k → Admitted s s.ivAddr n →
      Admitted s s.srcAddr s.dataLen → Admitted s s.dstAddr s.dataLen →
      ¬ AliasOk s.srcAddr s.dstAddr s.dataLen → exec i s = .next (s.setResult .overlapFault)) ∧
    (LegalKeySize k → Admitted s s.keyAddr k → Admitted s s.ivAddr n →
      Admitted s s.srcAddr s.dataLen → Admitted s s.dstAddr s.dataLen →
      AliasOk s.srcAddr s.dstAddr s.dataLen → firstFailure (checksOf s i) = none) := by
  have haccess : (accessCheck s
        [keyRange s k, ivRange s n, srcRange s s.dataLen, dstRange s s.dataLen]).passes = true ↔
      Admitted s s.keyAddr k ∧ Admitted s s.ivAddr n ∧ Admitted s s.srcAddr s.dataLen ∧
        Admitted s s.dstAddr s.dataLen := by
    rw [accessCheck_passes, List.forall_mem_cons, List.forall_mem_cons, List.forall_mem_cons,
      List.forall_mem_singleton]; rfl
  obtain ⟨hkey, hrefused, hoverlap, hpass⟩ :=
    streamTransform_rule (s := s) (i := i) (e := .invalidKeySize) (by
      rw [hchecks, firstFailure_cons_of_iff (keySizeCheck_passes k),
        firstFailure_cons_of_iff haccess,
        firstFailure_cons_of_iff (overlapCheck_passes_iff _ _ _)]; rfl)
  exact ⟨hkey, hrefused, fun hk ha hb hc hd => hoverlap hk ⟨ha, hb, hc, hd⟩,
    fun hk ha hb hc hd => hpass hk ⟨ha, hb, hc, hd⟩⟩

end

/-! #### The commands that set the CTR slot (R200 to R202) -/

/-- Settles O36: the rule of an init from the AES slot; the effect sets the CTR slot only. -/
theorem ctrInitRule : Obligations.CtrInitRule := by
  unfold Obligations.CtrInitRule
  exact ⟨rfl, fun s => init_rule s (i := .ctrInit) rfl⟩

/-- Settles O37: the rule of an init with key; the effect sets the CTR slot only. -/
theorem ctrInitWithKeyRule : Obligations.CtrInitWithKeyRule := by
  unfold Obligations.CtrInitWithKeyRule
  exact ⟨rfl, rfl, rfl, fun k s => initWithKey_rule s (i := .ctrInitWithKey k) rfl⟩

/-- The one check of `CTR_SET_STREAM_INDEX` (R202). -/
theorem firstFailure_ctrSetStreamIndex (s : State) :
    firstFailure (checksOf s .ctrSetStreamIndex) =
      if s.ctr.valid = true then none else some .noContext :=
  firstFailure_cons_of_iff Iff.rfl

/-- Settles O38: the effect is the seek, which from a cached slot leaves the fields of
`ctrSeek_of_ctrCached`. -/
theorem ctrSetStreamIndexRule : Obligations.CtrSetStreamIndexRule := by
  unfold Obligations.CtrSetStreamIndexRule
  refine ⟨rfl, fun s => ⟨fun hv => ?_, fun hv hc => ?_⟩⟩
  · exact exec_of_check_fails
      (by rw [firstFailure_ctrSetStreamIndex, if_neg (ne_true_of_eq_false hv)])
  · have heffect : successOf s .ctrSetStreamIndex =
        (s.setCtr (ctrSeek s.ctr s.regs.idx)).setResult .ok := rfl
    rw [exec_of_checks_pass (by rw [firstFailure_ctrSetStreamIndex, if_pos hv]), heffect,
      ctrSeek_of_ctrCached hc, hv]

/-! #### The transforms (R203 to R205) -/

/-- The stream position of byte `i`, modulo `2^64` (R203, R209). -/
theorem add_ofNat_eq_ofNat_mod (p : Word64) (i : Nat) :
    p + BitVec.ofNat 64 i = BitVec.ofNat 64 ((p.toNat + i) % 2 ^ 64) := by
  apply BitVec.eq_of_toNat_eq
  simp

section
variable {s : State} {i : Instr} {d : List Byte} (hv : s.ctr.valid = true)
  (hcached : CtrCached s.ctr) (hlen : d.length = s.dataLen)
  (heffect : successOf s i =
    ((s.setMem (successOf s i).mem).setCtr (ctrXor s.ctr d).2).setResult .ok)
include hcached hlen

/-- The bytes of a transform of `x[LEN]` bytes in the slot, each at its position of the stream. -/
theorem getD_ctrXor_slot {j : Nat} (hj : j < s.dataLen) :
    (ctrXor s.ctr d).1.getD j 0 = d.getD j 0 ^^^
      ctrKs s.ctr.ctx s.ctr.iv (BitVec.ofNat 64 ((s.ctr.sidx.toNat + j) % 2 ^ 64)) := by
  rw [getD_ctrXor hcached (by rwa [hlen]), add_ofNat_eq_ofNat_mod]

include hv heffect

/-- A command that leaves the CTR slot after a transform of `x[LEN]` bytes moves the stream on by
`x[LEN]`, keeps R36, and changes no field but the memory, the stream and the result. -/
theorem ctrStream_moves :
    (successOf s i).ctr.sidx.toNat = (s.ctr.sidx.toNat + s.dataLen) % 2 ^ 64 ∧
    CtrCached (successOf s i).ctr ∧
    successOf s i = ((s.setMem (successOf s i).mem).setCtr ⟨true, s.ctr.ctx, s.ctr.iv,
      (successOf s i).ctr.sidx, (successOf s i).ctr.bidx, (successOf s i).ctr.ks⟩).setResult .ok := by
  have hctr : (successOf s i).ctr = (ctrXor s.ctr d).2 := by rw [heffect]; rfl
  obtain ⟨hvalid, hctx, hiv⟩ := ctrXor_keeps s.ctr d
  have hslot : (⟨true, s.ctr.ctx, s.ctr.iv, (ctrXor s.ctr d).2.sidx, (ctrXor s.ctr d).2.bidx,
      (ctrXor s.ctr d).2.ks⟩ : CtrSlot) = (ctrXor s.ctr d).2 := by
    rw [← hv, ← hvalid, ← hctx, ← hiv]
  refine ⟨?_, hctr ▸ ctrCached_ctrXor hcached d, by rw [hctr, hslot]; exact heffect⟩
  rw [hctr, ctrXor_sidx, hlen, add_ofNat_eq_ofNat_mod, BitVec.toNat_ofNat, Nat.mod_mod]

end

/-- Settles O39: the checks in order; on success the output stored is the transform of the input in
the slot. -/
theorem ctrXorRule : Obligations.CtrXorRule := by
  unfold Obligations.CtrXorRule
  refine ⟨rfl, fun s => ?_⟩
  obtain ⟨hinvalid, hrefused, hoverlap, hpass⟩ := streamXor_rule s (i := .ctrXor) rfl
  refine ⟨hinvalid, hrefused, hoverlap, fun hv hc hsrc hdst halias => ?_⟩
  have hf := hpass hv hsrc hdst halias
  refine ⟨_, exec_of_checks_pass hf, fun i hi => ?_, sameOutside_successOf hf rfl,
    ctrStream_moves hv hc (length_srcData s) rfl⟩
  rw [byteAt_successOf hf rfl hi, outputOf, getD_ctrXor_slot hc (length_srcData s) hi,
    getD_srcData hi]

theorem length_zeros (s : State) : (zeros s).length = s.dataLen :=
  List.length_replicate

theorem getD_zeros (s : State) (i : Nat) : (zeros s).getD i 0 = 0 := by
  simp [zeros]

/-- Settles O40: the checks in order; on success the output stored is the transform of zero bytes in
the slot, which is the keystream itself. -/
theorem ctrOutputRule : Obligations.CtrOutputRule := by
  unfold Obligations.CtrOutputRule
  refine ⟨rfl, fun s => ?_⟩
  obtain ⟨hinvalid, hrefused, hpass⟩ := streamOutput_rule s (i := .ctrOutput) rfl
  refine ⟨hinvalid, hrefused, fun hv hc hdst => ?_⟩
  have hf := hpass hv hdst
  refine ⟨_, exec_of_checks_pass hf, fun i hi => ?_, sameOutside_successOf hf rfl,
    ctrStream_moves hv hc (length_zeros s) rfl⟩
  rw [byteAt_successOf hf rfl hi, outputOf, getD_ctrXor_slot hc (length_zeros s) hi, getD_zeros]
  exact BitVec.zero_xor

/-- Byte `i` of the output of `CTR_XOR_WITH_KEY`: the slot made from the key and the IV starts at
position 0 (R205). -/
theorem getD_outputOf_ctrXorWithKey {s : State} {k i : Nat} (hi : i < s.dataLen) :
    (outputOf s (.ctrXorWithKey k)).getD i 0 = byteAt s (s.srcAddr + i) ^^^
      ctrKs (expand (s.keyBytes k)) s.nonce (BitVec.ofNat 64 i) := by
  have hposition : (ctrInitSlot (expand (s.keyBytes k)) s.nonce).sidx + BitVec.ofNat 64 i =
      BitVec.ofNat 64 i := BitVec.zero_add _
  rw [outputOf, getD_ctrXor (ctrCached_ctrInitSlot _ _) (by rwa [length_srcData]), hposition,
    getD_srcData hi]
  rfl

/-- Settles O41: the checks in order; on success the output stored is the transform of the input in a
slot made from the key and the IV that the memory held before. -/
theorem ctrXorWithKeyRule : Obligations.CtrXorWithKeyRule := by
  unfold Obligations.CtrXorWithKeyRule
  refine ⟨rfl, rfl, rfl, fun k s => ?_⟩
  obtain ⟨hkey, hrefused, hoverlap, hpass⟩ := streamXorWithKey_rule s (i := .ctrXorWithKey k) rfl
  refine ⟨hkey, hrefused, hoverlap, fun hk hkeyAdm hiv hsrc hdst halias => ?_⟩
  have hf := hpass hk hkeyAdm hiv hsrc hdst halias
  refine ⟨_, exec_of_checks_pass hf, fun i hi => ?_, sameOutside_successOf hf rfl, rfl⟩
  rw [byteAt_successOf hf rfl hi, getD_outputOf_ctrXorWithKey hi]
  rfl

end Sys2Proof.Proofs

/-! ### The OFB function and its laws (R225 to R227) -/

namespace Sys2Proof.Proofs

open Sys2Proof.Machine Sys2Proof.Safety

/-- With `n` bytes consumed, the byte of `KS` that the transform uses next is the keystream byte of
position `n` (R225, R226). -/
theorem byte_of_consumed {o : OfbSlot} {iv : Block} {n : Nat} (h : OfbConsumed o iv n) :
    (ofbRefill o).ks.byte (ofbRefill o).off.val = ofbKs o.ctx iv n := by
  obtain ⟨hks, hoff⟩ := ofbRefill_of_consumed h
  rw [hks, hoff, ofbKs]

/-- From a slot with `n` bytes consumed, output byte `i` is data byte `i` with the keystream byte of
position `n + i` (R226). -/
theorem getD_ofbXor {o : OfbSlot} {iv : Block} {n : Nat} (h : OfbConsumed o iv n) {d : List Byte}
    {i : Nat} (hi : i < d.length) :
    (ofbXor o d).1.getD i 0 = d.getD i 0 ^^^ ofbKs o.ctx iv (n + i) := by
  induction d generalizing o n i with
  | nil => exact absurd hi (Nat.not_lt_zero i)
  | cons b d ih =>
    rw [ofbXor]
    cases i with
    | zero => rw [List.getD_cons_zero, List.getD_cons_zero, byte_of_consumed h, Nat.add_zero]
    | succ i =>
      have hctx : (ofbAdvance (ofbRefill o)).ctx = o.ctx := ofbRefill_ctx o
      rw [List.getD_cons_succ, List.getD_cons_succ,
        ih (ofbConsumed_advance h) (Nat.lt_of_succ_lt_succ hi), hctx, Nat.add_right_comm,
        Nat.add_assoc]

/-- A transform of data in two parts is the transform of the first, and then of the second (R227). -/
theorem ofbXor_append (o : OfbSlot) (d₁ d₂ : List Byte) :
    ofbXor o (d₁ ++ d₂) =
      ((ofbXor o d₁).1 ++ (ofbXor (ofbXor o d₁).2 d₂).1, (ofbXor (ofbXor o d₁).2 d₂).2) := by
  induction d₁ generalizing o with
  | nil => rfl
  | cons b d₁ ih => simp only [List.cons_append, ofbXor, ih]

/-- Settles O58: the keystream does not depend on the data, so that it cancels; and the state moves on
byte by byte, so that the transform streams. -/
theorem ofbLaws : Obligations.OfbLaws := by
  unfold Obligations.OfbLaws
  exact ⟨ofbXor_ofbXor, ofbXor_append⟩

end Sys2Proof.Proofs

/-! ### The OFB commands (R220 to R224) -/

namespace Sys2Proof.Proofs

open Sys2Proof.Machine Sys2Proof.Safety

/-! #### The commands that set the OFB slot (R220, R221) -/

/-- Settles O42: the rule of an init from the AES slot; the effect sets the OFB slot only. -/
theorem ofbInitRule : Obligations.OfbInitRule := by
  unfold Obligations.OfbInitRule
  exact ⟨rfl, fun s => init_rule s (i := .ofbInit) rfl⟩

/-- Settles O43: the rule of an init with key; the effect sets the OFB slot only. -/
theorem ofbInitWithKeyRule : Obligations.OfbInitWithKeyRule := by
  unfold Obligations.OfbInitWithKeyRule
  exact ⟨rfl, rfl, rfl, fun k s => initWithKey_rule s (i := .ofbInitWithKey k) rfl⟩

/-! #### The transforms (R222 to R224) -/

/-- A command that leaves the OFB slot after a transform of `x[LEN]` bytes consumes `x[LEN]` more
bytes, and changes no field but the memory, the stream and the result (R222, R223). -/
theorem ofbStream_moves {s : State} {i : Instr} {d : List Byte} {iv : Block} {m : Nat}
    (hv : s.ofb.valid = true) (hused : OfbConsumed s.ofb iv m) (hlen : d.length = s.dataLen)
    (heffect : successOf s i =
      ((s.setMem (successOf s i).mem).setOfb (ofbXor s.ofb d).2).setResult .ok) :
    OfbConsumed (successOf s i).ofb iv (m + s.dataLen) ∧
    successOf s i = ((s.setMem (successOf s i).mem).setOfb ⟨true, s.ofb.ctx,
      (successOf s i).ofb.ks, (successOf s i).ofb.off⟩).setResult .ok := by
  have hofb : (successOf s i).ofb = (ofbXor s.ofb d).2 := by rw [heffect]; rfl
  obtain ⟨hvalid, hctx⟩ := ofbXor_keeps s.ofb d
  have hslot : (⟨true, s.ofb.ctx, (ofbXor s.ofb d).2.ks, (ofbXor s.ofb d).2.off⟩ : OfbSlot) =
      (ofbXor s.ofb d).2 := by
    rw [← hv, ← hvalid, ← hctx]
  rw [hofb, hslot]
  exact ⟨hlen ▸ ofbConsumed_ofbXor hused d, heffect⟩

/-- Settles O44: the checks in order; on success the output stored is the transform of the input in
the slot. -/
theorem ofbXorRule : Obligations.OfbXorRule := by
  unfold Obligations.OfbXorRule
  refine ⟨rfl, fun s => ?_⟩
  obtain ⟨hinvalid, hrefused, hoverlap, hpass⟩ := streamXor_rule s (i := .ofbXor) rfl
  refine ⟨hinvalid, hrefused, hoverlap, fun iv m hv hused hsrc hdst halias => ?_⟩
  have hf := hpass hv hsrc hdst halias
  refine ⟨_, exec_of_checks_pass hf, fun i hi => ?_, sameOutside_successOf hf rfl,
    ofbStream_moves hv hused (length_srcData s) rfl⟩
  rw [byteAt_successOf hf rfl hi, outputOf, getD_ofbXor hused (by rwa [length_srcData]),
    getD_srcData hi]

/-- Settles O45: the checks in order; on success the output stored is the transform of zero bytes in
the slot, which is the keystream itself. -/
theorem ofbOutputRule : Obligations.OfbOutputRule := by
  unfold Obligations.OfbOutputRule
  refine ⟨rfl, fun s => ?_⟩
  obtain ⟨hinvalid, hrefused, hpass⟩ := streamOutput_rule s (i := .ofbOutput) rfl
  refine ⟨hinvalid, hrefused, fun iv m hv hused hdst => ?_⟩
  have hf := hpass hv hdst
  refine ⟨_, exec_of_checks_pass hf, fun i hi => ?_, sameOutside_successOf hf rfl,
    ofbStream_moves hv hused (length_zeros s) rfl⟩
  rw [byteAt_successOf hf rfl hi, outputOf, getD_ofbXor hused (by rwa [length_zeros]), getD_zeros]
  exact BitVec.zero_xor

/-- Byte `i` of the output of `OFB_XOR_WITH_KEY`: in the slot made from the key and the IV no byte has
been consumed (R224). -/
theorem getD_outputOf_ofbXorWithKey {s : State} {k i : Nat} (hi : i < s.dataLen) :
    (outputOf s (.ofbXorWithKey k)).getD i 0 = byteAt s (s.srcAddr + i) ^^^
      ofbKs (expand (s.keyBytes k)) s.ivBlock i := by
  rw [outputOf, getD_ofbXor (ofbConsumed_ofbInitSlot _ _) (by rwa [length_srcData]), Nat.zero_add,
    getD_srcData hi]
  rfl

/-- Settles O46: the checks in order; on success the output stored is the transform of the input in a
slot made from the key and the IV that the memory held before. -/
theorem ofbXorWithKeyRule : Obligations.OfbXorWithKeyRule := by
  unfold Obligations.OfbXorWithKeyRule
  refine ⟨rfl, rfl, rfl, fun k s => ?_⟩
  obtain ⟨hkey, hrefused, hoverlap, hpass⟩ := streamXorWithKey_rule s (i := .ofbXorWithKey k) rfl
  refine ⟨hkey, hrefused, hoverlap, fun hk hkeyAdm hiv hsrc hdst halias => ?_⟩
  have hf := hpass hk hkeyAdm hiv hsrc hdst halias
  refine ⟨_, exec_of_checks_pass hf, fun i hi => ?_, sameOutside_successOf hf rfl, rfl⟩
  rw [byteAt_successOf hf rfl hi, getD_outputOf_ofbXorWithKey hi]
  rfl

end Sys2Proof.Proofs

/-! ### The host's register writes and `ZEROIZE` (R28, R240, R245) -/

namespace Sys2Proof.Proofs

open Sys2Proof.Machine Sys2Proof.Safety

/-! #### A write to each of the register numbers (R245) -/

/-- No number outside 0x10 to 0x16 names an operand register (R21). -/
theorem ofNumber?_eq_none {n : Nat} (h : ¬ (0x10 ≤ n ∧ n ≤ 0x16)) : Reg.ofNumber? n = none := by
  unfold Reg.ofNumber?
  split
  case h_8 => rfl
  all_goals omega

/-- A write to `CMD` runs the low 32 bits of the value. -/
theorem hostStep_regWrite_cmd (v : Word64) (s : State) :
    hostStep (.regWrite 0x00 v) s = runWord (v.setWidth 32) s := rfl

/-- A write to an operand register sets that register to the value. -/
theorem hostStep_regWrite_operand (r : Reg) {n : Nat} (h : Reg.ofNumber? n = some r) (v : Word64)
    (s : State) : hostStep (.regWrite n v) s = .next (s.setRegs (s.regs.set r v)) := by
  have hcmd : n ≠ 0x00 := by
    rintro rfl
    cases h
  simp only [hostStep, hostRegWrite, if_neg hcmd, h]

/-- A write to a number that names neither `CMD` nor an operand register, `STATUS` included, is
ignored (R25, R28). -/
theorem hostStep_regWrite_ignored {n : Nat} (hcmd : n ≠ 0x00)
    (hoperand : ¬ (0x10 ≤ n ∧ n ≤ 0x16)) (v : Word64) (s : State) :
    hostStep (.regWrite n v) s = .next s := by
  simp only [hostStep, hostRegWrite, if_neg hcmd, ofNumber?_eq_none hoperand]

/-- A word that decodes to no command only raises `IllegalCommand` (R96). -/
theorem runWord_of_no_command {w : CommandWord} (h : ∀ i, decode w ≠ .ok i) (s : State) :
    runWord w s = .next ((s.setCmd w).setResult .illegalCommand) := by
  cases hd : decode w with
  | ok i => exact absurd hd (h i)
  | error e => exact runWord_of_illegal hd s

/-- Settles O7: the number is `CMD`, an operand register, or one whose write is ignored. -/
theorem regWriteRule : Obligations.RegWriteRule := by
  unfold Obligations.RegWriteRule
  intro s n v
  refine ⟨?cmdLegal, ?cmdIllegal, ?status, ?src, ?src2, ?dst, ?len, ?keya, ?iva, ?idx, ?unnamed⟩
  case unnamed => exact fun hcmd _ hoperand => hostStep_regWrite_ignored hcmd hoperand v s
  all_goals rintro rfl
  case cmdLegal =>
    exact fun i hd => (hostStep_regWrite_cmd v s).trans (runWord_of_decode hd s)
  case cmdIllegal =>
    exact fun hillegal => (hostStep_regWrite_cmd v s).trans (runWord_of_no_command hillegal s)
  case status => exact hostStep_regWrite_ignored (by decide) (by decide) v s
  case src => exact hostStep_regWrite_operand .src rfl v s
  case src2 => exact hostStep_regWrite_operand .src2 rfl v s
  case dst => exact hostStep_regWrite_operand .dst rfl v s
  case len => exact hostStep_regWrite_operand .len rfl v s
  case keya => exact hostStep_regWrite_operand .keya rfl v s
  case iva => exact hostStep_regWrite_operand .iva rfl v s
  case idx => exact hostStep_regWrite_operand .idx rfl v s

/-! #### `ZEROIZE` (R240) -/

/-- `ZEROIZE` has no check, so that it succeeds in every state. -/
theorem exec_zeroize (sel : BitVec 4) (s : State) :
    exec (.zeroize sel) s = .next (successOf s (.zeroize sel)) :=
  exec_of_checks_pass rfl

/-- `ZEROIZE` leaves all but the four slots and the result as it was. -/
theorem successOf_zeroize (sel : BitVec 4) (s : State) :
    successOf s (.zeroize sel) =
      ((((s.setAes (aesAfter s (.zeroize sel))).setCbc (cbcAfter s (.zeroize sel))).setCtr
        (ctrAfter s (.zeroize sel))).setOfb (ofbAfter s (.zeroize sel))).setResult .ok := rfl

/-- Settles O47: the word carries the mask as it is, and each bit of the mask selects its slot. -/
theorem zeroizeRule : Obligations.ZeroizeRule := by
  unfold Obligations.ZeroizeRule
  refine ⟨fun sel => encode_toNat (i := .zeroize sel) rfl, fun sel s => ?_⟩
  exact ⟨_, exec_zeroize sel s, rfl, rfl, rfl, rfl, successOf_zeroize sel s⟩

end Sys2Proof.Proofs

/-! ### The result of a command word and what an error leaves as it was (R251, R258) -/

namespace Sys2Proof.Proofs

open Sys2Proof.Machine Sys2Proof.Safety

/-- Settles O18: an error is a failed check or an illegal word, and both only set the result. -/
theorem failedCommandChangesOnlyResult : Obligations.FailedCommandChangesOnlyResult := by
  unfold Obligations.FailedCommandChangesOnlyResult
  intro w s t hrun herror
  obtain ⟨i, -, hexec⟩ | ⟨-, rfl⟩ := runWord_cases hrun
  · obtain ⟨-, rfl⟩ | ⟨e, -, rfl⟩ := exec_cases hexec
    · exact absurd rfl herror
    · rfl
  · rfl

/-! #### The checks of a command, read from the tables of R65, R68 and R250 -/

/-- Check 2 of R251: the key size a command carries. -/
def keySizeChecks (i : Instr) : List Check := (i.ksz?.map keySizeCheck).toList

/-- Check 4 of R251: the length of the data of a CBC transform. -/
def alignChecks (s : State) (i : Instr) : List Check :=
  if isCbcTransform i then [alignCheck s] else []

/-- Check 6 of R251: each tested input against the output. -/
def overlapChecks (s : State) (i : Instr) : List Check :=
  (outputSize s i).toList.flatMap fun n =>
    (testedInputs s i).map fun a => overlapCheck a s.dstAddr n

/-- The checks that the tables give any command, in the order of R251. -/
def tableChecks (s : State) (i : Instr) : List Check :=
  keySizeChecks i ++ ([contextCheck (contextPresent s i)] ++ (alignChecks s i ++
    ([accessCheck s (inputRanges s i ++ outputRanges s i)] ++ overlapChecks s i)))

/-- The meaning of a command lists the checks of the tables, but for a context check where no context
is needed and an access check of no range, which pass. -/
theorem firstFailure_checksOf (s : State) (i : Instr) :
    firstFailure (checksOf s i) = firstFailure (tableChecks s i) := by
  cases i <;> rfl

/-- Checks that share one error come first: it is reported when one of them fails. -/
theorem firstFailure_append {cs : List Check} {e : ResultCode} (herror : ∀ c ∈ cs, c.error = e)
    (ds : List Check) :
    firstFailure (cs ++ ds) =
      if ∃ c ∈ cs, c.passes = false then some e else firstFailure ds := by
  induction cs with
  | nil => simp
  | cons c cs ih =>
    obtain ⟨hc, hcs⟩ := List.forall_mem_cons.1 herror
    rw [List.cons_append, firstFailure_cons, ih hcs]
    cases hpass : c.passes <;> simp [hpass, hc]

/-! #### When the checks of each kind fail -/

theorem keySizeChecks_fail_iff (i : Instr) :
    (∃ c ∈ keySizeChecks i, c.passes = false) ↔
      i.ksz?.any (fun k => !([16, 24, 32].contains k)) = true := by
  unfold keySizeChecks
  cases i.ksz? with
  | none => simp
  | some k => simp [keySizeCheck, Config.keySizes]

theorem alignChecks_fail_iff (s : State) (i : Instr) :
    (∃ c ∈ alignChecks s i, c.passes = false) ↔
      (isCbcTransform i && s.dataLen % 16 != 0) = true := by
  unfold alignChecks
  cases isCbcTransform i with
  | false => simp
  | true => simp [← alignCheck_passes]

theorem accessCheck_fails_iff (s : State) (rs : List Range) :
    (accessCheck s rs).passes = false ↔
      rs.any (fun r => decide (s.memBytes < r.addr + r.size)) = true := by
  simp [accessCheck, admitted]

theorem overlapChecks_fail_iff (s : State) (i : Instr) :
    (∃ c ∈ overlapChecks s i, c.passes = false) ↔
      (outputRanges s i).any (fun o => (testedInputs s i).any
        (fun a => decide (a ≠ o.addr ∧ a < o.addr + o.size ∧ o.addr < a + o.size))) = true := by
  unfold overlapChecks outputRanges
  cases outputSize s i with
  | none => simp
  | some n => simp [overlapCheck, overlapsPartially]

theorem keySizeChecks_error (i : Instr) : ∀ c ∈ keySizeChecks i, c.error = .invalidKeySize := by
  simp [keySizeChecks]

theorem alignChecks_error (s : State) (i : Instr) :
    ∀ c ∈ alignChecks s i, c.error = .sizeNotBlockAligned := by
  unfold alignChecks
  cases isCbcTransform i <;> simp

theorem overlapChecks_error (s : State) (i : Instr) :
    ∀ c ∈ overlapChecks s i, c.error = .overlapFault := by
  simp only [overlapChecks, List.mem_flatMap, List.mem_map]
  rintro _ ⟨n, -, a, -, rfl⟩
  rfl

/-! #### The result -/

/-- The result that the tables give is the first failure of their checks, or `OK`. -/
theorem expectedResult_eq (s : State) (i : Instr) :
    expectedResult s i = (firstFailure (tableChecks s i)).getD .ok := by
  rw [tableChecks, firstFailure_append (keySizeChecks_error i),
    firstFailure_append (List.forall_mem_singleton.2 rfl),
    firstFailure_append (alignChecks_error s i),
    firstFailure_append (List.forall_mem_singleton.2 rfl),
    ← List.append_nil (overlapChecks s i), firstFailure_append (overlapChecks_error s i)]
  simp only [keySizeChecks_fail_iff, alignChecks_fail_iff, overlapChecks_fail_iff,
    List.mem_singleton, exists_eq_left, contextCheck_passes, accessCheck_fails_iff,
    apply_ite (Option.getD · ResultCode.ok)]
  rfl

/-- The result of a command is the first failure of its checks, or `OK`. -/
theorem exec_result {i : Instr} {s t : State} (h : exec i s = .next t) :
    t.result = (firstFailure (checksOf s i)).getD .ok := by
  obtain ⟨hf, rfl⟩ | ⟨e, hf, rfl⟩ := exec_cases h <;> rw [hf] <;> rfl

/-- No check reads `CMD`. -/
theorem expectedResult_setCmd (s : State) (w : CommandWord) (i : Instr) :
    expectedResult (s.setCmd w) i = expectedResult s i := rfl

/-- Settles O19: a command reports the first failure of its checks, which is that of the tables. -/
theorem resultFollowsCheckOrder : Obligations.ResultFollowsCheckOrder := by
  unfold Obligations.ResultFollowsCheckOrder
  intro w s t hrun
  refine ⟨fun i hd => ?legal, fun hillegal => ?illegal⟩
  case legal =>
    rw [runWord_of_decode hd] at hrun
    rw [exec_result hrun, firstFailure_checksOf, ← expectedResult_eq, expectedResult_setCmd]
  case illegal =>
    rw [runWord_of_no_command hillegal] at hrun
    cases hrun
    rfl

end Sys2Proof.Proofs

/-! ### Reset (R280, R41) -/

namespace Sys2Proof.Proofs

open Sys2Proof.Machine Sys2Proof.Safety

/-- Reset is a step in every state; it is never refused. -/
theorem hostStep_reset (s : State) : hostStep .reset s = .next s.applyReset := rfl

/-- `STATUS` reads only the result and the valid flags, and a reset sets all of them. -/
theorem statusWord_applyReset (s : State) :
    statusWord s.applyReset = statusWord State.reset := by
  simp only [statusWord, State.applyReset_result, State.applyReset_aes, State.applyReset_cbc,
    State.applyReset_ctr, State.applyReset_ofb]

/-- Settles O10: each field but the memory is that of `State.reset`, where `STATUS` is 0 (O11). -/
theorem resetRule : Obligations.ResetRule := by
  unfold Obligations.ResetRule
  intro s
  obtain ⟨-, hcmd, hstatus, -⟩ := resetStateValues
  exact ⟨s.applyReset, hostStep_reset s, s.applyReset_regs, s.applyReset_cmd.trans hcmd,
    (statusWord_applyReset s).trans hstatus, s.applyReset_result, s.applyReset_aes,
    s.applyReset_cbc, s.applyReset_ctr, s.applyReset_ofb, s.applyReset_mem⟩

end Sys2Proof.Proofs
